-- ==== Sys2Proof/Word.lean ====
section
/-! DEFINITION. The two bit-vector types of the block.

A register and a command word are 32 bits wide (10_state.md R21, 30_encoding.md R90); every element of a byte space is
8 bits wide (20_memory.md R60, R73). -/

namespace Sys2Proof

/-- A byte: an element of `IBUF`, `OBUF`, `WBUF`, `FRAME`, `BLK` and `HLEN` (20_memory.md R60). -/
abbrev Byte := BitVec 8

/-- A 32-bit word: a register, a command word, an element of `HWEIGHT` and `HLINK` (10_state.md R21, R34). -/
abbrev Word := BitVec 32

end Sys2Proof
end

