-- ==== Sys2Proof/Machine/Bits.lean ====
section
/-! DEFINITION. Bit lists and byte lists: the bit order of every stream (20_memory.md R71, 40_bitstream.md R120), `pack`
(00_scope.md R11) and the byte order of the count field (00_scope.md R10, 20_memory.md R72). -/

namespace Sys2Proof.Machine

/-- Stream bit `k` of a byte, counted from the most significant bit: mask `0x80 >> k` (00_scope.md R10). -/
def streamBit (b : Byte) (k : Nat) : Bool := b.getLsbD (7 - k)

/-- The mask of stream bit `k` (00_scope.md R10). -/
def streamMask (k : Nat) : Byte := 0x80#8 >>> k

/-- A byte with stream bit `k` stored (40_bitstream.md R122). -/
def storeStreamBit (old : Byte) (k : Nat) (b : Bool) : Byte :=
  (old &&& (0xFF#8 ^^^ streamMask k)) ||| if b then streamMask k else 0#8

/-- The eight stream bits of a byte, stream bit 0 first. -/
def byteBits (b : Byte) : List Bool := (List.range 8).map (streamBit b)

/-- The bits of a byte list, in stream order (40_bitstream.md R120). -/
def unpack (bytes : List Byte) : List Bool := bytes.flatMap byteBits

/-- The byte whose stream bits are the first eight of a bit list, missing ones 0. -/
def byteOfBits (bits : List Bool) : Byte :=
  (List.range 8).foldl (fun b k => storeStreamBit b k (bits.getD k false)) 0#8

/-- The first `n` bytes of a packed bit list. -/
def packBytes : Nat → List Bool → List Byte
  | 0, _ => []
  | n + 1, bits => byteOfBits bits :: packBytes n (bits.drop 8)

/-- `pack(B)`: most significant bit first, zero padding to the byte boundary (00_scope.md R11). -/
def pack (bits : List Bool) : List Byte := packBytes ((bits.length + 7) / 8) bits

/-- `be32(n)`, most significant byte first (00_scope.md R10). -/
def be32 (n : Nat) : List Byte :=
  [BitVec.ofNat 8 (n / 2 ^ 24), BitVec.ofNat 8 (n / 2 ^ 16), BitVec.ofNat 8 (n / 2 ^ 8), BitVec.ofNat 8 n]

/-- `unbe32`, the inverse of `be32` (00_scope.md R10). -/
def unbe32 (bytes : List Byte) : Nat := bytes.foldl (fun n b => n * 256 + b.toNat) 0

end Sys2Proof.Machine
end

