-- ==== Sys2Proof/Config.lean ====
section
/-! DEFINITION. What is fixed for one block and not state of it: the configuration record `CFG` (00_scope.md R7), its
default, and the free values that stand for everything the spec calls unspecified (93_implementation_defined.md U10 to
U15). -/

namespace Sys2Proof

/-- `NUM`, the numerics of the transform datapath (41_block_transform.md R147). -/
inductive Num where
  | ref64
  | real
deriving DecidableEq, Repr

/-- The configuration record `CFG` (00_scope.md R7). Capacities are byte counts; `qtab` has flat index `v*8 + u`
(41_block_transform.md R146). Its constraints are `Config.wf` (Sys2Proof/WellFormed.lean). -/
structure Config where
  ibufCap : Nat
  obufCap : Nat
  wbufCap : Nat
  frameCap : Nat
  qtab : Vector Nat 64
  num : Num
deriving DecidableEq, Repr

/-- The default `QTAB`, row `v` down and column `u` across (41_block_transform.md R146). -/
def Config.defaultQtab : Vector Nat 64 :=
  ⟨⟨[16, 11, 10, 16, 24, 40, 51, 61]
    ++ [12, 12, 14, 19, 26, 58, 60, 55]
    ++ [14, 13, 16, 24, 40, 57, 69, 56]
    ++ [14, 17, 22, 29, 51, 87, 80, 62]
    ++ [18, 22, 37, 56, 68, 109, 103, 77]
    ++ [24, 35, 55, 64, 81, 104, 113, 92]
    ++ [49, 64, 78, 87, 103, 121, 120, 101]
    ++ [72, 92, 95, 98, 112, 100, 103, 99]⟩, rfl⟩

/-- The default configuration: the suggested values of 00_scope.md R7. -/
def Config.default : Config where
  ibufCap := 2 ^ 24
  obufCap := 2 ^ 24
  wbufCap := 2 ^ 16
  frameCap := 2 ^ 24
  qtab := Config.defaultQtab
  num := .ref64

/-- FREE VALUE. The byte that draw number `draw` puts at index `index` of a range the spec leaves unspecified. Nothing
constrains it (00_scope.md R14: the model must admit every value of the type; log entry 3). -/
opaque Config.freeByte (draw index : Nat) : Byte

/-- FREE VALUE. The word that draw number `draw` gives to a host read whose value the spec leaves unspecified. Nothing
constrains it (20_memory.md R65: each read is its own draw; log entry 3). -/
opaque Config.freeWord (draw : Nat) : Word

end Sys2Proof
end

