-- ==== Sys2Proof/Syntax.lean ====
section
/-! DEFINITION. The syntax: the 22 commands of the opcode map (30_encoding.md R92) as one inductive type, and the host
actions of a script (30_encoding.md R96), which are what the block is given to execute. -/

namespace Sys2Proof

/-- The buffer a reader is attached to: the `src` bit of format `S`, 0 `IBUF` and 1 `WBUF` (30_encoding.md R91). -/
inductive Source where
  | ibuf
  | wbuf
deriving DecidableEq, Repr

/-- A command: one constructor for each row of the opcode map (30_encoding.md R92). The only immediates are the bit `b`
of format `B` and the buffer `src` of format `S` (R91, R93); every other operand is read from `A0`, `A1`, `A2` when
the command executes. -/
inductive Instr where
  | reset
  | bswInit
  | bswWrite (b : Bool)
  | bsrInit (src : Source)
  | bsrRead
  | blkLd
  | blkSt
  | dctFwd
  | dctInv
  | frmFwd
  | frmInv
  | getY
  | getU
  | getV
  | setY
  | setU
  | setV
  | hufBuild
  | hufEnc
  | hufDec
  | pipeEnc
  | pipeDec
deriving DecidableEq, Repr

/-- The byte-wide memory spaces (20_memory.md R60). -/
inductive ByteSpace where
  | ibuf
  | obuf
  | wbuf
  | frame
  | blk
  | hlen
deriving DecidableEq, Repr

/-- The word-wide memory spaces (20_memory.md R60). -/
inductive WordSpace where
  | hweight
  | hlink
deriving DecidableEq, Repr

/-- One action of the world outside the block. The host issues a command word, reads or writes one register whole
(10_state.md R21), or reads or writes one element of a memory space (20_memory.md R65, R73); `powerOn` is the
platform's power-on reset signal (70_reset_and_hazards.md R290). -/
inductive HostAction where
  | issue (w : Word)
  | readReg (n : Nat)
  | writeReg (n : Nat) (v : Word)
  | readByte (sp : ByteSpace) (i : Nat)
  | writeByte (sp : ByteSpace) (i : Nat) (v : Byte)
  | readWord (sp : WordSpace) (i : Nat)
  | writeWord (sp : WordSpace) (i : Nat) (v : Word)
  | powerOn
deriving DecidableEq, Repr

end Sys2Proof
end

