-- ==== Sys2Proof/WellFormed.lean ====
section
/-! DEFINITION. The checks on terms: which configurations 00_scope.md R7 admits, which command words are legal
(30_encoding.md R92, R94), which host accesses have an index inside their space (20_memory.md R65).

`Instr` itself needs no check: the operands of its constructors (a `Bool`, a `Source`) have exactly the values the
formats `B` and `S` admit (30_encoding.md R91), so every term of `Instr` is a command of the block, and `Instr.wf` says
so by asking that its word be legal (Sys2Proof/Decode.lean). -/

namespace Sys2Proof

/-- The upper bound of every capacity, `2^29 − 1` (00_scope.md R7). -/
def Config.maxCap : Nat := 2 ^ 29 - 1

/-- The constraints of 00_scope.md R7. -/
def Config.wf (c : Config) : Bool :=
  (324 ≤ c.ibufCap && c.ibufCap ≤ Config.maxCap)
    && (324 ≤ c.obufCap && c.obufCap ≤ Config.maxCap)
    && (1 ≤ c.wbufCap && c.wbufCap ≤ Config.maxCap)
    && c.frameCap ≤ Config.maxCap
    && c.qtab.toList.all fun q => 1 ≤ q && q ≤ 255

/-- One row of the opcode map: a word `w` selects the row exactly when `w & mask = pattern` (30_encoding.md R92). -/
structure OpcodeRow where
  mnemonic : String
  pattern : Word
  mask : Word
deriving DecidableEq, Repr

/-- Whether a word selects the row. -/
def OpcodeRow.selects (r : OpcodeRow) (w : Word) : Bool := w &&& r.mask == r.pattern

/-- The mask of format `Z`: all 32 bits are fixed (30_encoding.md R91, R92). -/
def OpcodeRow.z (mnemonic : String) (pattern : Word) : OpcodeRow := ⟨mnemonic, pattern, 0xFFFFFFFF#32⟩

/-- The mask of formats `B` and `S`: bit 0 is the operand (30_encoding.md R91, R92). -/
def OpcodeRow.bit0 (mnemonic : String) (pattern : Word) : OpcodeRow := ⟨mnemonic, pattern, 0xFFFFFFFE#32⟩

/-- The opcode map (30_encoding.md R92). -/
def opcodeMap : List OpcodeRow :=
  [.z "RESET" 0x01000000#32,
   .z "BSW_INIT" 0x10000000#32,
   .bit0 "BSW_WRITE" 0x11000000#32,
   .bit0 "BSR_INIT" 0x12000000#32,
   .z "BSR_READ" 0x13000000#32,
   .z "BLK_LD" 0x20000000#32,
   .z "BLK_ST" 0x21000000#32,
   .z "DCT_FWD" 0x22000000#32,
   .z "DCT_INV" 0x23000000#32,
   .z "FRM_FWD" 0x30000000#32,
   .z "FRM_INV" 0x31000000#32]
  ++ [.z "GETY" 0x34000000#32,
   .z "GETU" 0x35000000#32,
   .z "GETV" 0x36000000#32,
   .z "SETY" 0x38000000#32,
   .z "SETU" 0x39000000#32,
   .z "SETV" 0x3A000000#32,
   .z "HUF_BUILD" 0x40000000#32,
   .z "HUF_ENC" 0x41000000#32,
   .z "HUF_DEC" 0x42000000#32,
   .z "PIPE_ENC" 0x50000000#32,
   .z "PIPE_DEC" 0x51000000#32]

/-- A word is legal when it selects a row of the opcode map; otherwise it is illegal (30_encoding.md R94). -/
def legalWord (w : Word) : Bool := opcodeMap.any (·.selects w)

/-- The number of elements of a byte space (20_memory.md R60). -/
def ByteSpace.size (c : Config) : ByteSpace → Nat
  | .ibuf => c.ibufCap
  | .obuf => c.obufCap
  | .wbuf => c.wbufCap
  | .frame => c.frameCap
  | .blk => 64
  | .hlen => 256

/-- The number of elements of a word space (20_memory.md R60). -/
def WordSpace.size : WordSpace → Nat
  | .hweight => 511
  | .hlink => 511

/-- A host access to a memory space is inside the space; every other action has no index to check
(20_memory.md R65). -/
def HostAction.wf (c : Config) : HostAction → Bool
  | .issue _ => true
  | .readReg _ => true
  | .writeReg _ _ => true
  | .readByte sp i => i < sp.size c
  | .writeByte sp i _ => i < sp.size c
  | .readWord sp i => i < sp.size
  | .writeWord sp i _ => i < sp.size
  | .powerOn => true

end Sys2Proof
end

