-- ==== Sys2Proof/Decode.lean ====
section
/-! DEFINITION. The decoder of command words, total on any 32-bit word and rejecting by name (30_encoding.md R90, R91,
R94), and after it the encoder, written from the same table (R92). -/

namespace Sys2Proof

/-- Why a word is illegal (30_encoding.md R94): its opcode is not one of the 22, or a must-be-0 bit of its format is 1. -/
inductive DecodeError where
  | unassignedOpcode (op : BitVec 8)
  | mustBeZeroBitSet (op : BitVec 8)
deriving DecidableEq, Repr

/-- Bits [31:24], the opcode (30_encoding.md R91). -/
def opcodeField (w : Word) : BitVec 8 := w.extractLsb' 24 8

/-- Bits [23:1], which every format requires to be 0 (30_encoding.md R91). -/
def zeroField (w : Word) : BitVec 23 := w.extractLsb' 1 23

/-- Bit [0], the operand of formats `B` and `S` (30_encoding.md R91). -/
def bitField (w : Word) : Bool := w.getLsbD 0

/-- The buffer named by the bit `src` of format `S`: 0 `IBUF`, 1 `WBUF` (30_encoding.md R91). -/
def Source.ofBit : Bool → Source
  | false => .ibuf
  | true => .wbuf

/-- The bit `src` of format `S` (30_encoding.md R91). -/
def Source.toBit : Source → Bool
  | .ibuf => false
  | .wbuf => true

/-- Format `Z`: bits [23:0] must be 0 (30_encoding.md R91). -/
def formatZ (w : Word) (i : Instr) : Except DecodeError Instr :=
  if zeroField w = 0#23 ∧ bitField w = false then .ok i else .error (.mustBeZeroBitSet (opcodeField w))

/-- Formats `B` and `S`: bits [23:1] must be 0 and bit [0] is the operand (30_encoding.md R91, R93). -/
def formatBit (w : Word) (i : Bool → Instr) : Except DecodeError Instr :=
  if zeroField w = 0#23 then .ok (i (bitField w)) else .error (.mustBeZeroBitSet (opcodeField w))

/-- The decoder (30_encoding.md R92, R94). -/
def decode (w : Word) : Except DecodeError Instr :=
  match (opcodeField w).toNat with
  | 0x01 => formatZ w .reset
  | 0x10 => formatZ w .bswInit
  | 0x11 => formatBit w fun b => .bswWrite b
  | 0x12 => formatBit w fun b => .bsrInit (Source.ofBit b)
  | 0x13 => formatZ w .bsrRead
  | 0x20 => formatZ w .blkLd
  | 0x21 => formatZ w .blkSt
  | 0x22 => formatZ w .dctFwd
  | 0x23 => formatZ w .dctInv
  | 0x30 => formatZ w .frmFwd
  | 0x31 => formatZ w .frmInv
  | 0x34 => formatZ w .getY
  | 0x35 => formatZ w .getU
  | 0x36 => formatZ w .getV
  | 0x38 => formatZ w .setY
  | 0x39 => formatZ w .setU
  | 0x3A => formatZ w .setV
  | 0x40 => formatZ w .hufBuild
  | 0x41 => formatZ w .hufEnc
  | 0x42 => formatZ w .hufDec
  | 0x50 => formatZ w .pipeEnc
  | 0x51 => formatZ w .pipeDec
  | _ => .error (.unassignedOpcode (opcodeField w))

/-- The opcode of a command (30_encoding.md R92). -/
def Instr.opcode : Instr → BitVec 8
  | .reset => 0x01#8
  | .bswInit => 0x10#8
  | .bswWrite _ => 0x11#8
  | .bsrInit _ => 0x12#8
  | .bsrRead => 0x13#8
  | .blkLd => 0x20#8
  | .blkSt => 0x21#8
  | .dctFwd => 0x22#8
  | .dctInv => 0x23#8
  | .frmFwd => 0x30#8
  | .frmInv => 0x31#8
  | .getY => 0x34#8
  | .getU => 0x35#8
  | .getV => 0x36#8
  | .setY => 0x38#8
  | .setU => 0x39#8
  | .setV => 0x3A#8
  | .hufBuild => 0x40#8
  | .hufEnc => 0x41#8
  | .hufDec => 0x42#8
  | .pipeEnc => 0x50#8
  | .pipeDec => 0x51#8

/-- Bit [0] of a command's word: `b` of format `B`, `src` of format `S`, 0 of format `Z` (30_encoding.md R91). -/
def Instr.operandBit : Instr → Bool
  | .bswWrite b => b
  | .bsrInit src => src.toBit
  | .reset | .bswInit | .bsrRead | .blkLd | .blkSt | .dctFwd | .dctInv | .frmFwd | .frmInv | .getY | .getU | .getV
  | .setY | .setU | .setV | .hufBuild | .hufEnc | .hufDec | .pipeEnc | .pipeDec => false

/-- The encoder: the opcode in bits [31:24], 0 in bits [23:1], the operand bit in bit [0] (30_encoding.md R91, R92). -/
def encode (i : Instr) : Word := i.opcode ++ (0#23 ++ BitVec.ofBool i.operandBit)

/-- Every term of `Instr` is a command of the block: its word is legal (30_encoding.md R94). -/
def Instr.wf (i : Instr) : Bool := legalWord (encode i)

/-- What the decoder reads from the bits of an opcode-table row, every bit above `nbits` taken as 0. A command is one
32-bit word handed over by value (30_encoding.md R90, R95), so there is no layout in memory and no byte order, and a
number of more than 32 bits is no command word. -/
def decodeTableWord (nbits w : Nat) : Option Instr :=
  let bits := w % 2 ^ nbits
  if bits < 2 ^ 32 then (decode (BitVec.ofNat 32 bits)).toOption else none

end Sys2Proof
end

