-- ==== Sys2Proof/Machine/Memory.lean ====
section
/-! DEFINITION. One byte-wide memory space as plain data, its canonical form and its operations; and the fixed-length
tables (`BLK`, `HWEIGHT`, `HLINK`, `HLEN`).

An element of `IBUF`, `OBUF`, `WBUF` or `FRAME` is either SPECIFIED, a byte that a host write or a command put there, or
UNSPECIFIED, because power-on or a command's rule left it so (10_state.md R39, 20_memory.md R62, 43_huffman.md R223,
44_pipeline_system.md R244). The unspecified elements are listed as ranges, the specified nonzero ones as cells, and a
specified zero is not listed. -/

namespace Sys2Proof.Machine

/-- The indices `lo ≤ i < hi` hold unspecified values: element `i` holds `Config.freeByte draw i`. `redrawn` says that a
HOST READ of such an element is a draw of its own (20_memory.md R65: every unspecified value but the contents at
power-on, which are drawn once and stable, 93_implementation_defined.md U10). -/
structure FreeRange where
  lo : Nat
  hi : Nat
  draw : Nat
  redrawn : Bool
deriving DecidableEq, Repr

/-- A memory space: the listed bytes and the unspecified ranges. -/
structure Mem where
  cells : List Host.Cell
  free : List FreeRange
deriving DecidableEq, Repr

/-- Whether the range holds index `i`. -/
def FreeRange.has (r : FreeRange) (i : Nat) : Bool := r.lo ≤ i && i < r.hi

/-- The unspecified range that holds index `i`, if one does. -/
def Mem.freeAt (m : Mem) (i : Nat) : Option FreeRange := m.free.find? (·.has i)

/-- WHAT AN UNLISTED INDEX READS AS: a free value inside an unspecified range, 0 elsewhere (an unlisted index outside
every unspecified range is one that holds a specified 0). -/
def Mem.background (m : Mem) (i : Nat) : Byte :=
  match m.freeAt i with
  | some r => Config.freeByte r.draw i
  | none => 0#8

/-- The byte listed for an index, if one is. -/
def lookupCell : List Host.Cell → Nat → Option Byte
  | [], _ => none
  | (k, b) :: rest, i => if k = i then some b else lookupCell rest i

/-- `SPACE[i]`: the byte at index `i` (00_scope.md R12). -/
def Mem.read (m : Mem) (i : Nat) : Byte :=
  match lookupCell m.cells i with
  | some b => b
  | none => m.background i

/-- A list of cells with one more, in address order. -/
def insertCell : List Host.Cell → Nat → Byte → List Host.Cell
  | [], i, b => [(i, b)]
  | (k, c) :: rest, i, b => if i < k then (i, b) :: (k, c) :: rest else (k, c) :: insertCell rest i b

/-- The cells outside `lo ≤ i < hi`. -/
def cellsOutside (cells : List Host.Cell) (lo hi : Nat) : List Host.Cell :=
  cells.filter fun c => !(lo ≤ c.1 && c.1 < hi)

/-- The range as a list: nothing when it is empty. -/
def FreeRange.nonempty (r : FreeRange) : List FreeRange := if r.lo < r.hi then [r] else []

/-- What is left of a range when `lo ≤ i < hi` is taken out of it. -/
def FreeRange.without (r : FreeRange) (lo hi : Nat) : List FreeRange :=
  FreeRange.nonempty { r with hi := min r.hi lo } ++ FreeRange.nonempty { r with lo := max r.lo hi }

/-- The unspecified ranges when `lo ≤ i < hi` is taken out of them. -/
def rangesWithout (free : List FreeRange) (lo hi : Nat) : List FreeRange := free.flatMap (·.without lo hi)

/-- A list of ranges with one more, in address order. -/
def insertRange : List FreeRange → FreeRange → List FreeRange
  | [], r => [r]
  | q :: rest, r => if r.lo < q.lo then r :: q :: rest else q :: insertRange rest r

/-- `SPACE[i] <- b` (00_scope.md R12): the element is specified from then on, and a 0 is not listed. -/
def Mem.write (m : Mem) (i : Nat) (b : Byte) : Mem where
  cells := if b = 0#8 then cellsOutside m.cells i (i + 1) else insertCell (cellsOutside m.cells i (i + 1)) i b
  free := rangesWithout m.free i (i + 1)

/-- `SPACE[i..) <- bytes`, in index order. -/
def Mem.writeList (m : Mem) (i : Nat) : List Byte → Mem
  | [] => m
  | b :: rest => Mem.writeList (m.write i b) (i + 1) rest

/-- `SPACE[i .. i + n)` as a byte list (00_scope.md R12). -/
def Mem.slice (m : Mem) (i n : Nat) : List Byte := (List.range n).map fun k => m.read (i + k)

/-- `SPACE[lo..hi) <- unspecified` (60_exceptions.md R264): every element of the range is a free value from then on. -/
def Mem.havoc (m : Mem) (lo hi draw : Nat) (redrawn : Bool) : Mem :=
  if lo < hi then
    { cells := cellsOutside m.cells lo hi, free := insertRange (rangesWithout m.free lo hi) ⟨lo, hi, draw, redrawn⟩ }
  else m

/-- The cells that list `bytes` from index `i` on. -/
def cellsFrom : Nat → List Byte → List Host.Cell
  | _, [] => []
  | i, b :: rest => if b = 0#8 then cellsFrom (i + 1) rest else (i, b) :: cellsFrom (i + 1) rest

/-- The space of `cap` elements that holds `bytes` from index 0 on and nothing specified after them
(20_memory.md R62: what `OBUF` holds after a command that succeeded). -/
def Mem.loaded (bytes : List Byte) (cap draw : Nat) : Mem where
  cells := cellsFrom 0 bytes
  free := FreeRange.nonempty ⟨bytes.length, cap, draw, true⟩

/-- THE CANONICAL FORM: addresses strictly rising, no entry equal to what an unlisted address reads as, no entry inside
an unspecified range; the unspecified ranges nonempty, in order and apart. Equal memories are equal data. -/
def Mem.wf (m : Mem) : Bool :=
  decide (m.cells.Pairwise fun c d => c.1 < d.1)
    && m.cells.all (fun c => c.2 != 0#8 && (m.freeAt c.1).isNone)
    && decide (m.free.Pairwise fun q r => q.hi ≤ r.lo)
    && m.free.all fun r => r.lo < r.hi

/-- Nothing is listed at or beyond the space's size. -/
def Mem.fits (m : Mem) (cap : Nat) : Bool :=
  m.cells.all (fun c => c.1 < cap) && m.free.all fun r => r.hi ≤ cap

/-- The table of length `n` whose element `k` is `f k`. -/
def tableOf {α : Type} (n : Nat) (f : Nat → α) : Vector α n := ⟨⟨(List.range n).map f⟩, by simp⟩

/-- Element `k` of a table. -/
def tableGet {α : Type} [Inhabited α] {n : Nat} (t : Vector α n) (k : Nat) : α := t.toList.getD k default

/-- A table with element `k` replaced. -/
def tableSet {α : Type} {n : Nat} (t : Vector α n) (k : Nat) (x : α) : Vector α n :=
  ⟨⟨t.toList.set k x⟩, by simp⟩

end Sys2Proof.Machine
end

