-- ==== Sys2Proof/Machine/State.lean ====
section
/-! DEFINITION. The state of the block as plain data (10_state.md R20: the registers of R22, `BLK`, the Huffman table
spaces, the four memories), the reasons a step can stop, and the state after reset (10_state.md R39).

Derived registers (`STATUS`, `BSW_BITS`, `BSW_BYTES`, `BSR_BITS`, `BSR_BYTES`) and the capacity constants have no storage
(10_state.md R22, R32): they are computed in Flags.lean and HostPort.lean. -/

namespace Sys2Proof.Machine

/-- Why a step stops with a fault of the MODEL. The block's own faults (60_exceptions.md R260) are not here: taking one
is a next state (60_exceptions.md R264). -/
inductive Fault where
  /-- Raised by `BSW_WRITE` and `BSR_READ` when the byte they would access has an index at or beyond the size of its
  space, an element that does not exist (20_memory.md R65). Only a state that breaks the invariants of 10_state.md R29,
  R30 raises it, and no reachable state does. Safe. -/
  | outsideSpace (sp : ByteSpace) (index : Nat)
deriving DecidableEq, Repr

/-- Why the model has no step. -/
inductive Refusal where
  /-- An instruction without a meaning; raised by an arm of `exec` that has none. Safe. -/
  | notModelled (mnemonic : String)
  /-- A host access to a byte space at or beyond its size; raised by the host port (20_memory.md R65: "the model gives
  the host no such step"). Safe. -/
  | byteIndexOutside (sp : ByteSpace) (index : Nat)
  /-- A host access to a word space at or beyond its size; raised by the host port (20_memory.md R65). Safe. -/
  | wordIndexOutside (sp : WordSpace) (index : Nat)
  /-- A host action other than reading `STATUS` while `BUSY` = 1; raised by the host port
  (70_reset_and_hazards.md R301: "the model gives the host no such step"). Safe. -/
  | hostWhileBusy
deriving DecidableEq, Repr

/-- The block register: 64 bytes, flat index `j*8 + i` (10_state.md R33, 41_block_transform.md R140). -/
abbrev Block := Vector Byte 64

/-- The whole state. INVENTORY.md lists each field with its rule and reset value. -/
structure State where
  /-- The configuration record (00_scope.md R7): a parameter of the step, which no step changes. -/
  cfg : Config
  /-- `STATUS.FAULT` (10_state.md R25). -/
  fault : Bool
  /-- `STATUS.BUSY` (10_state.md R25, 70_reset_and_hazards.md R301). -/
  busy : Bool
  /-- `STATUS.BSR_VALID` (10_state.md R25, R30). -/
  bsrValid : Bool
  /-- `STATUS.BSR_SRC` (10_state.md R25, R30). -/
  bsrSrc : Source
  /-- `STATUS.HVALID` (10_state.md R25, 43_huffman.md R204). -/
  hvalid : Bool
  /-- `ERR` (10_state.md R26). -/
  err : BitVec 4
  /-- `ERRINFO` (10_state.md R26). -/
  errinfo : Word
  /-- `ERRCMD` (10_state.md R26). -/
  errcmd : Word
  /-- `A0` (10_state.md R23). -/
  a0 : Word
  /-- `A1` (10_state.md R23). -/
  a1 : Word
  /-- `A2` (10_state.md R23). -/
  a2 : Word
  /-- `RES` (10_state.md R24). -/
  res : Word
  /-- `WIDTH` (10_state.md R27). -/
  width : BitVec 16
  /-- `HEIGHT` (10_state.md R27). -/
  height : BitVec 16
  /-- `ILEN` (10_state.md R28). -/
  ilen : Word
  /-- `OLEN` (10_state.md R28). -/
  olen : Word
  /-- `BSW_BYTE` (10_state.md R29). -/
  bswByte : Word
  /-- `BSW_BIT` (10_state.md R29). -/
  bswBit : BitVec 3
  /-- `BSR_BYTE` (10_state.md R30). -/
  bsrByte : Word
  /-- `BSR_BIT` (10_state.md R30). -/
  bsrBit : BitVec 3
  /-- `BSR_BASE` (10_state.md R30). -/
  bsrBase : Word
  /-- `BSR_LEN` (10_state.md R30). -/
  bsrLen : Word
  /-- `HNBITS` (10_state.md R31). -/
  hnbits : Word
  /-- `BLK` (10_state.md R33). -/
  blk : Block
  /-- `HWEIGHT` (10_state.md R34). -/
  hweight : Vector Word 511
  /-- `HLINK` (10_state.md R34). -/
  hlink : Vector Word 511
  /-- `HLEN` (10_state.md R34). -/
  hlen : Vector Byte 256
  /-- `IBUF` (20_memory.md R61). -/
  ibuf : Mem
  /-- `OBUF` (20_memory.md R62). -/
  obuf : Mem
  /-- `WBUF` (20_memory.md R63). -/
  wbuf : Mem
  /-- `FRAME` (20_memory.md R64). -/
  frame : Mem
  /-- MODEL'S OWN: the host's pending actions, oldest first. A step performs the first (20_memory.md R77). -/
  inbox : List HostAction
  /-- MODEL'S OWN: the value the last host read returned. -/
  hostData : Word
  /-- MODEL'S OWN: how many draws of free values have been made (00_scope.md R14). -/
  draws : Nat
deriving DecidableEq, Repr

/-- The reset state of a block with configuration `c` after power-on reset (10_state.md R39, 70_reset_and_hazards.md
R290): the four memories hold draws 0 to 3, each drawn once, but for `WBUF[0]`, which is 0. The table spaces are
unspecified while `HVALID` = 0, whatever is stored there. -/
def State.resetWith (c : Config) : State where
  cfg := c
  fault := false
  busy := false
  bsrValid := false
  bsrSrc := .ibuf
  hvalid := false
  err := 0#4
  errinfo := 0#32
  errcmd := 0#32
  a0 := 0#32
  a1 := 0#32
  a2 := 0#32
  res := 0#32
  width := 0#16
  height := 0#16
  ilen := 0#32
  olen := 0#32
  bswByte := 0#32
  bswBit := 0#3
  bsrByte := 0#32
  bsrBit := 0#3
  bsrBase := 0#32
  bsrLen := 0#32
  hnbits := 0#32
  blk := tableOf 64 fun _ => 0#8
  hweight := tableOf 511 fun _ => 0#32
  hlink := tableOf 511 fun _ => 0#32
  hlen := tableOf 256 fun _ => 0#8
  ibuf := { cells := [], free := FreeRange.nonempty ⟨0, c.ibufCap, 0, false⟩ }
  obuf := { cells := [], free := FreeRange.nonempty ⟨0, c.obufCap, 1, false⟩ }
  wbuf := { cells := [], free := FreeRange.nonempty ⟨1, c.wbufCap, 2, false⟩ }
  frame := { cells := [], free := FreeRange.nonempty ⟨0, c.frameCap, 3, false⟩ }
  inbox := []
  hostData := 0#32
  draws := 4

/-- The machine right after power-on reset, with the default configuration (10_state.md R39, 00_scope.md R7). -/
def State.reset : State := State.resetWith Config.default

end Sys2Proof.Machine
end

