-- ==== Sys2Proof/Machine/Flags.lean ====
section
/-! DEFINITION. `STATUS` and the other derived registers, and the two rules by which a command clears a status bit. The
block has no arithmetic condition codes (10_state.md R25). -/

namespace Sys2Proof.Machine

/-- `ceil8(n)`, the number of bytes that hold `n` bits (00_scope.md R9). -/
def ceil8 (n : Nat) : Nat := (n + 7) / 8

/-- `BSW_BITS = 8 * BSW_BYTE + BSW_BIT` (10_state.md R29). -/
def State.bswBits (s : State) : Nat := 8 * s.bswByte.toNat + s.bswBit.toNat

/-- `BSW_BYTES = BSW_BYTE + (1 if BSW_BIT > 0 else 0)` (10_state.md R29). -/
def State.bswBytes (s : State) : Nat := s.bswByte.toNat + if 0 < s.bswBit.toNat then 1 else 0

/-- `BSR_BITS = 8 * BSR_BYTE + BSR_BIT` (10_state.md R30). -/
def State.bsrBits (s : State) : Nat := 8 * s.bsrByte.toNat + s.bsrBit.toNat

/-- `BSR_BYTES = ceil8(BSR_BITS)` (10_state.md R30). -/
def State.bsrBytes (s : State) : Nat := ceil8 s.bsrBits

/-- `STATUS`: bit 0 `FAULT`, 1 `BUSY`, 2 `BSR_VALID`, 3 `BSR_SRC`, 4 `HVALID`, the others 0 (10_state.md R25). -/
def State.status (s : State) : Word :=
  0#27 ++ (BitVec.ofBool s.hvalid ++ (BitVec.ofBool (s.bsrSrc == .wbuf) ++ (BitVec.ofBool s.bsrValid
    ++ (BitVec.ofBool s.busy ++ BitVec.ofBool s.fault))))

/-- A writer command detaches a reader attached to `WBUF` (40_bitstream.md R124). -/
def State.detachWbufReader (s : State) : State :=
  { s with bsrValid := s.bsrValid && s.bsrSrc != .wbuf }

/-- A command that builds or parses a tree of its own clears `HVALID` (43_huffman.md R204). -/
def State.invalidateTables (s : State) : State := { s with hvalid := false }

end Sys2Proof.Machine
end

