-- ==== Sys2Proof/Machine/Operands.lean ====
section
/-! DEFINITION. The operands of commands: the argument registers (10_state.md R23, 30_encoding.md R93), the frame layout
they index (20_memory.md R66 to R70), and the input bytes (43_huffman.md R201). All operands are unsigned and unscaled,
and none is extended. -/

namespace Sys2Proof.Machine

/-- `A0` as the pixel column `x` (42_frame.md R181). -/
def State.pixelX (s : State) : Nat := s.a0.toNat

/-- `A1` as the pixel row `y` (42_frame.md R181). -/
def State.pixelY (s : State) : Nat := s.a1.toNat

/-- `A2` as the sample value `v` (42_frame.md R186). -/
def State.sampleValue (s : State) : Nat := s.a2.toNat

/-- `A0` as the tile column `tx` (41_block_transform.md R158). -/
def State.tileCol (s : State) : Nat := s.a0.toNat

/-- `A1` as the tile row `ty` (41_block_transform.md R158). -/
def State.tileRow (s : State) : Nat := s.a1.toNat

/-- `A0` as the byte offset of `BSR_INIT` (40_bitstream.md R123). -/
def State.byteOffset (s : State) : Nat := s.a0.toNat

/-- `W`, the frame's width in pixels (20_memory.md R66). -/
def State.frameW (s : State) : Nat := s.width.toNat

/-- `H`, the frame's height in pixels (20_memory.md R66). -/
def State.frameH (s : State) : Nat := s.height.toNat

/-- `G = (W div 2) * (H div 2)`, the number of 2 by 2 groups (20_memory.md R66). -/
def groupCount (w h : Nat) : Nat := (w / 2) * (h / 2)

/-- `FLEN = 6 * G`, the frame's length in bytes (20_memory.md R66). -/
def frameLength (w h : Nat) : Nat := 6 * groupCount w h

/-- `FLEN` of the geometry the registers hold. -/
def State.flen (s : State) : Nat := frameLength s.frameW s.frameH

/-- `g(x, y) = (y div 2) * GW + (x div 2)` (20_memory.md R67). -/
def groupIndex (w x y : Nat) : Nat := (y / 2) * (w / 2) + x / 2

/-- `s(x, y) = 2 * (y mod 2) + (x mod 2)` (20_memory.md R67). -/
def subPixel (x y : Nat) : Nat := 2 * (y % 2) + x % 2

/-- `YADDR(x, y) = 4 * g(x, y) + s(x, y)` (20_memory.md R68). -/
def yaddr (w x y : Nat) : Nat := 4 * groupIndex w x y + subPixel x y

/-- `UADDR(x, y) = 4 * G + g(x, y)` (20_memory.md R68). -/
def uaddr (w h x y : Nat) : Nat := 4 * groupCount w h + groupIndex w x y

/-- `VADDR(x, y) = 5 * G + g(x, y)` (20_memory.md R68). -/
def vaddr (w h x y : Nat) : Nat := 5 * groupCount w h + groupIndex w x y

/-- `YADDR` at the operands. -/
def State.yIndex (s : State) : Nat := yaddr s.frameW s.pixelX s.pixelY

/-- `UADDR` at the operands. -/
def State.uIndex (s : State) : Nat := uaddr s.frameW s.frameH s.pixelX s.pixelY

/-- `VADDR` at the operands. -/
def State.vIndex (s : State) : Nat := vaddr s.frameW s.frameH s.pixelX s.pixelY

/-- `TW = WIDTH div 8`, the number of tile columns (42_frame.md R182). -/
def State.tilesWide (s : State) : Nat := s.frameW / 8

/-- `TH = HEIGHT div 8`, the number of tile rows (42_frame.md R182). -/
def State.tilesHigh (s : State) : Nat := s.frameH / 8

/-- `YADDR(8*tx + i, 8*ty + j)`: the frame index of element `k = j*8 + i` of tile `(tx, ty)`
(41_block_transform.md R158, R142). -/
def tileAddr (w tx ty k : Nat) : Nat := yaddr w (8 * tx + k % 8) (8 * ty + k / 8)

/-- `D = IBUF[0..ILEN)` (43_huffman.md R201). -/
def State.input (s : State) : List Byte := s.ibuf.slice 0 s.ilen.toNat

/-- `D = FRAME[0..FLEN)`, the frame byte-dump (20_memory.md R64, 44_pipeline_system.md R241). -/
def State.dump (s : State) : List Byte := s.frame.slice 0 s.flen

/-- The memory a reader of the given source reads (40_bitstream.md R125). -/
def State.sourceMem (s : State) : Source → Mem
  | .ibuf => s.ibuf
  | .wbuf => s.wbuf

/-- The space a reader of the given source reads. -/
def readerSpace : Source → ByteSpace
  | .ibuf => .ibuf
  | .wbuf => .wbuf

/-- The bytes of the source that a reader may borrow: the valid input, or the written bytes of the writer
(40_bitstream.md R123). -/
def State.sourceTotal (s : State) : Source → Nat
  | .ibuf => s.ilen.toNat
  | .wbuf => s.bswBytes

end Sys2Proof.Machine
end

