-- ==== Sys2Proof/Machine/Ops.lean ====
section
/-! DEFINITION. The operations the commands share: raising a fault, which is the whole of exception entry
(60_exceptions.md R264), the checks every command family begins with, and tile access. There is no return from a fault
but reset (60_exceptions.md R267; `State.commandReset` below). -/

namespace Sys2Proof.Machine

/-- What executing a command answers. -/
abbrev Result := Host.Outcome State Fault Refusal

/-- The fault codes (60_exceptions.md R260). -/
inductive ErrCode where
  | illegal
  | state
  | exhausted
  | malformed
  | range
  | geom
  | capacity
  | overflow
deriving DecidableEq, Repr

/-- The value of `ERR` for a code (60_exceptions.md R260). -/
def ErrCode.value : ErrCode → BitVec 4
  | .illegal => 1#4
  | .state => 2#4
  | .exhausted => 3#4
  | .malformed => 4#4
  | .range => 5#4
  | .geom => 6#4
  | .capacity => 7#4
  | .overflow => 8#4

/-- The state after fault entry: `FAULT`, `ERR`, `ERRINFO` and `ERRCMD` are written and nothing else
(60_exceptions.md R264). -/
def State.recordFault (s : State) (cmd : Word) (c : ErrCode) (info : Nat) : State :=
  { s with fault := true, err := c.value, errinfo := BitVec.ofNat 32 info, errcmd := cmd }

/-- `raise Fault(CODE, info)`: fault entry, and the command ends (60_exceptions.md R264). -/
def raise (cmd : Word) (c : ErrCode) (info : Nat) (s : State) : Result := .next (s.recordFault cmd c info)

/-- The geometry check fails: `WIDTH` or `HEIGHT` is odd, or the frame does not fit `FRAME_CAP` (42_frame.md R180). -/
def State.badGeometry (s : State) : Bool :=
  s.frameW % 2 == 1 || s.frameH % 2 == 1 || s.cfg.frameCap < s.flen

/-- `info := H * 65536 + W` (42_frame.md R180). -/
def State.geometryInfo (s : State) : Nat := s.frameH * 65536 + s.frameW

/-- `check_geometry()`, then the rest of the command (42_frame.md R180). -/
def withGeometry (cmd : Word) (s : State) (rest : Result) : Result :=
  if s.badGeometry then raise cmd .geom s.geometryInfo s else rest

/-- `check_pixel()`, then the rest of the command (42_frame.md R181). -/
def withPixel (cmd : Word) (s : State) (rest : Result) : Result :=
  if s.frameW ≤ s.pixelX then raise cmd .range s.pixelX s
  else if s.frameH ≤ s.pixelY then raise cmd .range s.pixelY s
  else rest

/-- The sample value check of `SETY`, `SETU`, `SETV`, then the rest of the command (42_frame.md R186). -/
def withSample (cmd : Word) (s : State) (rest : Result) : Result :=
  if 255 < s.sampleValue then raise cmd .range s.sampleValue s else rest

/-- The tile checks of `BLK_LD` and `BLK_ST`, then the rest of the command (41_block_transform.md R158, R159). -/
def withTile (cmd : Word) (s : State) (rest : Result) : Result :=
  if s.tilesWide ≤ s.tileCol then raise cmd .range s.tileCol s
  else if s.tilesHigh ≤ s.tileRow then raise cmd .range s.tileRow s
  else rest

/-- `check_input()`, then the rest of the command (43_huffman.md R201). -/
def withInput (cmd : Word) (s : State) (rest : Result) : Result :=
  if s.cfg.ibufCap < s.ilen.toNat then raise cmd .range s.ilen.toNat s else rest

/-- An access of the block to one byte of a space, then the rest of the command; an index at or beyond the size is an
element that does not exist (20_memory.md R65). -/
def withElement (sp : ByteSpace) (i : Nat) (s : State) (rest : Result) : Result :=
  if i < sp.size s.cfg then rest else .fault (.outsideSpace sp i)

/-- Write `RES`, zero-extended from a byte (10_state.md R24, 42_frame.md R183). -/
def State.setRes (s : State) (v : Byte) : State := { s with res := v.setWidth 32 }

/-- Write one byte of `FRAME`. -/
def State.setFrameByte (s : State) (i : Nat) (v : Byte) : State := { s with frame := s.frame.write i v }

/-- The luma tile `(tx, ty)` of the frame, element `k = j*8 + i` from pixel `(8*tx + i, 8*ty + j)`
(41_block_transform.md R158, R142). -/
def State.gatherTile (s : State) (tx ty : Nat) : Block :=
  tableOf 64 fun k => s.frame.read (tileAddr s.frameW tx ty k)

/-- `FRAME` with the elements `ks` of a block stored into tile `(tx, ty)`, in that order. -/
def scatterElements (m : Mem) (w tx ty : Nat) (b : Block) : List Nat → Mem
  | [] => m
  | k :: rest => scatterElements (m.write (tileAddr w tx ty k) (tableGet b k)) w tx ty b rest

/-- `FRAME` with a block stored into the luma tile `(tx, ty)` (41_block_transform.md R159). -/
def State.scatterTile (s : State) (tx ty : Nat) (b : Block) : State :=
  { s with frame := scatterElements s.frame s.frameW tx ty b (List.range 64) }

/-- Gather one tile, transform it, scatter it; `BLK` keeps the result (42_frame.md R190). -/
def State.transformTile (f : Block → Block) (s : State) (t : Nat × Nat) : State :=
  let b := f (s.gatherTile t.1 t.2)
  State.scatterTile { s with blk := b } t.1 t.2 b

/-- The tiles `(tx, ty)`, rows of tiles top to bottom and tiles left to right within a row (42_frame.md R190, R182). -/
def tileOrder (tw th : Nat) : List (Nat × Nat) :=
  (List.range th).flatMap fun ty => (List.range tw).map fun tx => (tx, ty)

/-- The loop of `FRM_FWD` and `FRM_INV` over every tile (42_frame.md R190, R191). -/
def State.transformFrame (f : Block → Block) (s : State) : State :=
  (tileOrder s.tilesWide s.tilesHigh).foldl (State.transformTile f) s

/-- The state after the `RESET` command: every register, `BLK`, `WBUF[0]` and the status bits at their reset values; the
four memories keep their contents otherwise (44_pipeline_system.md R246, 10_state.md R39). The configuration, the
host's pending actions, what it read last and the number of draws are no state of the block and stay. -/
def State.commandReset (s : State) : State :=
  { State.resetWith s.cfg with
    ibuf := s.ibuf
    obuf := s.obuf
    frame := s.frame
    wbuf := s.wbuf.write 0 0#8
    inbox := s.inbox
    hostData := s.hostData
    draws := s.draws }

/-- The state after power-on reset: as `RESET`, but the four memories hold fresh draws (10_state.md R39,
70_reset_and_hazards.md R290, R292). -/
def State.powerOnReset (s : State) : State :=
  { State.resetWith s.cfg with
    ibuf := Mem.havoc ⟨[], []⟩ 0 s.cfg.ibufCap s.draws false
    obuf := Mem.havoc ⟨[], []⟩ 0 s.cfg.obufCap (s.draws + 1) false
    wbuf := Mem.havoc ⟨[], []⟩ 1 s.cfg.wbufCap (s.draws + 2) false
    frame := Mem.havoc ⟨[], []⟩ 0 s.cfg.frameCap (s.draws + 3) false
    inbox := s.inbox
    hostData := s.hostData
    draws := s.draws + 4 }

end Sys2Proof.Machine
end

