-- ==== Sys2Proof/Machine/BitStream.lean ====
section
/-! DEFINITION. The commands of the bit-stream unit: BSW_INIT, BSW_WRITE, BSR_INIT, BSR_READ (40_bitstream.md). -/

namespace Sys2Proof.Machine

/-- The writer's state after a fresh start: one zero byte and the pointer at its first bit (40_bitstream.md R121). -/
def State.freshWriter (s : State) : State :=
  { s with wbuf := s.wbuf.write 0 0#8, bswByte := 0#32, bswBit := 0#3 }

/-- `BSW_INIT` (40_bitstream.md R121). -/
def execBswInit (s : State) : Result := .next s.freshWriter.detachWbufReader

/-- `WBUF` with the bit at the writer's pointer stored (40_bitstream.md R122). -/
def State.storedBit (s : State) (b : Bool) : Mem :=
  s.wbuf.write s.bswByte.toNat (storeStreamBit (s.wbuf.read s.bswByte.toNat) s.bswBit.toNat b)

/-- The writer's state after one bit: the bit stored, the pointer advanced, and a zero byte grown under it when a byte is
complete (40_bitstream.md R122). -/
def State.appendBit (s : State) (b : Bool) : State :=
  if s.bswBit.toNat < 7 then { s with wbuf := s.storedBit b, bswBit := s.bswBit + 1#3 }
  else { s with wbuf := (s.storedBit b).write (s.bswByte + 1#32).toNat 0#8, bswBit := 0#3, bswByte := s.bswByte + 1#32 }

/-- The growth that the next bit needs would pass the capacity (40_bitstream.md R122). -/
def State.writerFull (s : State) : Bool := s.bswBit.toNat == 7 && s.cfg.wbufCap < s.bswByte.toNat + 2

/-- `BSW_WRITE b` (40_bitstream.md R122). -/
def execBswWrite (b : Bool) (s : State) : Result :=
  if s.writerFull then raise (encode (.bswWrite b)) .capacity s.bswBits s
  else withElement .wbuf s.bswByte.toNat s (.next (s.appendBit b).detachWbufReader)

/-- The reader attached to `src` at byte offset `off` of a buffer of `total` bytes (40_bitstream.md R123). -/
def State.attachReader (s : State) (src : Source) (off total : Nat) : State :=
  { s with
    bsrBase := BitVec.ofNat 32 off
    bsrLen := BitVec.ofNat 32 (total - off)
    bsrByte := 0#32
    bsrBit := 0#3
    bsrSrc := src
    bsrValid := true }

/-- `BSR_INIT src` (40_bitstream.md R123). -/
def execBsrInit (src : Source) (s : State) : Result :=
  if src = .ibuf ∧ s.cfg.ibufCap < s.ilen.toNat then raise (encode (.bsrInit src)) .range s.ilen.toNat s
  else if s.sourceTotal src < s.byteOffset then raise (encode (.bsrInit src)) .range s.byteOffset s
  else .next (s.attachReader src s.byteOffset (s.sourceTotal src))

/-- The index of the byte under the reader's pointer (40_bitstream.md R125). -/
def State.readerIndex (s : State) : Nat := s.bsrBase.toNat + s.bsrByte.toNat

/-- The bit under the reader's pointer (40_bitstream.md R125). -/
def State.readerBit (s : State) : Bool :=
  streamBit ((s.sourceMem s.bsrSrc).read s.readerIndex) s.bsrBit.toNat

/-- The reader's pointer one bit further (40_bitstream.md R125). -/
def State.advanceReader (s : State) : State :=
  if s.bsrBit.toNat < 7 then { s with bsrBit := s.bsrBit + 1#3 }
  else { s with bsrBit := 0#3, bsrByte := s.bsrByte + 1#32 }

/-- `BSR_READ` (40_bitstream.md R125). -/
def execBsrRead (s : State) : Result :=
  if !s.bsrValid then raise (encode .bsrRead) .state 0 s
  else if s.bsrLen.toNat ≤ s.bsrByte.toNat then raise (encode .bsrRead) .exhausted s.bsrBits s
  else withElement (readerSpace s.bsrSrc) s.readerIndex s
    (.next { s.advanceReader with res := (BitVec.ofBool s.readerBit).setWidth 32 })

end Sys2Proof.Machine
end

