-- ==== Sys2Proof/Machine/Float64.lean ====
section
/-! DEFINITION. The binary64 arithmetic of `NUM = REF64` (00_scope.md R13): `i2f`, `fadd`, `fmul`, `fdiv`, each correctly
rounded, nearest with ties to even, and the rounding `rnd` to an integer (41_block_transform.md R153).

A number is a sign, an integer mantissa and an exponent of two. The exponent is unbounded: no rule meets an infinity, a
NaN or a subnormal number (00_scope.md R13, 41_block_transform.md R152). The mantissa is not normalised: one value has
several triples, and nothing below distinguishes them. -/

namespace Sys2Proof.Machine

/-- The number `(−1)^neg * mant * 2^exp`. -/
structure F64 where
  neg : Bool
  mant : Nat
  exp : Int
deriving DecidableEq, Repr

namespace F64

/-- `+0.0`. -/
def zero : F64 := ⟨false, 0, 0⟩

/-- The 53-bit number nearest to `±n * 2^e`, ties to even (00_scope.md R13). -/
def round (neg : Bool) (n : Nat) (e : Int) : F64 :=
  if n < 2 ^ 53 then ⟨neg, n, e⟩
  else
    let d := n.log2 - 52
    let q := n / 2 ^ d
    let r := n % 2 ^ d
    if 2 ^ (d - 1) < r ∨ (r = 2 ^ (d - 1) ∧ q % 2 = 1) then ⟨neg, q + 1, e + d⟩ else ⟨neg, q, e + d⟩

/-- `i2f(n)`, exact for `|n| < 2^53` (00_scope.md R13). -/
def ofInt (n : Int) : F64 := ⟨decide (n < 0), n.natAbs, 0⟩

/-- `fmul(a, b)` (00_scope.md R13). -/
def mul (a b : F64) : F64 := round (a.neg != b.neg) (a.mant * b.mant) (a.exp + b.exp)

/-- The signed integer `m` with `a = m * 2^e`, for `e ≤ a.exp`. -/
def scaled (a : F64) (e : Int) : Int :=
  let n : Int := (a.mant * 2 ^ (a.exp - e).toNat : Nat)
  if a.neg then -n else n

/-- `fadd(a, b)` (00_scope.md R13). A zero sum is `−0.0` only when both operands are negative. -/
def add (a b : F64) : F64 :=
  let e := min a.exp b.exp
  let m := scaled a e + scaled b e
  if m = 0 then ⟨a.neg && b.neg, 0, 0⟩ else round (decide (m < 0)) m.natAbs e

/-- `fdiv(a, b)` for a nonzero `b` (00_scope.md R13). The quotient of the mantissas is taken to 110 further binary places,
and a last bit that says whether a remainder is left, so that `round` sees on which side of a tie the exact quotient
lies. -/
def div (a b : F64) : F64 :=
  let n := a.mant * 2 ^ 110
  round (a.neg != b.neg) (2 * (n / b.mant) + if n % b.mant = 0 then 0 else 1) (a.exp - b.exp - 111)

/-- Exact negation (41_block_transform.md R149). -/
def negate (a : F64) : F64 := ⟨!a.neg, a.mant, a.exp⟩

/-- The integer nearest to `n / d`, an exact half rounded up: the rounding of a magnitude (41_block_transform.md R153). -/
def roundMagnitude (n d : Nat) : Nat := if 2 * (n % d) < d then n / d else n / d + 1

/-- `rnd(x)`: to the nearest integer, an exact half away from zero (41_block_transform.md R153). -/
def rnd (x : F64) : Int :=
  let m := match x.exp with
    | .ofNat k => x.mant * 2 ^ k
    | .negSucc k => roundMagnitude x.mant (2 ^ (k + 1))
  if x.neg then -(m : Int) else m

/-- `CS[m]`, the binary64 number nearest to `cos(m * π / 16)`, `m` = 0..7 (41_block_transform.md R148). -/
def cs : Nat → F64
  | 0 => ⟨false, 0x10000000000000, -52⟩
  | 1 => ⟨false, 0x1f6297cff75cb0, -53⟩
  | 2 => ⟨false, 0x1d906bcf328d46, -53⟩
  | 3 => ⟨false, 0x1a9b66290ea1a3, -53⟩
  | 4 => ⟨false, 0x16a09e667f3bcd, -53⟩
  | 5 => ⟨false, 0x11c73b39ae68c8, -53⟩
  | 6 => ⟨false, 0x187de2a6aea963, -54⟩
  | 7 => ⟨false, 0x18f8b83c69a60b, -55⟩
  | _ => zero

/-- `COS(k, u)`, read from `CS` by reducing the angle (41_block_transform.md R149). `m = 8` and `m = 24` do not occur for
`k`, `u` in 0..7. -/
def cosine (k u : Nat) : F64 :=
  let m := (2 * k + 1) * u % 32
  if m ≤ 7 then cs m
  else if m ≤ 16 then negate (cs (16 - m))
  else if m ≤ 23 then negate (cs (m - 16))
  else cs (32 - m)

/-- `C(k)`: `C0` for `k = 0`, else `CK = 0.5` (41_block_transform.md R148). -/
def scale (k : Nat) : F64 := if k = 0 then ⟨false, 0x16a09e667f3bcd, -54⟩ else ⟨false, 0x10000000000000, -53⟩

/-- A sum of 64 terms from `+0.0` in the order outer index, inner index (41_block_transform.md R150, R151). -/
def sum64 (term : Nat → Nat → F64) : F64 :=
  (List.range 8).foldl (fun s i => (List.range 8).foldl (fun s j => add s (term i j)) s) zero

/-- `F(u,v)` under `REF64`: the terms are `(f * COS(i,u)) * COS(j,v)`, the scale is `(C(u) * C(v)) * s`
(41_block_transform.md R150). -/
def forward (f : Nat → Nat → Int) (u v : Nat) : F64 :=
  mul (mul (scale u) (scale v)) (sum64 fun i j => mul (mul (ofInt (f i j)) (cosine i u)) (cosine j v))

/-- `g(x,y)` under `REF64`: the terms are `(((C(u) * C(v)) * Fd) * COS(x,u)) * COS(y,v)` (41_block_transform.md R151). -/
def inverse (fd : Nat → Nat → Int) (x y : Nat) : F64 :=
  sum64 fun u v => mul (mul (mul (mul (scale u) (scale v)) (ofInt (fd u v))) (cosine x u)) (cosine y v)

end F64

end Sys2Proof.Machine
end

