-- ==== Sys2Proof/Machine/RealCosine.lean ====
section
/-! DEFINITION. The exact arithmetic of `NUM = REAL` (00_scope.md R13, 41_block_transform.md R147), without real numbers:
every coefficient and sample is an integer combination of products of cosines of multiples of `π/16`, over a power of
two, and lies in the tower of quadratic extensions by `2cos(π/4) = √2`, `2cos(π/8) = √(2 + √2)` and
`2cos(π/16) = √(2 + √(2 + √2))`. Sums, products and SIGNS are computed there with integers, so that rounding an exact
value is decided exactly. -/

namespace Sys2Proof.Machine

/-- The sign of `p + q*√d` from the signs of `p`, of `q` and of `p² − q²*d` (`√d > 0`). -/
def signOfSum (p q diff : Int) : Int :=
  if q = 0 then p else if p = 0 then q else if p = q then p else p * diff

/-- `a + b * 2cos(π/4)`, where `(2cos(π/4))² = 2`. -/
structure Cos4 where
  a : Int
  b : Int
deriving DecidableEq, Repr

namespace Cos4
def ofInt (n : Int) : Cos4 := ⟨n, 0⟩
def add (x y : Cos4) : Cos4 := ⟨x.a + y.a, x.b + y.b⟩
def negate (x : Cos4) : Cos4 := ⟨-x.a, -x.b⟩
def mul (x y : Cos4) : Cos4 := ⟨x.a * y.a + 2 * (x.b * y.b), x.a * y.b + x.b * y.a⟩
/-- `−1`, `0` or `1`. -/
def sign (x : Cos4) : Int := signOfSum x.a.sign x.b.sign (x.a * x.a - 2 * (x.b * x.b)).sign
/-- `(2cos(π/8))² = 2 + 2cos(π/4)`. -/
def square8 : Cos4 := ⟨2, 1⟩
end Cos4

/-- `a + b * 2cos(π/8)`. -/
structure Cos8 where
  a : Cos4
  b : Cos4
deriving DecidableEq, Repr

namespace Cos8
def ofInt (n : Int) : Cos8 := ⟨.ofInt n, .ofInt 0⟩
def add (x y : Cos8) : Cos8 := ⟨x.a.add y.a, x.b.add y.b⟩
def negate (x : Cos8) : Cos8 := ⟨x.a.negate, x.b.negate⟩
def mul (x y : Cos8) : Cos8 :=
  ⟨(x.a.mul y.a).add (Cos4.square8.mul (x.b.mul y.b)), (x.a.mul y.b).add (x.b.mul y.a)⟩
/-- `−1`, `0` or `1`. -/
def sign (x : Cos8) : Int :=
  signOfSum x.a.sign x.b.sign ((x.a.mul x.a).add (Cos4.square8.mul (x.b.mul x.b)).negate).sign
/-- `(2cos(π/16))² = 2 + 2cos(π/8)`. -/
def square16 : Cos8 := ⟨.ofInt 2, .ofInt 1⟩
end Cos8

/-- `a + b * 2cos(π/16)`. -/
structure Cos16 where
  a : Cos8
  b : Cos8
deriving DecidableEq, Repr

namespace Cos16
def ofInt (n : Int) : Cos16 := ⟨.ofInt n, .ofInt 0⟩
def add (x y : Cos16) : Cos16 := ⟨x.a.add y.a, x.b.add y.b⟩
def negate (x : Cos16) : Cos16 := ⟨x.a.negate, x.b.negate⟩
def mul (x y : Cos16) : Cos16 :=
  ⟨(x.a.mul y.a).add (Cos8.square16.mul (x.b.mul y.b)), (x.a.mul y.b).add (x.b.mul y.a)⟩
/-- `−1`, `0` or `1`. -/
def sign (x : Cos16) : Int :=
  signOfSum x.a.sign x.b.sign ((x.a.mul x.a).add (Cos8.square16.mul (x.b.mul x.b)).negate).sign
/-- The absolute value. -/
def magnitude (x : Cos16) : Cos16 := if x.sign < 0 then x.negate else x

/-- `2cos(m * π / 16)`, `m` = 0..7. -/
def twoCos : Nat → Cos16
  | 0 => ofInt 2
  | 1 => ⟨.ofInt 0, .ofInt 1⟩
  | 2 => ⟨⟨.ofInt 0, .ofInt 1⟩, .ofInt 0⟩
  | 3 => ⟨.ofInt 0, ⟨.ofInt (-1), .ofInt 1⟩⟩
  | 4 => ⟨⟨⟨0, 1⟩, .ofInt 0⟩, .ofInt 0⟩
  | 5 => ⟨.ofInt 0, ⟨⟨1, 1⟩, .ofInt (-1)⟩⟩
  | 6 => ⟨⟨.ofInt 0, ⟨-1, 1⟩⟩, .ofInt 0⟩
  | 7 => ⟨.ofInt 0, ⟨⟨-1, -1⟩, ⟨0, 1⟩⟩⟩
  | _ => ofInt 0

/-- `2cos((k + 0.5) * π * u / 8)` (41_block_transform.md R144, the angle reduced as in R149). -/
def cosine (k u : Nat) : Cos16 :=
  let m := (2 * k + 1) * u % 32
  if m ≤ 7 then twoCos m
  else if m ≤ 16 then (twoCos (16 - m)).negate
  else if m ≤ 23 then (twoCos (m - 16)).negate
  else twoCos (32 - m)

/-- `4*C(k)`: `4*√(1/8) = √2` for `k = 0`, else 2 (41_block_transform.md R144). -/
def scale (k : Nat) : Cos16 := if k = 0 then twoCos 4 else ofInt 2

/-- The sum of 64 terms. -/
def sum64 (term : Nat → Nat → Cos16) : Cos16 :=
  (List.range 8).foldl (fun s i => (List.range 8).foldl (fun s j => s.add (term i j)) s) (ofInt 0)

/-- `64 * F(u,v)` (41_block_transform.md R144). -/
def forward (f : Nat → Nat → Int) (u v : Nat) : Cos16 :=
  ((scale u).mul (scale v)).mul (sum64 fun i j => ((ofInt (f i j)).mul (cosine i u)).mul (cosine j v))

/-- `64 * g(x,y)` (41_block_transform.md R145). -/
def inverse (fd : Nat → Nat → Int) (x y : Nat) : Cos16 :=
  sum64 fun u v => ((((scale u).mul (scale v)).mul (ofInt (fd u v))).mul (cosine x u)).mul (cosine y v)

/-- `2*m*d ≤ 2*x + d`, that is `m ≤ x/d + 1/2`, decided exactly. -/
def atMostHalfAbove (x : Cos16) (d m : Nat) : Bool :=
  0 ≤ ((x.add x).add (ofInt ((d : Int) - 2 * ((m * d : Nat) : Int)))).sign

/-- The largest `m` with `atMostHalfAbove x d m`, found bit by bit from a lower bound `m`. -/
def searchRound (x : Cos16) (d : Nat) : Nat → Nat → Nat
  | 0, m => m
  | k + 1, m => if atMostHalfAbove x d (m + 2 ^ k) then searchRound x d k (m + 2 ^ k) else searchRound x d k m

/-- `rnd(x / d)`: `floor(|x|/d + 1/2)` with the sign of `x`, which is the nearest integer with an exact half away from
zero (41_block_transform.md R153). Every quotient and sample of the transform has magnitude below `2^24`
(41_block_transform.md R152). -/
def rndQuotient (x : Cos16) (d : Nat) : Int :=
  let m : Int := (searchRound x.magnitude d 24 0 : Nat)
  if x.sign < 0 then -m else m
end Cos16

end Sys2Proof.Machine
end

