-- ==== Sys2Proof/Machine/Transform.lean ====
section
/-! DEFINITION. The block transform: centring, the DCT-II and DCT-III under either `NUM`, quantisation, rounding and
storing (41_block_transform.md R140 to R163). -/

namespace Sys2Proof.Machine

/-- `rebias(r) = (r + 128) mod 256` (00_scope.md R9): storing in a signed byte wraps silently, then 128 is added
(41_block_transform.md R154). -/
def rebias (r : Int) : Byte := BitVec.ofNat 8 ((r + 128) % 256).toNat

/-- `BLK[k] − 128`: a centred sample or a de-biased coded byte (41_block_transform.md R143, R155). -/
def centred (b : Block) (k : Nat) : Int := ((tableGet b k).toNat : Int) - 128

/-- `f(i, j)`, column `i` and row `j` (41_block_transform.md R143, R142). -/
def sampleAt (b : Block) (i j : Nat) : Int := centred b (j * 8 + i)

/-- `QTAB[v*8 + u]` (41_block_transform.md R146). -/
def quantAt (c : Config) (u v : Nat) : Nat := tableGet c.qtab (v * 8 + u)

/-- `Fd(u, v) = c(u, v) * QTAB[v*8 + u]` (41_block_transform.md R155). -/
def dequantised (c : Config) (b : Block) (u v : Nat) : Int := centred b (v * 8 + u) * (quantAt c u v : Nat)

/-- `r(u, v) = rnd(F(u, v) / QTAB[v*8 + u])` (41_block_transform.md R160; under `REF64` R150, under `REAL` R144). -/
def forwardRounded (c : Config) (b : Block) (u v : Nat) : Int :=
  match c.num with
  | .ref64 => F64.rnd (F64.div (F64.forward (sampleAt b) u v) (F64.ofInt (quantAt c u v : Nat)))
  | .real => Cos16.rndQuotient (Cos16.forward (sampleAt b) u v) (64 * quantAt c u v)

/-- `o(x, y) = rnd(g(x, y))` (41_block_transform.md R163; under `REF64` R151, under `REAL` R145). -/
def inverseRounded (c : Config) (b : Block) (x y : Nat) : Int :=
  match c.num with
  | .ref64 => F64.rnd (F64.inverse (dequantised c b) x y)
  | .real => Cos16.rndQuotient (Cos16.inverse (dequantised c b) x y) 64

/-- The forward path per block: `BLK[v*8 + u] = rebias(r(u, v))`, every sample read first (41_block_transform.md R160). -/
def dctForward (c : Config) (b : Block) : Block := tableOf 64 fun k => rebias (forwardRounded c b (k % 8) (k / 8))

/-- The inverse path per block: `BLK[y*8 + x] = rebias(o(x, y))` (41_block_transform.md R163). -/
def dctInverse (c : Config) (b : Block) : Block := tableOf 64 fun k => rebias (inverseRounded c b (k % 8) (k / 8))

end Sys2Proof.Machine
end

