-- ==== Sys2Proof/Machine/BlockUnit.lean ====
section
/-! DEFINITION. The commands on the block register: BLK_LD, BLK_ST, DCT_FWD, DCT_INV (41_block_transform.md). -/

namespace Sys2Proof.Machine

/-- `BLK_LD` (41_block_transform.md R158). -/
def execBlkLd (s : State) : Result :=
  withGeometry (encode .blkLd) s <| withTile (encode .blkLd) s <|
    .next { s with blk := s.gatherTile s.tileCol s.tileRow }

/-- `BLK_ST` (41_block_transform.md R159). -/
def execBlkSt (s : State) : Result :=
  withGeometry (encode .blkSt) s <| withTile (encode .blkSt) s <|
    .next (s.scatterTile s.tileCol s.tileRow s.blk)

/-- `DCT_FWD` (41_block_transform.md R160). -/
def execDctFwd (s : State) : Result := .next { s with blk := dctForward s.cfg s.blk }

/-- `DCT_INV` (41_block_transform.md R163). -/
def execDctInv (s : State) : Result := .next { s with blk := dctInverse s.cfg s.blk }

end Sys2Proof.Machine
end

