-- ==== Sys2Proof/Machine/FrameUnit.lean ====
section
/-! DEFINITION. The frame-level commands: the six pixel accessors, FRM_FWD and FRM_INV (42_frame.md). -/

namespace Sys2Proof.Machine

/-- `GETY` (42_frame.md R183). -/
def execGetY (s : State) : Result :=
  withGeometry (encode .getY) s <| withPixel (encode .getY) s <| .next (s.setRes (s.frame.read s.yIndex))

/-- `GETU` (42_frame.md R184). -/
def execGetU (s : State) : Result :=
  withGeometry (encode .getU) s <| withPixel (encode .getU) s <| .next (s.setRes (s.frame.read s.uIndex))

/-- `GETV` (42_frame.md R185). -/
def execGetV (s : State) : Result :=
  withGeometry (encode .getV) s <| withPixel (encode .getV) s <| .next (s.setRes (s.frame.read s.vIndex))

/-- The sample `v` as a byte; the check of `SETY`, `SETU`, `SETV` has passed (42_frame.md R186). -/
def State.sampleByte (s : State) : Byte := BitVec.ofNat 8 s.sampleValue

/-- `SETY` (42_frame.md R186). -/
def execSetY (s : State) : Result :=
  withGeometry (encode .setY) s <| withPixel (encode .setY) s <| withSample (encode .setY) s <|
    .next (s.setFrameByte s.yIndex s.sampleByte)

/-- `SETU` (42_frame.md R187). -/
def execSetU (s : State) : Result :=
  withGeometry (encode .setU) s <| withPixel (encode .setU) s <| withSample (encode .setU) s <|
    .next (s.setFrameByte s.uIndex s.sampleByte)

/-- `SETV` (42_frame.md R188). -/
def execSetV (s : State) : Result :=
  withGeometry (encode .setV) s <| withPixel (encode .setV) s <| withSample (encode .setV) s <|
    .next (s.setFrameByte s.vIndex s.sampleByte)

/-- `FRM_FWD` (42_frame.md R190). -/
def execFrmFwd (s : State) : Result :=
  withGeometry (encode .frmFwd) s <| .next (s.transformFrame (dctForward s.cfg))

/-- `FRM_INV` (42_frame.md R191). -/
def execFrmInv (s : State) : Result :=
  withGeometry (encode .frmInv) s <| .next (s.transformFrame (dctInverse s.cfg))

end Sys2Proof.Machine
end

