-- ==== Sys2Proof/Machine/Huffman.lean ====
section
/-! DEFINITION. The Huffman coder as functions on byte lists: frequency table, build, codes, serialisation, encoder and
decoder (43_huffman.md R200 to R222, 30_encoding.md R100 to R109). -/

namespace Sys2Proof.Machine

/-- A node of the tree (43_huffman.md R203). -/
inductive Tree where
  | leaf (b : Byte)
  | node (l r : Tree)
deriving DecidableEq, Repr

/-- One element of the working list: a node, its number (43_huffman.md R208) and its weight. -/
structure Item where
  num : Nat
  weight : Nat
  tree : Tree
deriving DecidableEq, Repr

/-- What one merge made: the weight of the new node and the numbers of its children (43_huffman.md R208). -/
structure Merge where
  weight : Nat
  left : Nat
  right : Nat
deriving DecidableEq, Repr

/-- The build in progress: the working list, and the merges made so far in order. -/
structure Build where
  work : List Item
  merges : List Merge
deriving DecidableEq, Repr

/-- `freq[b]`, the number of occurrences of `b` (43_huffman.md R202). -/
def frequency (d : List Byte) (b : Byte) : Nat := d.count b

/-- The initial working list: one leaf per byte value in increasing order (43_huffman.md R203). -/
def initialWork (d : List Byte) : List Item :=
  (List.range 256).map fun n => ⟨n, frequency d (BitVec.ofNat 8 n), .leaf (BitVec.ofNat 8 n)⟩

/-- `extract_min` on the list `x :: rest`: the element of smallest weight, the one at the lowest index among equals, and
the others in their order (43_huffman.md R205). -/
def extractMin : Item → List Item → Item × List Item
  | x, [] => (x, [])
  | x, y :: rest =>
    match extractMin y rest with
    | (m, others) => if m.weight < x.weight then (m, x :: others) else (x, y :: rest)

/-- Merge number `k`: the first node extracted becomes the left child, the second the right child, and the new node goes
to the end of the list (43_huffman.md R206, R208). -/
def mergeOnce (k : Nat) (s : Build) : Build :=
  match s.work with
  | [] => s
  | x :: xs =>
    match extractMin x xs with
    | (_, []) => s
    | (a, y :: ys) =>
      match extractMin y ys with
      | (b, rest) =>
        { work := rest ++ [⟨256 + k, a.weight + b.weight, .node a.tree b.tree⟩]
          merges := s.merges ++ [⟨a.weight + b.weight, a.num, b.num⟩] }

/-- `n` merges, numbered from `k` (43_huffman.md R207). -/
@[irreducible] def mergeFrom : Nat → Nat → Build → Build
  | 0, _, s => s
  | n + 1, k, s => mergeFrom n (k + 1) (mergeOnce k s)

/-- The finished build: 255 merges from the initial list (43_huffman.md R207). -/
def finishedBuild (d : List Byte) : Build := mergeFrom 255 0 ⟨initialWork d, []⟩

/-- The tree of a working list, which holds one node when the build is finished. -/
def rootOf : List Item → Tree
  | [] => .leaf 0#8
  | x :: _ => x.tree

/-- `build(D)`, the root `T` (43_huffman.md R207). -/
def buildTree (d : List Byte) : Tree := rootOf (finishedBuild d).work

/-- The code table of a tree: left edges 0 and right edges 1, first edge first (43_huffman.md R210). -/
def codes : Tree → List Bool → List (Byte × List Bool)
  | .leaf b, acc => [(b, acc)]
  | .node l r, acc => codes l (acc ++ [false]) ++ codes r (acc ++ [true])

/-- `code(T, b)` (43_huffman.md R210). -/
def codeOf (t : Tree) (b : Byte) : List Bool := ((codes t []).lookup b).getD []

/-- `shape(T)`: 1 for a leaf, 0 for an internal node and then its children, left first (30_encoding.md R103). -/
def shape : Tree → List Bool
  | .leaf _ => [true]
  | .node l r => false :: (shape l ++ shape r)

/-- `leaves(T)` (43_huffman.md R212, 30_encoding.md R102). -/
def leaves : Tree → List Byte
  | .leaf b => [b]
  | .node l r => leaves l ++ leaves r

/-- The data bits: the codes of the input bytes in input order (43_huffman.md R216, 30_encoding.md R105). -/
def dataBits (t : Tree) (d : List Byte) : List Bool := d.flatMap (codeOf t)

/-- `nbits(D)`, the sum of the code lengths of the input bytes (43_huffman.md R214). -/
def dataBitCount (t : Tree) (d : List Byte) : Nat := (d.map fun b => (codeOf t b).length).sum

/-- `DATA_OFF`, the length of the fixed head of a payload (00_scope.md R6). -/
def payloadHead : Nat := 324

/-- `huff_encode(D)` (43_huffman.md R216, 30_encoding.md R100). -/
def huffEncode (d : List Byte) : List Byte :=
  let t := buildTree d
  be32 (dataBitCount t d) ++ leaves t ++ pack (shape t) ++ pack (dataBits t d)

/-- The length of the payload of `n` data bits, `324 + ceil8(n)` (30_encoding.md R100). -/
def payloadLength (n : Nat) : Nat := payloadHead + ceil8 n

/-- The weight of node `m` (43_huffman.md R208). -/
def nodeWeight (d : List Byte) (b : Build) (m : Nat) : Nat :=
  if m < 256 then frequency d (BitVec.ofNat 8 m) else ((b.merges[m - 256]?).map (·.weight)).getD 0

/-- The link word of node `m`: the left child's number, and the right child's in bits [24:16]; 0 for a leaf
(43_huffman.md R208, 10_state.md R34). -/
def nodeLink (b : Build) (m : Nat) : Nat :=
  if m < 256 then 0 else ((b.merges[m - 256]?).map fun e => e.left + 65536 * e.right).getD 0

/-- The pending-subtree counter over tree-shape bits, from `need` subtrees still to be read (43_huffman.md R220). -/
def shapeCloses : Nat → List Bool → Bool
  | need, [] => need == 0
  | 0, _ :: _ => false
  | need + 1, true :: rest => shapeCloses need rest
  | need + 1, false :: rest => shapeCloses (need + 2) rest

/-- `unshape`: the subtree whose shape starts the bit list, its leaves taken in order from the leaf values, with the bits
and values left; `fuel` bounds its depth (43_huffman.md R220). -/
def unshape : Nat → List Bool → List Byte → Option (Tree × List Bool × List Byte)
  | 0, _, _ => none
  | _ + 1, [], _ => none
  | _ + 1, true :: _, [] => none
  | _ + 1, true :: bits, v :: vals => some (.leaf v, bits, vals)
  | fuel + 1, false :: bits, vals =>
    match unshape fuel bits vals with
    | none => none
    | some (l, bits1, vals1) =>
      match unshape fuel bits1 vals1 with
      | none => none
      | some (r, bits2, vals2) => some (.node l r, bits2, vals2)

/-- The 511 tree-shape bits of a payload (43_huffman.md R219). -/
def shapeBits (p : List Byte) : List Bool := (unpack ((p.drop 260).take 64)).take 511

/-- The declared data-bit count of a payload (43_huffman.md R219). -/
def declaredBits (p : List Byte) : Nat := unbe32 (p.take 4)

/-- The tree of a payload (43_huffman.md R220). -/
def payloadTree (p : List Byte) : Option Tree := (unshape 512 (shapeBits p) ((p.drop 4).take 256)).map (·.1)

/-- Checks 1, 2 and 3 of the decoder, in order: the sub-cause of the first that fails, else the tree
(43_huffman.md R219 to R222). A shape that the counter accepts always has a tree. -/
def decodeHead (p : List Byte) : Except Nat Tree :=
  if p.length < payloadHead then .error 1
  else if !shapeCloses 1 (shapeBits p) then .error 2
  else
    match payloadTree p with
    | none => .error 2
    | some t => if p.length < payloadLength (declaredBits p) then .error 3 else .ok t

/-- The child a data bit leads to: 0 left, 1 right (43_huffman.md R221). -/
def childOf : Tree → Bool → Tree
  | .leaf b, _ => .leaf b
  | .node l _, false => l
  | .node _ r, true => r

/-- The walk over the data bits from node `cur`: at a leaf its byte is emitted and the walk goes on at the root `t`; `none`
when the bits end inside a code (43_huffman.md R221). `mid` says whether a code has been started. -/
def walk (t : Tree) : Tree → Bool → List Bool → Option (List Byte)
  | _, mid, [] => if mid then none else some []
  | cur, _, bit :: rest =>
    match childOf cur bit with
    | .leaf b => (walk t t false rest).map (b :: ·)
    | .node l r => walk t (.node l r) true rest

/-- The data decode of a payload with the given tree; `none` is check 4 failing (43_huffman.md R221). -/
def decodeData (t : Tree) (p : List Byte) : Option (List Byte) :=
  walk t t false ((unpack (p.drop payloadHead)).take (declaredBits p))

/-- `huff_decode(P)`: the decoded bytes, or the sub-cause of the first check that fails (43_huffman.md R219 to R222). -/
def huffDecode (p : List Byte) : Except Nat (List Byte) :=
  match decodeHead p with
  | .error c => .error c
  | .ok t =>
    match decodeData t p with
    | none => .error 4
    | some out => .ok out

end Sys2Proof.Machine
end

