-- ==== Sys2Proof/Machine/HuffmanUnit.lean ====
section
/-! DEFINITION. The commands of the Huffman unit: HUF_BUILD, HUF_ENC, HUF_DEC (43_huffman.md). -/

namespace Sys2Proof.Machine

/-- The state with the table spaces and `HNBITS` holding the finished build of `d`, and `HVALID` = 1
(43_huffman.md R215). -/
def State.exposeTables (s : State) (d : List Byte) : State :=
  let b := finishedBuild d
  let t := rootOf b.work
  { s with
    hweight := tableOf 511 fun m => BitVec.ofNat 32 (nodeWeight d b m)
    hlink := tableOf 511 fun m => BitVec.ofNat 32 (nodeLink b m)
    hlen := tableOf 256 fun v => BitVec.ofNat 8 (codeOf t (BitVec.ofNat 8 v)).length
    hnbits := BitVec.ofNat 32 (dataBitCount t d)
    hvalid := true }

/-- `HUF_BUILD` (43_huffman.md R215). -/
def execHufBuild (s : State) : Result :=
  withInput (encode .hufBuild) s <|
    if 2 ^ 32 ≤ dataBitCount (buildTree s.input) s.input then raise (encode .hufBuild) .overflow 0 s
    else .next (s.exposeTables s.input)

/-- `OBUF[0..len) <- bytes` and `OLEN <- len`; the rest of `OBUF` is unspecified afterwards (20_memory.md R62). -/
def State.produce (s : State) (bytes : List Byte) : State :=
  { s with
    obuf := Mem.loaded bytes s.cfg.obufCap s.draws
    olen := BitVec.ofNat 32 bytes.length
    draws := s.draws + 1 }

/-- The encoder's checks on the data-bit count and the payload length, then the payload of `d` to `OBUF`
(43_huffman.md R217, 44_pipeline_system.md R241). -/
def encodeTo (cmd : Word) (d : List Byte) (s : State) : Result :=
  let n := dataBitCount (buildTree d) d
  if 2 ^ 32 ≤ n then raise cmd .overflow 0 s
  else if s.cfg.obufCap < payloadLength n then raise cmd .capacity (payloadLength n) s
  else .next (s.produce (huffEncode d))

/-- `HUF_ENC` (43_huffman.md R217). -/
def execHufEnc (s : State) : Result :=
  withInput (encode .hufEnc) s <| encodeTo (encode .hufEnc) s.input s.invalidateTables

/-- `OBUF[0..OBUF_CAP) <- unspecified` (43_huffman.md R223). -/
def State.obufUnspecified (s : State) : State :=
  { s with obuf := s.obuf.havoc 0 s.cfg.obufCap s.draws true, draws := s.draws + 1 }

/-- The end of `HUF_DEC` once its checks 1 to 3 have passed: `none` is check 4 failing (43_huffman.md R223). -/
def decodeToObuf (out : Option (List Byte)) (s : State) : Result :=
  match out with
  | none => raise (encode .hufDec) .malformed 4 s.obufUnspecified
  | some bytes =>
    if s.cfg.obufCap < bytes.length then raise (encode .hufDec) .capacity bytes.length s.obufUnspecified
    else .next (s.produce bytes)

/-- `HUF_DEC` (43_huffman.md R223). -/
def execHufDec (s : State) : Result :=
  withInput (encode .hufDec) s <|
    match decodeHead s.input with
    | .error c => raise (encode .hufDec) .malformed c s.invalidateTables
    | .ok t => decodeToObuf (decodeData t s.input) s.invalidateTables

end Sys2Proof.Machine
end

