-- ==== Sys2Proof/Machine/PipelineUnit.lean ====
section
/-! DEFINITION. The pipeline sequencer and the system command: PIPE_ENC, PIPE_DEC, RESET (44_pipeline_system.md). -/

namespace Sys2Proof.Machine

/-- The state after the transform of `PIPE_ENC`: `HVALID` cleared and the frame transformed in place
(44_pipeline_system.md R241). -/
def State.pipeTransformed (s : State) : State := s.invalidateTables.transformFrame (dctForward s.cfg)

/-- `PIPE_ENC` (44_pipeline_system.md R241). -/
def execPipeEnc (s : State) : Result :=
  withGeometry (encode .pipeEnc) s <| encodeTo (encode .pipeEnc) s.pipeTransformed.dump s.pipeTransformed

/-- `FRAME[0..FLEN) <- unspecified` (44_pipeline_system.md R244). -/
def State.frameUnspecified (s : State) : State :=
  { s with frame := s.frame.havoc 0 s.flen s.draws true, draws := s.draws + 1 }

/-- The frame loaded from its byte-dump and inverse-transformed in place (44_pipeline_system.md R244). -/
def State.loadFrame (s : State) (bytes : List Byte) : State :=
  State.transformFrame (dctInverse s.cfg) { s with frame := s.frame.writeList 0 bytes }

/-- The end of `PIPE_DEC` once checks 1 to 3 have passed: `none` is check 4 failing (44_pipeline_system.md R244). -/
def decodeToFrame (out : Option (List Byte)) (s : State) : Result :=
  match out with
  | none => raise (encode .pipeDec) .malformed 4 s.frameUnspecified
  | some bytes =>
    if bytes.length ≠ s.flen then raise (encode .pipeDec) .malformed 5 s.frameUnspecified
    else .next (s.loadFrame bytes)

/-- `PIPE_DEC` (44_pipeline_system.md R244). -/
def execPipeDec (s : State) : Result :=
  withInput (encode .pipeDec) s <| withGeometry (encode .pipeDec) s <|
    match decodeHead s.input with
    | .error c => raise (encode .pipeDec) .malformed c s.invalidateTables
    | .ok t => decodeToFrame (decodeData t s.input) s.invalidateTables

/-- `RESET` (44_pipeline_system.md R246). -/
def execReset (s : State) : Result := .next s.commandReset

end Sys2Proof.Machine
end

