-- ==== Sys2Proof/Machine/Dispatch.lean ====
section
/-! DEFINITION. One arm per command: the meaning each command of the opcode map has (30_encoding.md R92). -/

namespace Sys2Proof.Machine

def exec (i : Instr) (s : State) : Host.Outcome State Fault Refusal :=
  match i with
  | .reset => Sys2Proof.Machine.execReset s
  | .bswInit => Sys2Proof.Machine.execBswInit s
  | .bswWrite b => Sys2Proof.Machine.execBswWrite b s
  | .bsrInit src => Sys2Proof.Machine.execBsrInit src s
  | .bsrRead => Sys2Proof.Machine.execBsrRead s
  | .blkLd => Sys2Proof.Machine.execBlkLd s
  | .blkSt => Sys2Proof.Machine.execBlkSt s
  | .dctFwd => Sys2Proof.Machine.execDctFwd s
  | .dctInv => Sys2Proof.Machine.execDctInv s
  | .frmFwd => Sys2Proof.Machine.execFrmFwd s
  | .frmInv => Sys2Proof.Machine.execFrmInv s
  | .getY => Sys2Proof.Machine.execGetY s
  | .getU => Sys2Proof.Machine.execGetU s
  | .getV => Sys2Proof.Machine.execGetV s
  | .setY => Sys2Proof.Machine.execSetY s
  | .setU => Sys2Proof.Machine.execSetU s
  | .setV => Sys2Proof.Machine.execSetV s
  | .hufBuild => Sys2Proof.Machine.execHufBuild s
  | .hufEnc => Sys2Proof.Machine.execHufEnc s
  | .hufDec => Sys2Proof.Machine.execHufDec s
  | .pipeEnc => Sys2Proof.Machine.execPipeEnc s
  | .pipeDec => Sys2Proof.Machine.execPipeDec s

end Sys2Proof.Machine
end

