-- ==== Sys2Proof/Machine/HostPort.lean ====
section
/-! DEFINITION. The host's side of the block: issuing a command word (30_encoding.md R90, R94, 60_exceptions.md R262,
R266), reading and writing registers (10_state.md R21, R22), reading and writing memory spaces (20_memory.md R60, R65),
and power-on reset (70_reset_and_hazards.md R290). -/

namespace Sys2Proof.Machine

/-- Issue a command word. In the faulted state every word but the legal `RESET` word is ignored and not decoded
(60_exceptions.md R266); otherwise an illegal word raises `ERR_ILLEGAL` before anything else (60_exceptions.md R262), and
a legal one executes. -/
def issue (w : Word) (s : State) : Result :=
  if s.fault then if w = encode .reset then exec .reset s else .next s
  else
    match decode w with
    | .ok i => exec i s
    | .error _ => raise w .illegal 0 s

/-- The register table (10_state.md R22): the value a host read of register `n` returns, or `none` where it is
unspecified (`HNBITS` while `HVALID` = 0, 10_state.md R31). An unassigned number reads 0 (10_state.md R21). -/
def State.readReg (s : State) (n : Nat) : Option Word :=
  match n with
  | 0 => some s.status
  | 1 => some (s.err.setWidth 32)
  | 2 => some s.errinfo
  | 3 => some s.errcmd
  | 4 => some s.a0
  | 5 => some s.a1
  | 6 => some s.a2
  | 7 => some s.res
  | 8 => some (s.width.setWidth 32)
  | 9 => some (s.height.setWidth 32)
  | 10 => some s.ilen
  | 11 => some s.olen
  | 12 => some s.bswByte
  | 13 => some (s.bswBit.setWidth 32)
  | 14 => some (BitVec.ofNat 32 s.bswBits)
  | 15 => some (BitVec.ofNat 32 s.bswBytes)
  | 16 => some s.bsrByte
  | 17 => some (s.bsrBit.setWidth 32)
  | 18 => some (BitVec.ofNat 32 s.bsrBits)
  | 19 => some (BitVec.ofNat 32 s.bsrBytes)
  | 20 => some s.bsrBase
  | 21 => some s.bsrLen
  | 22 => if s.hvalid then some s.hnbits else none
  | 24 => some (BitVec.ofNat 32 s.cfg.ibufCap)
  | 25 => some (BitVec.ofNat 32 s.cfg.obufCap)
  | 26 => some (BitVec.ofNat 32 s.cfg.wbufCap)
  | 27 => some (BitVec.ofNat 32 s.cfg.frameCap)
  | _ => some 0#32

/-- A host write of register `n`: the read-write registers take the value, `WIDTH` and `HEIGHT` its low 16 bits; a
read-only or unassigned register ignores it (10_state.md R21, R22, R27). -/
def State.writeReg (s : State) (n : Nat) (v : Word) : State :=
  match n with
  | 4 => { s with a0 := v }
  | 5 => { s with a1 := v }
  | 6 => { s with a2 := v }
  | 8 => { s with width := v.setWidth 16 }
  | 9 => { s with height := v.setWidth 16 }
  | 10 => { s with ilen := v }
  | _ => s

/-- What a host read of a memory returns: `none`, a draw of its own, for an element whose value is unspecified and not
drawn once (20_memory.md R65). -/
def Mem.hostRead (m : Mem) (i : Nat) : Option Byte :=
  match m.freeAt i with
  | some r => if r.redrawn then none else some (m.read i)
  | none => some (m.read i)

/-- What a host read of a byte space returns, `none` where the value is unspecified: `WBUF` beyond its populated part
(20_memory.md R63), `HLEN` while `HVALID` = 0 (10_state.md R34). -/
def State.readByteSpace (s : State) (sp : ByteSpace) (i : Nat) : Option Byte :=
  match sp with
  | .ibuf => s.ibuf.hostRead i
  | .obuf => s.obuf.hostRead i
  | .wbuf => if i < s.bswByte.toNat + 1 then s.wbuf.hostRead i else none
  | .frame => s.frame.hostRead i
  | .blk => some (tableGet s.blk i)
  | .hlen => if s.hvalid then some (tableGet s.hlen i) else none

/-- A host write of a byte space; `WBUF` and `HLEN` are read-only for the host and ignore it (20_memory.md R60, R65). -/
def State.writeByteSpace (s : State) (sp : ByteSpace) (i : Nat) (v : Byte) : State :=
  match sp with
  | .ibuf => { s with ibuf := s.ibuf.write i v }
  | .obuf => { s with obuf := s.obuf.write i v }
  | .wbuf => s
  | .frame => { s with frame := s.frame.write i v }
  | .blk => { s with blk := tableSet s.blk i v }
  | .hlen => s

/-- What a host read of a word space returns, `none` while `HVALID` = 0 (10_state.md R34). -/
def State.readWordSpace (s : State) (sp : WordSpace) (i : Nat) : Option Word :=
  if s.hvalid then
    match sp with
    | .hweight => some (tableGet s.hweight i)
    | .hlink => some (tableGet s.hlink i)
  else none

/-- A host read returns its value to the host; an unspecified one is a draw of its own (20_memory.md R65). -/
def State.deliver (s : State) (v : Option Word) : State :=
  match v with
  | some x => { s with hostData := x }
  | none => { s with hostData := Config.freeWord s.draws, draws := s.draws + 1 }

/-- A host read of a byte returns it zero-extended; an unspecified one is a draw of its own (20_memory.md R65). -/
def State.deliverByte (s : State) (v : Option Byte) : State :=
  match v with
  | some x => { s with hostData := x.setWidth 32 }
  | none => { s with hostData := ((Config.freeWord s.draws).setWidth 8).setWidth 32, draws := s.draws + 1 }

/-- The actions open to the host while `BUSY` = 1: reading `STATUS` (70_reset_and_hazards.md R301), and the power-on
signal, which is the platform's. -/
def allowedWhileBusy : HostAction → Bool
  | .issue _ => false
  | .readReg n => n == 0
  | .writeReg _ _ => false
  | .readByte _ _ => false
  | .writeByte _ _ _ => false
  | .readWord _ _ => false
  | .writeWord _ _ _ => false
  | .powerOn => true

/-- One action of the host on a block that is not busy. -/
def performAction (a : HostAction) (s : State) : Result :=
  match a with
  | .issue w => issue w s
  | .readReg n => .next (s.deliver (s.readReg n))
  | .writeReg n v => .next (s.writeReg n v)
  | .readByte sp i =>
    if i < sp.size s.cfg then .next (s.deliverByte (s.readByteSpace sp i)) else .refused (.byteIndexOutside sp i)
  | .writeByte sp i v =>
    if i < sp.size s.cfg then .next (s.writeByteSpace sp i v) else .refused (.byteIndexOutside sp i)
  | .readWord sp i =>
    if i < sp.size then .next (s.deliver (s.readWordSpace sp i)) else .refused (.wordIndexOutside sp i)
  | .writeWord sp i _ => if i < sp.size then .next s else .refused (.wordIndexOutside sp i)
  | .powerOn => .next s.powerOnReset

/-- One action of the host (10_state.md R20, 70_reset_and_hazards.md R301). -/
def hostStep (a : HostAction) (s : State) : Result :=
  if s.busy && !allowedWhileBusy a then .refused .hostWhileBusy else performAction a s

end Sys2Proof.Machine
end

