-- ==== Sys2Proof/Machine/Step.lean ====
section
/-! DEFINITION. One step: the oldest pending action of the host (20_memory.md R77); with none pending the block is idle
and keeps all state (60_exceptions.md R271). -/

namespace Sys2Proof.Machine

/-- One step of the machine. -/
def step (s : State) : Host.Outcome State Fault Refusal :=
  match s.inbox with
  | [] => .next s
  | a :: rest => hostStep a { s with inbox := rest }

/-- `s` with the command word of bits `w` at the head of the host's pending actions, and the block ready to take it, so
that the next step issues it. The block fetches nothing: a command word is given to it by value (20_memory.md R80). -/
def State.withFetchWord (s : State) (nbits w : Nat) : State :=
  { s with inbox := .issue (BitVec.ofNat 32 (w % 2 ^ nbits)) :: s.inbox, busy := false }

end Sys2Proof.Machine
end

