-- ==== Sys2Proof/Safety.lean ====
section
/-! DEFINITION. The terms claims are stated in: when a command's checks pass, what a fault leaves, what "as before" means of
an element of a memory, scripts of host actions, and the invariant of the machine, which says what a safe run keeps. -/

namespace Sys2Proof

/-- The mnemonic of a command (30_encoding.md R92). -/
def Instr.mnemonic : Instr → String
  | .reset => "RESET"
  | .bswInit => "BSW_INIT"
  | .bswWrite _ => "BSW_WRITE"
  | .bsrInit _ => "BSR_INIT"
  | .bsrRead => "BSR_READ"
  | .blkLd => "BLK_LD"
  | .blkSt => "BLK_ST"
  | .dctFwd => "DCT_FWD"
  | .dctInv => "DCT_INV"
  | .frmFwd => "FRM_FWD"
  | .frmInv => "FRM_INV"
  | .getY => "GETY"
  | .getU => "GETU"
  | .getV => "GETV"
  | .setY => "SETY"
  | .setU => "SETU"
  | .setV => "SETV"
  | .hufBuild => "HUF_BUILD"
  | .hufEnc => "HUF_ENC"
  | .hufDec => "HUF_DEC"
  | .pipeEnc => "PIPE_ENC"
  | .pipeDec => "PIPE_DEC"

end Sys2Proof

namespace Sys2Proof.Machine

/-! ### The checks -/

/-- `check_geometry()` passes (42_frame.md R180). -/
def GeometryOk (s : State) : Prop :=
  s.width.toNat % 2 = 0 ∧ s.height.toNat % 2 = 0
    ∧ 6 * ((s.width.toNat / 2) * (s.height.toNat / 2)) ≤ s.cfg.frameCap

/-- `check_pixel()` passes (42_frame.md R181). -/
def PixelOk (s : State) : Prop := s.a0.toNat < s.width.toNat ∧ s.a1.toNat < s.height.toNat

/-- The tile checks of `BLK_LD` and `BLK_ST` pass (41_block_transform.md R158). -/
def TileOk (s : State) : Prop := s.a0.toNat < s.width.toNat / 8 ∧ s.a1.toNat < s.height.toNat / 8

/-- `check_input()` passes (43_huffman.md R201). -/
def InputOk (s : State) : Prop := s.ilen.toNat ≤ s.cfg.ibufCap

/-! ### Faults -/

/-- `s` after the fault of code `code` and information word `info` raised by command word `cmd`
(60_exceptions.md R260, R264). -/
def State.afterFault (s : State) (cmd : Word) (code : BitVec 4) (info : Nat) : State :=
  { s with fault := true, err := code, errinfo := BitVec.ofNat 32 info, errcmd := cmd }

/-- The command raises the fault with nothing else changed. -/
def Raises (i : Instr) (s : State) (code : BitVec 4) (info : Nat) : Prop :=
  exec i s = .next (s.afterFault (encode i) code info)

/-- The command first changes `s` to `s'`, then raises the fault. -/
def RaisesAfter (i : Instr) (s s' : State) (code : BitVec 4) (info : Nat) : Prop :=
  exec i s = .next (s'.afterFault (encode i) code info)

/-- The faults of `check_geometry()` (42_frame.md R180). -/
def RaisesGeometry (i : Instr) (s : State) : Prop :=
  ¬GeometryOk s → Raises i s 6#4 (s.height.toNat * 65536 + s.width.toNat)

/-- The faults of `check_pixel()`, after the geometry check (42_frame.md R181). -/
def RaisesPixel (i : Instr) (s : State) : Prop :=
  GeometryOk s →
    (s.width.toNat ≤ s.a0.toNat → Raises i s 5#4 s.a0.toNat)
      ∧ (s.a0.toNat < s.width.toNat → s.height.toNat ≤ s.a1.toNat → Raises i s 5#4 s.a1.toNat)

/-- The faults of the tile checks, after the geometry check (41_block_transform.md R158). -/
def RaisesTile (i : Instr) (s : State) : Prop :=
  GeometryOk s →
    (s.width.toNat / 8 ≤ s.a0.toNat → Raises i s 5#4 s.a0.toNat)
      ∧ (s.a0.toNat < s.width.toNat / 8 → s.height.toNat / 8 ≤ s.a1.toNat → Raises i s 5#4 s.a1.toNat)

/-- The fault of `check_input()` (43_huffman.md R201). -/
def RaisesInput (i : Instr) (s : State) : Prop := ¬InputOk s → Raises i s 5#4 s.ilen.toNat

/-- The codes a command can raise (60_exceptions.md R263). -/
def raisable : Instr → List (BitVec 4)
  | .reset | .bswInit | .dctFwd | .dctInv => []
  | .bswWrite _ => [7#4]
  | .bsrInit _ => [5#4]
  | .bsrRead => [2#4, 3#4]
  | .blkLd | .blkSt | .getY | .getU | .getV | .setY | .setU | .setV => [6#4, 5#4]
  | .frmFwd | .frmInv => [6#4]
  | .hufBuild => [5#4, 8#4]
  | .hufEnc => [5#4, 8#4, 7#4]
  | .hufDec => [5#4, 4#4, 7#4]
  | .pipeEnc => [6#4, 8#4, 7#4]
  | .pipeDec => [5#4, 6#4, 4#4]

/-! ### Memories -/

/-- Element `i` of two memories is the same: the same byte, and a host read returns the same. -/
def SameAt (m m' : Mem) (i : Nat) : Prop := m.read i = m'.read i ∧ m.hostRead i = m'.hostRead i

/-- Element `i` holds the specified byte `b`. -/
def HoldsAt (m : Mem) (i : Nat) (b : Byte) : Prop := m.read i = b ∧ m.hostRead i = some b

/-- The elements from index `i` on hold the specified bytes of a list. -/
def HoldsFrom (m : Mem) (i : Nat) (bytes : List Byte) : Prop :=
  ∀ k b, bytes[k]? = some b → HoldsAt m (i + k) b

/-- A host read of element `i` is a draw of its own (20_memory.md R65). -/
def UnspecifiedAt (m : Mem) (i : Nat) : Prop := m.hostRead i = none

/-! ### Reset -/

/-- Every register, the validity flags and `BLK` hold the values of 10_state.md R39. -/
def RegistersReset (t : State) : Prop :=
  (t.fault = false ∧ t.busy = false ∧ t.bsrValid = false ∧ t.bsrSrc = .ibuf ∧ t.hvalid = false)
    ∧ (t.err = 0#4 ∧ t.errinfo = 0#32 ∧ t.errcmd = 0#32)
    ∧ (t.a0 = 0#32 ∧ t.a1 = 0#32 ∧ t.a2 = 0#32 ∧ t.res = 0#32)
    ∧ (t.width = 0#16 ∧ t.height = 0#16 ∧ t.ilen = 0#32 ∧ t.olen = 0#32)
    ∧ (t.bswByte = 0#32 ∧ t.bswBit = 0#3)
    ∧ (t.bsrByte = 0#32 ∧ t.bsrBit = 0#3 ∧ t.bsrBase = 0#32 ∧ t.bsrLen = 0#32)
    ∧ t.hnbits = 0#32 ∧ ∀ k, k < 64 → tableGet t.blk k = 0#8

/-! ### Numbers -/

/-- The rational number a `F64` stands for. -/
def F64.value (x : F64) : ℚ := (if x.neg then -1 else 1) * x.mant * 2 ^ x.exp

/-- `r` is the number nearest to `x`, ties to even, as 00_scope.md R13 rounds, among the numbers of a 53-bit significand and
unbounded exponent (log entry 8): no such number nearer, and an even significand where another one is as near. -/
def F64.IsNearest (r : F64) (x : ℚ) : Prop :=
  r.mant ≤ 2 ^ 53 ∧ (∀ y : F64, y.mant < 2 ^ 53 → |r.value - x| ≤ |y.value - x|)
    ∧ ∀ y : F64, y.mant < 2 ^ 53 → y.value ≠ r.value → |y.value - x| = |r.value - x| → r.mant % 2 = 0

/-- `r = rnd(x)` for a rational `x` (41_block_transform.md R153). -/
def RoundsRational (x : ℚ) (r : ℤ) : Prop :=
  ∃ m : ℤ, (|x| - ⌊|x|⌋ < 1 / 2 ∧ m = ⌊|x|⌋ ∨ 1 / 2 ≤ |x| - ⌊|x|⌋ ∧ m = ⌊|x|⌋ + 1)
    ∧ (x < 0 ∧ r = -m ∨ 0 ≤ x ∧ r = m)

/-- `r = rnd(x)` for a real `x` (41_block_transform.md R153). -/
def RoundsReal (x : ℝ) (r : ℤ) : Prop :=
  ∃ m : ℤ, (|x| - ⌊|x|⌋ < 1 / 2 ∧ m = ⌊|x|⌋ ∨ 1 / 2 ≤ |x| - ⌊|x|⌋ ∧ m = ⌊|x|⌋ + 1)
    ∧ (x < 0 ∧ r = -m ∨ 0 ≤ x ∧ r = m)

/-- `F = F(u,v)`, the forward DCT-II of `f` in exact real arithmetic (41_block_transform.md R144). -/
def IsForwardDct (f : Nat → Nat → Int) (u v : Nat) (F : ℝ) : Prop :=
  F = (if u = 0 then √(1 / 8) else 1 / 2) * (if v = 0 then √(1 / 8) else 1 / 2)
    * ∑ i ∈ Finset.range 8, ∑ j ∈ Finset.range 8,
        (f i j : ℝ) * Real.cos ((i + 1 / 2) * Real.pi * u / 8) * Real.cos ((j + 1 / 2) * Real.pi * v / 8)

/-- `g = g(x,y)`, the inverse DCT-III of `fd` in exact real arithmetic (41_block_transform.md R145). -/
def IsInverseDct (fd : Nat → Nat → Int) (x y : Nat) (g : ℝ) : Prop :=
  g = ∑ u ∈ Finset.range 8, ∑ v ∈ Finset.range 8,
        (if u = 0 then √(1 / 8) else 1 / 2) * (if v = 0 then √(1 / 8) else 1 / 2) * (fd u v : ℝ)
          * Real.cos ((x + 1 / 2) * Real.pi * u / 8) * Real.cos ((y + 1 / 2) * Real.pi * v / 8)

/-! ### Huffman codes -/

/-- A code: a root-to-leaf path of the tree with the byte of its leaf (43_huffman.md R210). -/
def IsCode (t : Tree) (b : Byte) (path : List Bool) : Prop := (b, path) ∈ codes t []

/-- The bits are codes one after another, and `out` is the bytes they stand for (43_huffman.md R221). -/
def DecodesTo (t : Tree) (bits : List Bool) (out : List Byte) : Prop :=
  ∃ parts : List (Byte × List Bool),
    (∀ p ∈ parts, IsCode t p.1 p.2) ∧ bits = parts.flatMap (·.2) ∧ out = parts.map (·.1)

/-- The tree a payload describes: its shape is the 511 tree-shape bits and its leaves are the leaf values
(43_huffman.md R219, R220). -/
def Describes (p : List Byte) (t : Tree) : Prop :=
  shape t = (unpack ((p.drop 260).take 64)).take 511 ∧ leaves t = (p.drop 4).take 256

/-- The data bits of a payload: the declared number of bits from byte 324 on (43_huffman.md R221). -/
def payloadBits (p : List Byte) : List Bool := (unpack (p.drop 324)).take (unbe32 (p.take 4))

/-- The node that a path of bits leads to from a node, by the link words: 0 the left child in bits [8:0], 1 the right child
in bits [24:16] (10_state.md R34). -/
def followLinks (links : Nat → Word) : Nat → List Bool → Nat
  | n, [] => n
  | n, false :: rest => followLinks links ((links n).extractLsb' 0 9).toNat rest
  | n, true :: rest => followLinks links ((links n).extractLsb' 16 9).toNat rest

/-! ### Scripts (30_encoding.md R96) -/

/-- The host's actions one after another, each on a block that has finished the one before. -/
def runScript : List HostAction → State → Result
  | [], s => .next s
  | a :: rest, s =>
    match hostStep a s with
    | .next t => runScript rest t
    | .fault f => .fault f
    | .refused r => .refused r

/-- The script line that issues a command. -/
def cmdLine (i : Instr) : HostAction := .issue (encode i)

/-- `.copy SRC[0..n) -> IBUF[0]`, then `.reg ILEN = n`, the bytes being those the host has read. -/
def copyToInput (bytes : List Byte) : List HostAction :=
  (bytes.zipIdx.map fun p => HostAction.writeByte .ibuf p.2 p.1) ++ [.writeReg 10 (BitVec.ofNat 32 bytes.length)]

/-- The script of 42_frame.md R192 over a list of tiles, with the given block command. -/
def tileScript (i : Instr) (tiles : List (Nat × Nat)) : List HostAction :=
  tiles.flatMap fun t =>
    [.writeReg 4 (BitVec.ofNat 32 t.1), .writeReg 5 (BitVec.ofNat 32 t.2), cmdLine .blkLd, cmdLine i, cmdLine .blkSt]

/-! ### The invariant -/

/-- The four memories are in canonical form and hold nothing beyond their sizes (20_memory.md R60). -/
def MemoriesInv (s : State) : Prop :=
  (s.ibuf.wf = true ∧ s.ibuf.fits s.cfg.ibufCap = true) ∧ (s.obuf.wf = true ∧ s.obuf.fits s.cfg.obufCap = true)
    ∧ (s.wbuf.wf = true ∧ s.wbuf.fits s.cfg.wbufCap = true) ∧ (s.frame.wf = true ∧ s.frame.fits s.cfg.frameCap = true)

/-- The writer: its populated part fits, and every bit at or after the pointer in the byte under it is 0, a byte the host
can read (10_state.md R29). -/
def WriterInv (s : State) : Prop :=
  s.bswByte.toNat + 1 ≤ s.cfg.wbufCap
    ∧ (∀ k, s.bswBit.toNat ≤ k → k < 8 → streamBit (s.wbuf.read s.bswByte.toNat) k = false)
    ∧ ∀ i, i ≤ s.bswByte.toNat → s.wbuf.hostRead i = some (s.wbuf.read i)

/-- The reader. Attached or not, its pointer is at most the bound of every capacity, because a detached reader keeps its last
values (10_state.md R30, 00_scope.md R7). While it is attached, the pointer is within the borrowed buffer, and the borrowed
buffer within the part of its source that a reader may borrow (10_state.md R30, 40_bitstream.md R123, R124). -/
def ReaderInv (s : State) : Prop :=
  s.bsrByte.toNat ≤ Config.maxCap
    ∧ (s.bsrValid = true →
      s.bsrByte.toNat ≤ s.bsrLen.toNat ∧ (s.bsrByte = s.bsrLen → s.bsrBit = 0#3)
        ∧ s.bsrBase.toNat + s.bsrLen.toNat ≤
          match s.bsrSrc with
          | .ibuf => s.cfg.ibufCap
          | .wbuf => s.bswBytes)

/-- The error registers: 0 without a fault, and a code 1 to 8 with one (10_state.md R26, 60_exceptions.md R260). -/
def ErrorInv (s : State) : Prop :=
  (s.fault = false → s.err = 0#4 ∧ s.errinfo = 0#32 ∧ s.errcmd = 0#32)
    ∧ (s.fault = true → 1 ≤ s.err.toNat ∧ s.err.toNat ≤ 8)

/-- The invariant of the machine. -/
def Inv (s : State) : Prop :=
  s.cfg.wf = true ∧ s.busy = false ∧ MemoriesInv s ∧ WriterInv s ∧ ReaderInv s ∧ ErrorInv s
    ∧ s.olen.toNat ≤ s.cfg.obufCap

end Sys2Proof.Machine
end

