-- ==== Sys2Proof/Certificates/Slice0/Obligations.lean ====
section
/-! DEFINITION. The statements for the provers. Each docstring names the rule of spec/ it formalises; a clause that rests on
a choice of the model says so and names its log entry. -/

open Sys2Proof Sys2Proof.Machine

/-! ### Encoding -/

/-- Words written out from the opcode map, one or more of each family (30_encoding.md R91, R92). -/
def Obligations.DecodesSpecWords : Prop :=
  decode 0x01000000#32 = .ok .reset ∧ decode 0x11000001#32 = .ok (.bswWrite true)
    ∧ decode 0x12000000#32 = .ok (.bsrInit .ibuf) ∧ decode 0x12000001#32 = .ok (.bsrInit .wbuf)
    ∧ decode 0x23000000#32 = .ok .dctInv ∧ decode 0x3A000000#32 = .ok .setV
    ∧ decode 0x42000000#32 = .ok .hufDec ∧ decode 0x50000000#32 = .ok .pipeEnc
    ∧ decode 0x00000000#32 = .error (.unassignedOpcode 0x00#8)
    ∧ decode 0x11000002#32 = .error (.mustBeZeroBitSet 0x11#8)

/-- A word decodes to a command exactly when it is that command's word: no bit of a word is dropped, and no two words mean
the same command (30_encoding.md R91, R92, R94). -/
def Obligations.DecodeInvertsEncode : Prop := ∀ (w : Word) (i : Instr), decode w = .ok i ↔ encode i = w

/-- A word decodes to a command exactly when it selects that command's row of the opcode map, `w & mask = match`, with the
immediates `b = w[0]` and `src = w[0]` (30_encoding.md R92, R93). -/
def Obligations.DecodeFollowsOpcodeMap : Prop :=
  ∀ (w : Word) (i : Instr), decode w = .ok i ↔
    ∃ r ∈ opcodeMap, r.mnemonic = i.mnemonic ∧ w &&& r.mask = r.pattern
      ∧ (∀ b, i = .bswWrite b → b = w.getLsbD 0)
      ∧ ∀ src, i = .bsrInit src → src = if w.getLsbD 0 then .wbuf else .ibuf

/-- Illegal words: their opcode is not one of the 22, or a must-be-0 bit is 1; there are 24 legal ones; issuing an illegal
one to a block that is not faulted raises `ERR_ILLEGAL` with information word 0 and changes nothing else
(30_encoding.md R94, 60_exceptions.md R262). -/
def Obligations.IllegalWordsFault : Prop :=
  (∃ legal : List Word, legal.length = 24 ∧ legal.Nodup ∧ ∀ w, w ∈ legal ↔ ∃ i, decode w = .ok i)
    ∧ (∀ w, (∃ i, decode w = .ok i) ↔
        ∃ r ∈ opcodeMap, opcodeField w = opcodeField r.pattern ∧ ∀ k, k < 32 → r.mask.getLsbD k = true →
          w.getLsbD k = r.pattern.getLsbD k)
    ∧ (∀ (w : Word) (s : State), (∀ i, decode w ≠ .ok i) → s.fault = false → issue w s = .next (s.afterFault w 1#4 0))
    ∧ (∀ i, decode 0x00000000#32 ≠ .ok i) ∧ ∀ i, decode 0xFFFFFFFF#32 ≠ .ok i

/-! ### Steps -/

/-- A step runs the decoded command: when the host's oldest pending action issues a word that decodes to `i`, and the block
is neither busy nor faulted, the step is `exec i` on the state with that action taken; and `withFetchWord` sets up just that
(30_encoding.md R90; that host actions are queued in the state is the model's choice, log entry 1). -/
def Obligations.StepRunsDecodedCommand : Prop :=
  (∀ (s : State) (w : Word) (i : Instr) (rest : List HostAction), s.busy = false → s.fault = false →
      decode w = .ok i → s.inbox = .issue w :: rest → step s = exec i { s with inbox := rest })
    ∧ ∀ (s : State) (w : Nat) (i : Instr), s.fault = false → decode (BitVec.ofNat 32 w) = .ok i → w < 2 ^ 32 →
        step (s.withFetchWord 32 w) = exec i { s with busy := false }

/-- With no pending action the block is idle and keeps all state; otherwise the step takes the oldest pending action; and while
`BUSY` = 1 every host action but a read of `STATUS` is refused. That host actions are queued in the state is the model's choice
(log entry 1), from 20_memory.md R77 and 60_exceptions.md R271, which know no such queue; that a stored `BUSY` refuses actions
is its reading of 70_reset_and_hazards.md R301 (log entry 6); `powerOn` is the platform's signal (log entry 10). -/
def Obligations.StepTakesOldestHostAction : Prop :=
  (∀ s : State, s.inbox = [] → step s = .next s)
    ∧ (∀ (s : State) (a : HostAction) (rest : List HostAction), s.inbox = a :: rest →
        step s = hostStep a { s with inbox := rest })
    ∧ ∀ (s : State) (a : HostAction), s.busy = true → a ≠ .readReg 0 → a ≠ .powerOn →
        hostStep a s = .refused .hostWhileBusy

/-- The faulted state: every word but the legal `RESET` word is ignored, `RESET` executes, host accesses do what they do in
the unfaulted state (a read of `STATUS` but for its bit 0), and nothing but `RESET` and power-on changes the fault record
(60_exceptions.md R266, R267). -/
def Obligations.FaultedBlockExecutesOnlyReset : Prop :=
  ∀ s : State, s.fault = true →
    (∀ w, w ≠ 0x01000000#32 → issue w s = .next s)
      ∧ (∃ t, issue 0x01000000#32 s = .next t ∧ exec .reset s = .next t ∧ RegistersReset t)
      ∧ (∀ a, (∀ w, a ≠ .issue w) → a ≠ .powerOn → a ≠ .readReg 0 → ∀ t, hostStep a s = .next t →
          t.fault = true ∧ hostStep a { s with fault := false } = .next { t with fault := false })
      ∧ ∀ a, a ≠ .issue 0x01000000#32 → a ≠ .powerOn → ∀ t, hostStep a s = .next t →
          t.fault = true ∧ t.err = s.err ∧ t.errinfo = s.errinfo ∧ t.errcmd = s.errcmd

/-! ### The register file and the memory spaces -/

/-- What a host read of each register returns, and that it changes nothing but what the host has read
(10_state.md R22, R25, R26, R27, R29, R30, R31, R32). An unspecified `HNBITS` is a draw (log entries 3 and 15). -/
def Obligations.RegisterReads : Prop :=
  ∀ s : State, Inv s →
    (∀ n v, (n, v) ∈ [(1, s.err.toNat), (2, s.errinfo.toNat), (3, s.errcmd.toNat), (4, s.a0.toNat), (5, s.a1.toNat),
          (6, s.a2.toNat), (7, s.res.toNat), (8, s.width.toNat), (9, s.height.toNat), (10, s.ilen.toNat),
          (11, s.olen.toNat), (12, s.bswByte.toNat), (13, s.bswBit.toNat),
          (14, 8 * s.bswByte.toNat + s.bswBit.toNat), (15, (8 * s.bswByte.toNat + s.bswBit.toNat + 7) / 8),
          (16, s.bsrByte.toNat), (17, s.bsrBit.toNat), (18, 8 * s.bsrByte.toNat + s.bsrBit.toNat),
          (19, (8 * s.bsrByte.toNat + s.bsrBit.toNat + 7) / 8), (20, s.bsrBase.toNat), (21, s.bsrLen.toNat), (23, 0),
          (24, s.cfg.ibufCap), (25, s.cfg.obufCap), (26, s.cfg.wbufCap), (27, s.cfg.frameCap)] →
        ∃ w : Word, w.toNat = v ∧ hostStep (.readReg n) s = .next { s with hostData := w })
      ∧ (∀ n, 28 ≤ n → hostStep (.readReg n) s = .next { s with hostData := 0#32 })
      ∧ (s.hvalid = true → hostStep (.readReg 22) s = .next { s with hostData := s.hnbits })
      ∧ (s.hvalid = false →
          hostStep (.readReg 22) s = .next { s with hostData := Config.freeWord s.draws, draws := s.draws + 1 })
      ∧ ∃ w : Word, hostStep (.readReg 0) s = .next { s with hostData := w } ∧ w.toNat < 32
          ∧ w.getLsbD 0 = s.fault ∧ w.getLsbD 1 = false ∧ w.getLsbD 2 = s.bsrValid
          ∧ (w.getLsbD 3 = true ↔ s.bsrSrc = .wbuf) ∧ w.getLsbD 4 = s.hvalid

/-- A host write of a register: `A0`, `A1`, `A2`, `ILEN` take the value, `WIDTH` and `HEIGHT` its low 16 bits, every other
number ignores it (10_state.md R21, R22, R23, R27, R28). -/
def Obligations.RegisterWrites : Prop :=
  ∀ (s : State) (n : Nat) (v : Word), s.busy = false →
    ∃ t, hostStep (.writeReg n v) s = .next t
      ∧ t = { s with a0 := t.a0, a1 := t.a1, a2 := t.a2, width := t.width, height := t.height, ilen := t.ilen }
      ∧ t.a0 = (if n = 4 then v else s.a0) ∧ t.a1 = (if n = 5 then v else s.a1) ∧ t.a2 = (if n = 6 then v else s.a2)
      ∧ t.ilen = (if n = 10 then v else s.ilen)
      ∧ t.width.toNat = (if n = 8 then v.toNat % 65536 else s.width.toNat)
      ∧ t.height.toNat = (if n = 9 then v.toNat % 65536 else s.height.toNat)

/-- Host access to the memory spaces: a write of `IBUF`, `OBUF`, `FRAME` or `BLK` changes that one element, which then reads
as written; a write of a read-only space is ignored; a read changes nothing but what the host has read, a table word read
while `HVALID` = 0 being a draw; and an index at or beyond the size is refused (10_state.md R34, 20_memory.md R60, R63, R65).
The counter of draws is the model's (log entries 3 and 15). -/
def Obligations.MemoryHostAccess : Prop :=
  ∀ s : State, s.busy = false →
    (∀ sp i v, i < ByteSpace.size s.cfg sp → ∃ t, hostStep (.writeByte sp i v) s = .next t
        ∧ t = { s with ibuf := t.ibuf, obuf := t.obuf, frame := t.frame, blk := t.blk }
        ∧ (sp = .ibuf → HoldsAt t.ibuf i v ∧ ∀ a, a ≠ i → SameAt t.ibuf s.ibuf a)
        ∧ (sp = .obuf → HoldsAt t.obuf i v ∧ ∀ a, a ≠ i → SameAt t.obuf s.obuf a)
        ∧ (sp = .frame → HoldsAt t.frame i v ∧ ∀ a, a ≠ i → SameAt t.frame s.frame a)
        ∧ (sp = .blk → ∀ k, k < 64 → tableGet t.blk k = if k = i then v else tableGet s.blk k)
        ∧ (sp ≠ .ibuf → t.ibuf = s.ibuf) ∧ (sp ≠ .obuf → t.obuf = s.obuf) ∧ (sp ≠ .frame → t.frame = s.frame)
        ∧ (sp ≠ .blk → t.blk = s.blk))
      ∧ (∀ sp i v, i < WordSpace.size sp → hostStep (.writeWord sp i v) s = .next s)
      ∧ (∀ sp i, i < ByteSpace.size s.cfg sp →
          ∃ t, hostStep (.readByte sp i) s = .next t ∧ t = { s with hostData := t.hostData, draws := t.draws }
            ∧ ∀ b : Byte, (sp = .ibuf ∧ s.ibuf.hostRead i = some b ∨ sp = .obuf ∧ s.obuf.hostRead i = some b
                ∨ sp = .frame ∧ s.frame.hostRead i = some b ∨ sp = .blk ∧ tableGet s.blk i = b
                ∨ sp = .wbuf ∧ i ≤ s.bswByte.toNat ∧ s.wbuf.hostRead i = some b
                ∨ sp = .hlen ∧ s.hvalid = true ∧ tableGet s.hlen i = b) →
              t.hostData.toNat = b.toNat ∧ t.draws = s.draws)
      ∧ (∀ sp i, i < WordSpace.size sp → s.hvalid = true → hostStep (.readWord sp i) s = .next { s with hostData :=
          match sp with
          | .hweight => tableGet s.hweight i
          | .hlink => tableGet s.hlink i })
      ∧ (∀ sp i, i < WordSpace.size sp → s.hvalid = false → hostStep (.readWord sp i) s =
          .next { s with hostData := Config.freeWord s.draws, draws := s.draws + 1 })
      ∧ (∀ sp i v, ByteSpace.size s.cfg sp ≤ i → hostStep (.readByte sp i) s = .refused (.byteIndexOutside sp i)
          ∧ hostStep (.writeByte sp i v) s = .refused (.byteIndexOutside sp i))
      ∧ ∀ sp i v, WordSpace.size sp ≤ i → hostStep (.readWord sp i) s = .refused (.wordIndexOutside sp i)
          ∧ hostStep (.writeWord sp i v) s = .refused (.wordIndexOutside sp i)

/-! ### Reset -/

/-- After power-on reset every register, the flags, `BLK` and `WBUF[0]` hold the values of the table of R39, and the four
memories hold fresh draws, each drawn once (10_state.md R39, 70_reset_and_hazards.md R290; that the draws are numbered is the
model's choice, log entries 3 and 4). -/
def Obligations.PowerOnState : Prop :=
  (RegistersReset State.reset ∧ HoldsAt State.reset.wbuf 0 0#8 ∧ State.reset.cfg = Config.default
      ∧ State.reset.inbox = [])
    ∧ ∀ s : State, ∃ t, hostStep .powerOn s = .next t ∧ RegistersReset t ∧ HoldsAt t.wbuf 0 0#8
        ∧ t.cfg = s.cfg ∧ t.inbox = s.inbox
        ∧ (∀ a, a < s.cfg.ibufCap → HoldsAt t.ibuf a (Config.freeByte s.draws a))
        ∧ (∀ a, a < s.cfg.obufCap → HoldsAt t.obuf a (Config.freeByte (s.draws + 1) a))
        ∧ (∀ a, 0 < a → a < s.cfg.wbufCap → HoldsAt t.wbuf a (Config.freeByte (s.draws + 2) a))
        ∧ (∀ a, a < s.cfg.frameCap → HoldsAt t.frame a (Config.freeByte (s.draws + 3) a))
        ∧ t.draws = s.draws + 4

/-- The `RESET` command: every register at its reset value, `WBUF[0]` and `BLK` all 0, the Huffman tables unspecified, the
four memories otherwise unchanged (44_pipeline_system.md R246). -/
def Obligations.ResetCommand : Prop :=
  encode .reset = 0x01000000#32 ∧ ∀ s : State, ∃ t, exec .reset s = .next t ∧ RegistersReset t ∧ HoldsAt t.wbuf 0 0#8
    ∧ (∀ a, a ≠ 0 → SameAt t.wbuf s.wbuf a) ∧ t.ibuf = s.ibuf ∧ t.obuf = s.obuf ∧ t.frame = s.frame
    ∧ (∀ sp k, t.readWordSpace sp k = none) ∧ (∀ k, t.readByteSpace .hlen k = none)
    ∧ t.cfg = s.cfg ∧ t.inbox = s.inbox ∧ t.hostData = s.hostData ∧ t.draws = s.draws

/-! ### The bit-stream unit -/

/-- `BSW_INIT` (40_bitstream.md R121). -/
def Obligations.BswInitStartsFreshStream : Prop :=
  encode .bswInit = 0x10000000#32 ∧ ∀ s : State, ∃ t, exec .bswInit s = .next t
    ∧ t = { s with wbuf := t.wbuf, bswByte := 0#32, bswBit := 0#3, bsrValid := t.bsrValid }
    ∧ (t.bsrValid = true ↔ s.bsrValid = true ∧ s.bsrSrc = .ibuf)
    ∧ HoldsAt t.wbuf 0 0#8 ∧ (∀ a, a ≠ 0 → SameAt t.wbuf s.wbuf a)
    ∧ t.bswBits = 0 ∧ t.bswBytes = 0 ∧ ∀ a, 0 < a → t.readByteSpace .wbuf a = none

/-- `BSW_WRITE b` (40_bitstream.md R122): the capacity fault, and otherwise the bit stored, the pointer moved by one bit, a
zero byte grown when a byte is complete, and a reader of `WBUF` detached. -/
def Obligations.BswWriteAppendsBit : Prop :=
  ∀ (s : State) (b : Bool), encode (.bswWrite b) = (if b then 0x11000001#32 else 0x11000000#32) ∧ (Inv s →
    (s.bswBit.toNat = 7 ∧ s.cfg.wbufCap < s.bswByte.toNat + 2 → Raises (.bswWrite b) s 7#4 s.bswBits)
      ∧ (¬(s.bswBit.toNat = 7 ∧ s.cfg.wbufCap < s.bswByte.toNat + 2) → ∃ t, exec (.bswWrite b) s = .next t
        ∧ t = { s with wbuf := t.wbuf, bswByte := t.bswByte, bswBit := t.bswBit, bsrValid := t.bsrValid }
        ∧ (t.bsrValid = true ↔ s.bsrValid = true ∧ s.bsrSrc = .ibuf)
        ∧ (∀ k, k < 8 → streamBit (t.wbuf.read s.bswByte.toNat) k =
            if k = s.bswBit.toNat then b else streamBit (s.wbuf.read s.bswByte.toNat) k)
        ∧ t.wbuf.hostRead s.bswByte.toNat = some (t.wbuf.read s.bswByte.toNat)
        ∧ t.bswBits = s.bswBits + 1
        ∧ (s.bswBit.toNat < 7 → ∀ a, a ≠ s.bswByte.toNat → SameAt t.wbuf s.wbuf a)
        ∧ (s.bswBit.toNat = 7 → HoldsAt t.wbuf (s.bswByte.toNat + 1) 0#8
            ∧ ∀ a, a ≠ s.bswByte.toNat → a ≠ s.bswByte.toNat + 1 → SameAt t.wbuf s.wbuf a)))

/-- `BSR_INIT src` (40_bitstream.md R123). -/
def Obligations.BsrInitAttachesReader : Prop :=
  ∀ (s : State) (src : Source), encode (.bsrInit src) = (if src = .wbuf then 0x12000001#32 else 0x12000000#32) ∧ (Inv s →
    (src = .ibuf → s.cfg.ibufCap < s.ilen.toNat → Raises (.bsrInit src) s 5#4 s.ilen.toNat)
      ∧ (¬(src = .ibuf ∧ s.cfg.ibufCap < s.ilen.toNat) → ∀ total,
          (total = match src with
            | .ibuf => s.ilen.toNat
            | .wbuf => s.bswByte.toNat + if 0 < s.bswBit.toNat then 1 else 0) →
          (total < s.a0.toNat → Raises (.bsrInit src) s 5#4 s.a0.toNat)
            ∧ (s.a0.toNat ≤ total → ∃ t, exec (.bsrInit src) s = .next t
              ∧ t = { s with bsrBase := s.a0, bsrLen := t.bsrLen, bsrByte := 0#32, bsrBit := 0#3, bsrSrc := src,
                             bsrValid := true }
              ∧ t.bsrLen.toNat = total - s.a0.toNat)))

/-- `BSR_READ` (40_bitstream.md R125): its two faults in order, and otherwise the bit under the pointer in `RES` and the
pointer moved by one bit. -/
def Obligations.BsrReadReturnsNextBit : Prop :=
  encode .bsrRead = 0x13000000#32 ∧ ∀ s : State, Inv s →
    (s.bsrValid = false → Raises .bsrRead s 2#4 0)
      ∧ (s.bsrValid = true → s.bsrLen.toNat ≤ s.bsrByte.toNat → Raises .bsrRead s 3#4 s.bsrBits)
      ∧ (s.bsrValid = true → s.bsrByte.toNat < s.bsrLen.toNat → ∃ t, exec .bsrRead s = .next t
        ∧ t = { s with res := t.res, bsrByte := t.bsrByte, bsrBit := t.bsrBit }
        ∧ t.res.toNat = (match s.bsrSrc with
            | .ibuf => s.ibuf.read (s.bsrBase.toNat + s.bsrByte.toNat)
            | .wbuf => s.wbuf.read (s.bsrBase.toNat + s.bsrByte.toNat)).toNat / 2 ^ (7 - s.bsrBit.toNat) % 2
        ∧ t.bsrBits = s.bsrBits + 1)

/-- In a state that breaks the invariants of 10_state.md R29, R30, so that the byte a bit command would access lies outside
its space, the model stops with a fault of its own and writes nothing (the model's choice, log entry 7; no run reaches such a
state, by `StepKeepsInvariant`). -/
def Obligations.BitStreamStopsOutsideSpace : Prop :=
  (∀ (s : State) (b : Bool), s.cfg.wbufCap ≤ s.bswByte.toNat →
      ¬(s.bswBit.toNat = 7 ∧ s.cfg.wbufCap < s.bswByte.toNat + 2) →
      exec (.bswWrite b) s = .fault (.outsideSpace .wbuf s.bswByte.toNat))
    ∧ ∀ s : State, s.bsrValid = true → s.bsrByte.toNat < s.bsrLen.toNat →
        (s.bsrSrc = .ibuf → s.cfg.ibufCap ≤ s.bsrBase.toNat + s.bsrByte.toNat →
            exec .bsrRead s = .fault (.outsideSpace .ibuf (s.bsrBase.toNat + s.bsrByte.toNat)))
          ∧ (s.bsrSrc = .wbuf → s.cfg.wbufCap ≤ s.bsrBase.toNat + s.bsrByte.toNat →
            exec .bsrRead s = .fault (.outsideSpace .wbuf (s.bsrBase.toNat + s.bsrByte.toNat)))

/-- Writing a bit list to a fresh writer leaves `pack` of it as the written bytes, and `pack` is the packing of 00_scope.md
R11: stream bit `k` of byte `m` is bit `8m + k` of the list, 0 beyond its end (40_bitstream.md R120). -/
def Obligations.WriterLeavesPackedBits : Prop :=
  (∀ bits : List Bool, (pack bits).length = (bits.length + 7) / 8
      ∧ ∀ m k b, k < 8 → (pack bits)[m]? = some b → streamBit b k = bits.getD (8 * m + k) false)
    ∧ ∀ (s : State) (bits : List Bool), Inv s → s.fault = false → bits.length ≤ 8 * s.cfg.wbufCap - 1 →
        ∃ t, runScript (cmdLine .bswInit :: bits.map fun b => cmdLine (.bswWrite b)) s = .next t
          ∧ t = { s with wbuf := t.wbuf, bswByte := t.bswByte, bswBit := t.bswBit, bsrValid := t.bsrValid }
          ∧ t.bswBits = bits.length ∧ HoldsFrom t.wbuf 0 (pack bits)
          ∧ t.bswBytes = (pack bits).length

/-- The bit round trip in commands: the bits written come back in order, then the padding zeros of the last byte, then
`ERR_EXHAUSTED` (40_bitstream.md R126). -/
def Obligations.BitRoundTrip : Prop :=
  ∀ (s : State) (bits : List Bool), Inv s → s.fault = false → bits.length ≤ 8 * s.cfg.wbufCap - 1 →
    ∃ w r, runScript (cmdLine .bswInit :: bits.map fun b => cmdLine (.bswWrite b)) s = .next w
      ∧ w.fault = false ∧ w.bswBits = bits.length
      ∧ runScript [.writeReg 4 0#32, cmdLine (.bsrInit .wbuf)] w = .next r ∧ r.fault = false
      ∧ (∀ n b, bits[n]? = some b →
          ∃ t, runScript (List.replicate (n + 1) (cmdLine .bsrRead)) r = .next t ∧ t.fault = false
            ∧ t.res = if b then 1#32 else 0#32)
      ∧ (∀ n, bits.length ≤ n → n < 8 * w.bswBytes →
          ∃ t, runScript (List.replicate (n + 1) (cmdLine .bsrRead)) r = .next t ∧ t.fault = false ∧ t.res = 0#32)
      ∧ ∃ t, runScript (List.replicate (8 * w.bswBytes + 1) (cmdLine .bsrRead)) r = .next t ∧ t.fault = true
          ∧ t.err = 3#4

/-- The Huffman and pipeline commands leave the host-visible writer and reader unchanged (40_bitstream.md R127). -/
def Obligations.HuffmanCommandsUsePrivateStreams : Prop :=
  ∀ (i : Instr) (s t : State), i ∈ [.hufBuild, .hufEnc, .hufDec, .pipeEnc, .pipeDec] → exec i s = .next t →
    t.wbuf = s.wbuf ∧ t.bswByte = s.bswByte ∧ t.bswBit = s.bswBit ∧ t.bsrByte = s.bsrByte ∧ t.bsrBit = s.bsrBit
      ∧ t.bsrBase = s.bsrBase ∧ t.bsrLen = s.bsrLen ∧ t.bsrValid = s.bsrValid ∧ t.bsrSrc = s.bsrSrc

/-! ### The transform unit -/

/-- `BLK_LD` (41_block_transform.md R158). -/
def Obligations.BlkLdGathersTile : Prop :=
  encode .blkLd = 0x20000000#32 ∧ ∀ s : State, RaisesGeometry .blkLd s ∧ RaisesTile .blkLd s
    ∧ (GeometryOk s → TileOk s → ∃ t, exec .blkLd s = .next t ∧ t = { s with blk := t.blk }
      ∧ ∀ i j, i < 8 → j < 8 → tableGet t.blk (j * 8 + i) =
          s.frame.read (yaddr s.width.toNat (8 * s.a0.toNat + i) (8 * s.a1.toNat + j)))

/-- `BLK_ST`, and that `BLK_LD` followed by `BLK_ST` changes no byte of `FRAME` (41_block_transform.md R159). -/
def Obligations.BlkStScattersTile : Prop :=
  encode .blkSt = 0x21000000#32 ∧ ∀ s : State, RaisesGeometry .blkSt s ∧ RaisesTile .blkSt s
    ∧ (GeometryOk s → TileOk s → ∃ t, exec .blkSt s = .next t ∧ t = { s with frame := t.frame }
      ∧ (∀ i j, i < 8 → j < 8 →
          HoldsAt t.frame (yaddr s.width.toNat (8 * s.a0.toNat + i) (8 * s.a1.toNat + j)) (tableGet s.blk (j * 8 + i)))
      ∧ (∀ a, (∀ i j, i < 8 → j < 8 → a ≠ yaddr s.width.toNat (8 * s.a0.toNat + i) (8 * s.a1.toNat + j)) →
          SameAt t.frame s.frame a)
      ∧ ∀ u v, exec .blkLd s = .next u → exec .blkSt u = .next v → ∀ a, v.frame.read a = s.frame.read a)

/-- `DCT_FWD` under `NUM = REF64`: the 64 terms summed in binary64 in the order `i` outer, `j` inner, scaled, divided by the
table's entry, rounded and re-biased; nothing but `BLK` changes (41_block_transform.md R150, R160). The binary64 operations are
the model's, of unbounded exponent (log entry 8). -/
def Obligations.DctForwardRef64 : Prop :=
  encode .dctFwd = 0x22000000#32 ∧ ∀ s : State, ∃ t, exec .dctFwd s = .next t ∧ t = { s with blk := t.blk }
    ∧ (s.cfg.num = .ref64 → ∀ u v, u < 8 → v < 8 → tableGet t.blk (v * 8 + u) =
        rebias (F64.rnd (F64.div
          (F64.mul (F64.mul (F64.scale u) (F64.scale v))
            (((List.range 8).flatMap fun i => (List.range 8).map fun j => (i, j)).foldl
              (fun sum p => F64.add sum (F64.mul
                (F64.mul (F64.ofInt ((tableGet s.blk (p.2 * 8 + p.1)).toNat - 128)) (F64.cosine p.1 u))
                (F64.cosine p.2 v)))
              F64.zero))
          (F64.ofInt (tableGet s.cfg.qtab (v * 8 + u) : Nat)))))

/-- `DCT_INV` under `NUM = REF64`: the coded bytes de-biased and multiplied by the table, the 64 terms summed in binary64 in
the order `u` outer, `v` inner, rounded and re-biased; nothing but `BLK` changes (41_block_transform.md R151, R163). The binary64
operations are the model's, of unbounded exponent (log entry 8). -/
def Obligations.DctInverseRef64 : Prop :=
  encode .dctInv = 0x23000000#32 ∧ ∀ s : State, ∃ t, exec .dctInv s = .next t ∧ t = { s with blk := t.blk }
    ∧ (s.cfg.num = .ref64 → ∀ x y, x < 8 → y < 8 → tableGet t.blk (y * 8 + x) =
        rebias (F64.rnd
          (((List.range 8).flatMap fun u => (List.range 8).map fun v => (u, v)).foldl
            (fun sum p => F64.add sum (F64.mul
              (F64.mul (F64.mul (F64.mul (F64.scale p.1) (F64.scale p.2))
                  (F64.ofInt (((tableGet s.blk (p.2 * 8 + p.1)).toNat - 128 : Int)
                    * (tableGet s.cfg.qtab (p.2 * 8 + p.1) : Nat))))
                (F64.cosine x p.1))
              (F64.cosine y p.2)))
            F64.zero)))

/-- `DCT_FWD` under `NUM = REAL` is the forward transform in exact real arithmetic: each coded byte is the re-biased rounding
of the real quotient (41_block_transform.md R143, R144, R147, R153 to R155). -/
def Obligations.DctForwardReal : Prop :=
  ∀ s : State, s.cfg.wf = true → s.cfg.num = .real → ∃ t, exec .dctFwd s = .next t ∧ t = { s with blk := t.blk }
    ∧ ∀ u v, u < 8 → v < 8 → ∃ (F : ℝ) (r : ℤ),
        IsForwardDct (fun i j => ((tableGet s.blk (j * 8 + i)).toNat : Int) - 128) u v F
          ∧ RoundsReal (F / (tableGet s.cfg.qtab (v * 8 + u) : Nat)) r
          ∧ ((tableGet t.blk (v * 8 + u)).toNat : Int) = (r + 128) % 256

/-- `DCT_INV` under `NUM = REAL` is the inverse transform in exact real arithmetic (41_block_transform.md R145, R147, R153 to
R155). -/
def Obligations.DctInverseReal : Prop :=
  ∀ s : State, s.cfg.wf = true → s.cfg.num = .real → ∃ t, exec .dctInv s = .next t ∧ t = { s with blk := t.blk }
    ∧ ∀ x y, x < 8 → y < 8 → ∃ (g : ℝ) (r : ℤ),
        IsInverseDct (fun u v => (((tableGet s.blk (v * 8 + u)).toNat : Int) - 128)
            * (tableGet s.cfg.qtab (v * 8 + u) : Nat)) x y g
          ∧ RoundsReal g r ∧ ((tableGet t.blk (y * 8 + x)).toNat : Int) = (r + 128) % 256

/-- A `BLK` of 64 bytes 128 is a fixed point of `DCT_FWD` and of `DCT_INV`, under both values of `NUM` and every table
(41_block_transform.md R156(a)). -/
def Obligations.GreyBlockIsFixedPoint : Prop :=
  ∀ s : State, s.cfg.wf = true → (∀ k, k < 64 → tableGet s.blk k = 128#8) →
    exec .dctFwd s = .next s ∧ exec .dctInv s = .next s

/-- `rnd` of a binary64 number is the rounding law: to the nearest integer, an exact half away from zero
(41_block_transform.md R153). -/
def Obligations.RoundingLaw : Prop := ∀ x : F64, RoundsRational x.value x.rnd

/-- The arithmetic of the datapath is correctly rounded: nearest among the numbers of 53 bits and UNBOUNDED exponent, ties to
even. 00_scope.md R13 gives IEEE 754 binary64, which would overflow or underflow on some of these operands; that the exponent is
unbounded is the model's choice (log entry 8), from R13 and 41_block_transform.md R152, by which no rule reaches such operands. -/
def Obligations.Binary64IsCorrectlyRounded : Prop :=
  (∀ n : Int, (F64.ofInt n).value = n)
    ∧ (∀ a b : F64, (F64.add a b).IsNearest (a.value + b.value))
    ∧ (∀ a b : F64, (F64.mul a b).IsNearest (a.value * b.value))
    ∧ ∀ a b : F64, 0 < b.mant → b.mant ≤ 2 ^ 53 → (F64.div a b).IsNearest (a.value / b.value)

/-- The constants of the datapath: each `CS[m]` and `C0` is a 53-bit number within half a unit in the last place of the real
number it stands for, and `COS(k, u)` is the constant of its reduced angle (41_block_transform.md R148, R149). -/
def Obligations.CosineConstantsAreNearest : Prop :=
  (∀ m, m < 8 → 2 ^ 52 ≤ (F64.cs m).mant ∧ (F64.cs m).mant < 2 ^ 53
      ∧ |((F64.cs m).value : ℝ) - Real.cos (m * Real.pi / 16)| ≤ 2 ^ ((F64.cs m).exp - 1))
    ∧ (2 ^ 52 ≤ (F64.scale 0).mant ∧ (F64.scale 0).mant < 2 ^ 53
      ∧ |((F64.scale 0).value : ℝ) - √(1 / 8)| ≤ 2 ^ ((F64.scale 0).exp - 1))
    ∧ (∀ k, 0 < k → (F64.scale k).value = 1 / 2)
    ∧ ∀ k u, k < 8 → u < 8 →
        |((F64.cosine k u).value : ℝ) - Real.cos ((k + 1 / 2) * Real.pi * u / 8)| ≤ 2 ^ ((F64.cosine k u).exp - 1)

/-! ### The frame -/

/-- The accessors `GETY`, `GETU`, `GETV`: their faults in order, the sample in `RES` zero-extended, nothing else changed; and
the pixels of a 2 by 2 group share one byte of each chroma plane (42_frame.md R180, R181, R183, R184, R185). -/
def Obligations.GetReturnsSample : Prop :=
  (encode .getY = 0x34000000#32 ∧ encode .getU = 0x35000000#32 ∧ encode .getV = 0x36000000#32) ∧
  (∀ s : State, RaisesGeometry .getY s ∧ RaisesPixel .getY s
      ∧ (GeometryOk s → PixelOk s → exec .getY s = .next { s with res :=
          (s.frame.read (yaddr s.width.toNat s.a0.toNat s.a1.toNat)).setWidth 32 }))
    ∧ (∀ s : State, RaisesGeometry .getU s ∧ RaisesPixel .getU s
      ∧ (GeometryOk s → PixelOk s → exec .getU s = .next { s with res :=
          (s.frame.read (uaddr s.width.toNat s.height.toNat s.a0.toNat s.a1.toNat)).setWidth 32 }))
    ∧ (∀ s : State, RaisesGeometry .getV s ∧ RaisesPixel .getV s
      ∧ (GeometryOk s → PixelOk s → exec .getV s = .next { s with res :=
          (s.frame.read (vaddr s.width.toNat s.height.toNat s.a0.toNat s.a1.toNat)).setWidth 32 }))
    ∧ ∀ w h x y, uaddr w h (x ^^^ 1) y = uaddr w h x y ∧ uaddr w h x (y ^^^ 1) = uaddr w h x y
        ∧ vaddr w h (x ^^^ 1) y = vaddr w h x y ∧ vaddr w h x (y ^^^ 1) = vaddr w h x y

/-- The accessors `SETY`, `SETU`, `SETV`: their faults in order, exactly one byte of `FRAME` written, nothing else changed
(42_frame.md R180, R181, R186, R187, R188). -/
def Obligations.SetStoresSample : Prop :=
  (encode .setY = 0x38000000#32 ∧ encode .setU = 0x39000000#32 ∧ encode .setV = 0x3A000000#32) ∧
  ∀ (i : Instr) (s : State) (addr : Nat),
    (i, addr) ∈ [(.setY, yaddr s.width.toNat s.a0.toNat s.a1.toNat),
      (.setU, uaddr s.width.toNat s.height.toNat s.a0.toNat s.a1.toNat),
      (.setV, vaddr s.width.toNat s.height.toNat s.a0.toNat s.a1.toNat)] →
    RaisesGeometry i s ∧ RaisesPixel i s
      ∧ (GeometryOk s → PixelOk s → 255 < s.a2.toNat → Raises i s 5#4 s.a2.toNat)
      ∧ (GeometryOk s → PixelOk s → s.a2.toNat ≤ 255 → ∃ t, exec i s = .next t ∧ t = { s with frame := t.frame }
        ∧ HoldsAt t.frame addr (BitVec.ofNat 8 s.a2.toNat) ∧ ∀ a, a ≠ addr → SameAt t.frame s.frame a)

/-- The byte indexes of the samples of a frame: `YADDR` is injective on pixels, `UADDR` and `VADDR` on groups, their ranges
are the luma region and the two planes, and every index below `FLEN` is one of them (20_memory.md R66 to R69). -/
def Obligations.FrameAddressesPartition : Prop :=
  ∀ w h : Nat, w % 2 = 0 → h % 2 = 0 →
    (∀ x y, x < w → y < h →
        yaddr w x y < 4 * groupCount w h
          ∧ 4 * groupCount w h ≤ uaddr w h x y ∧ uaddr w h x y < 5 * groupCount w h
          ∧ 5 * groupCount w h ≤ vaddr w h x y ∧ vaddr w h x y < frameLength w h)
      ∧ (∀ x y x' y', x < w → y < h → x' < w → y' < h →
          (yaddr w x y = yaddr w x' y' → x = x' ∧ y = y')
            ∧ (uaddr w h x y = uaddr w h x' y' → x / 2 = x' / 2 ∧ y / 2 = y' / 2)
            ∧ (vaddr w h x y = vaddr w h x' y' → x / 2 = x' / 2 ∧ y / 2 = y' / 2))
      ∧ ∀ a, a < frameLength w h →
          ∃ x y, x < w ∧ y < h ∧ (a = yaddr w x y ∨ a = uaddr w h x y ∨ a = vaddr w h x y)

/-- The accessor laws: a sample set reads back, and no other sample of the three planes changes (42_frame.md R189). -/
def Obligations.SetThenGet : Prop :=
  ∀ s t : State, GeometryOk s → PixelOk s → s.a2.toNat ≤ 255 →
    (exec .setY s = .next t → (∃ u, exec .getY t = .next u ∧ u.res = s.a2)
        ∧ ∀ x y, x < s.width.toNat → y < s.height.toNat →
          ((x, y) ≠ (s.a0.toNat, s.a1.toNat) →
              t.frame.read (yaddr s.width.toNat x y) = s.frame.read (yaddr s.width.toNat x y))
            ∧ t.frame.read (uaddr s.width.toNat s.height.toNat x y) =
                s.frame.read (uaddr s.width.toNat s.height.toNat x y)
            ∧ t.frame.read (vaddr s.width.toNat s.height.toNat x y) =
                s.frame.read (vaddr s.width.toNat s.height.toNat x y))
      ∧ (exec .setU s = .next t → (∃ u, exec .getU t = .next u ∧ u.res = s.a2)
        ∧ ∀ x y, x < s.width.toNat → y < s.height.toNat →
          t.frame.read (yaddr s.width.toNat x y) = s.frame.read (yaddr s.width.toNat x y)
            ∧ ((x / 2, y / 2) ≠ (s.a0.toNat / 2, s.a1.toNat / 2) →
                t.frame.read (uaddr s.width.toNat s.height.toNat x y) =
                  s.frame.read (uaddr s.width.toNat s.height.toNat x y))
            ∧ t.frame.read (vaddr s.width.toNat s.height.toNat x y) =
                s.frame.read (vaddr s.width.toNat s.height.toNat x y))
      ∧ (exec .setV s = .next t → (∃ u, exec .getV t = .next u ∧ u.res = s.a2)
        ∧ ∀ x y, x < s.width.toNat → y < s.height.toNat →
          t.frame.read (yaddr s.width.toNat x y) = s.frame.read (yaddr s.width.toNat x y)
            ∧ t.frame.read (uaddr s.width.toNat s.height.toNat x y) =
                s.frame.read (uaddr s.width.toNat s.height.toNat x y)
            ∧ ((x / 2, y / 2) ≠ (s.a0.toNat / 2, s.a1.toNat / 2) →
                t.frame.read (vaddr s.width.toNat s.height.toNat x y) =
                  s.frame.read (vaddr s.width.toNat s.height.toNat x y)))

/-- `FRM_FWD` and `FRM_INV`: every whole tile becomes the block transform of what it was, `BLK` ends with the last tile, and
nothing else changes; a frame with no tile is left as it is (42_frame.md R190, R191). -/
def Obligations.FrameCommandsTransformEveryTile : Prop :=
  (encode .frmFwd = 0x30000000#32 ∧ encode .frmInv = 0x31000000#32) ∧
  ∀ (i : Instr) (f : Config → Block → Block) (s : State), (i, f) ∈ [(.frmFwd, dctForward), (.frmInv, dctInverse)] →
    RaisesGeometry i s
      ∧ (GeometryOk s → ∃ t, exec i s = .next t ∧ t = { s with frame := t.frame, blk := t.blk }
        ∧ (∀ tx ty k, tx < s.width.toNat / 8 → ty < s.height.toNat / 8 → k < 64 →
            HoldsAt t.frame (yaddr s.width.toNat (8 * tx + k % 8) (8 * ty + k / 8))
              (tableGet (f s.cfg (s.gatherTile tx ty)) k))
        ∧ (∀ a, (∀ x y, x < 8 * (s.width.toNat / 8) → y < 8 * (s.height.toNat / 8) → a ≠ yaddr s.width.toNat x y) →
            SameAt t.frame s.frame a)
        ∧ (s.width.toNat / 8 = 0 ∨ s.height.toNat / 8 = 0 → t = s)
        ∧ (0 < s.width.toNat / 8 → 0 < s.height.toNat / 8 →
            t.blk = f s.cfg (s.gatherTile (s.width.toNat / 8 - 1) (s.height.toNat / 8 - 1))))

/-- The set of `FRAME` indices `FRM_FWD` or `FRM_INV` may change is the luma of the whole tiles, `64 * TW * TH` bytes, and in a
frame of whole tiles every luma pixel is in exactly one tile (42_frame.md R193). -/
def Obligations.FrameCommandsChangeOnlyTiles : Prop :=
  ∀ (i : Instr) (s t : State), i ∈ [.frmFwd, .frmInv] → exec i s = .next t →
    (∀ a, t.frame.read a ≠ s.frame.read a →
        ∃ x y, x < 8 * (s.width.toNat / 8) ∧ y < 8 * (s.height.toNat / 8) ∧ a = yaddr s.width.toNat x y)
      ∧ (GeometryOk s → Set.ncard {a | ∃ x y, x < 8 * (s.width.toNat / 8) ∧ y < 8 * (s.height.toNat / 8)
          ∧ a = yaddr s.width.toNat x y} = 64 * (s.width.toNat / 8) * (s.height.toNat / 8))
      ∧ (s.width.toNat % 8 = 0 → s.height.toNat % 8 = 0 → ∀ x y, x < s.width.toNat → y < s.height.toNat →
          ∃! p : Nat × Nat, p ∈ tileOrder (s.width.toNat / 8) (s.height.toNat / 8)
            ∧ 8 * p.1 ≤ x ∧ x < 8 * p.1 + 8 ∧ 8 * p.2 ≤ y ∧ y < 8 * p.2 + 8)

/-- `FRM_FWD` and `FRM_INV` do what the script of block commands over every tile does, but for `A0` and `A1`, which the script
changes (42_frame.md R192). -/
def Obligations.FrameCommandEqualsBlockScript : Prop :=
  ∀ (i j : Instr) (s : State), (i, j) ∈ [(.frmFwd, .dctFwd), (.frmInv, .dctInv)] → GeometryOk s → s.fault = false →
    s.busy = false → ∃ t u, exec i s = .next t
      ∧ runScript (tileScript j (tileOrder (s.width.toNat / 8) (s.height.toNat / 8))) s = .next u
      ∧ u = { t with a0 := u.a0, a1 := u.a1 } ∧ t.a0 = s.a0 ∧ t.a1 = s.a1

/-! ### The Huffman unit -/

/-- Minimum extraction: the element of smallest weight at the lowest index, and the others in their order
(43_huffman.md R205). -/
def Obligations.ExtractMinTakesFirstMinimum : Prop :=
  ∀ (x : Item) (xs : List Item) (m : Item) (rest : List Item), extractMin x xs = (m, rest) →
    ∃ k, (x :: xs)[k]? = some m ∧ rest = (x :: xs).eraseIdx k
      ∧ (∀ (j : Nat) (y : Item), (x :: xs)[j]? = some y → m.weight ≤ y.weight)
      ∧ ∀ (j : Nat) (y : Item), j < k → (x :: xs)[j]? = some y → m.weight < y.weight

/-- The build: 255 merges leave one node, number 510, whose weight is the input's length and whose leaves are the 256 byte
values; every merge joins two earlier nodes, the lighter as the left child, and weighs their sum; the merges' weights never
decrease (43_huffman.md R206 to R209). -/
def Obligations.BuildMakesOneTreeOf256Leaves : Prop :=
  ∀ d : List Byte, ∃ root, (finishedBuild d).work = [root] ∧ root.num = 510 ∧ root.weight = d.length
    ∧ buildTree d = root.tree
    ∧ (leaves root.tree).Perm ((List.range 256).map (BitVec.ofNat 8))
    ∧ (finishedBuild d).merges.length = 255
    ∧ (∀ k e, (finishedBuild d).merges[k]? = some e → e.left < 256 + k ∧ e.right < 256 + k ∧ e.left ≠ e.right
        ∧ e.weight = nodeWeight d (finishedBuild d) e.left + nodeWeight d (finishedBuild d) e.right
        ∧ nodeWeight d (finishedBuild d) e.left ≤ nodeWeight d (finishedBuild d) e.right)
    ∧ (finishedBuild d).merges.Pairwise fun e e' => e.weight ≤ e'.weight

/-- The data bits of any input are at most eight a byte, the cost of the balanced tree (43_huffman.md R209, R214). -/
def Obligations.DataBitsAtMostEightPerByte : Prop := ∀ d : List Byte, dataBitCount (buildTree d) d ≤ 8 * d.length

/-- The code table: every byte has one code, of 1 to 255 bits, no code is a prefix of another, the lengths meet Kraft's
equality, the empty input's codes are the 8-bit numerals, and the code of the byte of a one-byte input is the bit 1
(43_huffman.md R211). -/
def Obligations.CodeTableProperties : Prop :=
  (∀ (d : List Byte) (b : Byte), IsCode (buildTree d) b (codeOf (buildTree d) b)
      ∧ 1 ≤ (codeOf (buildTree d) b).length ∧ (codeOf (buildTree d) b).length ≤ 255
      ∧ ∀ b', b ≠ b' → ¬codeOf (buildTree d) b <+: codeOf (buildTree d) b')
    ∧ (∀ d : List Byte,
        ((List.range 256).map fun v => (1 / 2 : ℚ) ^ (codeOf (buildTree d) (BitVec.ofNat 8 v)).length).sum = 1)
    ∧ (∀ b : Byte, codeOf (buildTree []) b = (List.range 8).map fun k => b.getLsbD (7 - k))
    ∧ ∀ (c : Byte) (n : Nat), codeOf (buildTree (List.replicate (n + 1) c)) c = [true]

/-- The shape check: the pending-subtree counter accepts exactly the shapes of trees, and the tree the decoder rebuilds is
the only one the payload describes (43_huffman.md R219, R220). -/
def Obligations.ShapeCheckFindsTheTree : Prop :=
  (∀ bits : List Bool, shapeCloses 1 bits = true ↔ ∃ t, shape t = bits)
    ∧ (∀ t : Tree, (shape t).length + 1 = 2 * (leaves t).length)
    ∧ ∀ p : List Byte, 324 ≤ p.length →
        (shapeCloses 1 (shapeBits p) = true ↔ ∃ t, Describes p t)
          ∧ (shapeCloses 1 (shapeBits p) = true → ∀ t, payloadTree p = some t ↔ Describes p t)

/-- The payload layout: the count, the leaf values, the 511 tree-shape bits and the data bits at their offsets, with zero
padding, `324 + ceil8(nbits)` bytes in all (30_encoding.md R100 to R105, 43_huffman.md R216). -/
def Obligations.PayloadLayout : Prop :=
  ∀ d : List Byte, dataBitCount (buildTree d) d < 2 ^ 32 →
    (huffEncode d).length = 324 + (dataBitCount (buildTree d) d + 7) / 8
      ∧ unbe32 ((huffEncode d).take 4) = dataBitCount (buildTree d) d
      ∧ Describes (huffEncode d) (buildTree d)
      ∧ (shape (buildTree d)).length = 511 ∧ (shape (buildTree d)).count true = 256 ∧ (leaves (buildTree d)).length = 256
      ∧ payloadBits (huffEncode d) = d.flatMap (codeOf (buildTree d))
      ∧ (d.flatMap (codeOf (buildTree d))).length = dataBitCount (buildTree d) d
      ∧ (unpack ((huffEncode d).drop 260))[511]? = some false
      ∧ ∀ k b, dataBitCount (buildTree d) d ≤ k → (unpack ((huffEncode d).drop 324))[k]? = some b → b = false

/-- The Huffman round trip: `huff_decode(huff_encode(B)) = B` (43_huffman.md R224). -/
def Obligations.HuffmanRoundTrip : Prop :=
  ∀ d : List Byte, dataBitCount (buildTree d) d < 2 ^ 32 → huffDecode (huffEncode d) = .ok d

/-- `HUF_BUILD`: the tables hold the build of the input, `HLINK` followed from node 510 along a byte's code leads to that
byte's leaf, `HNBITS` is the data-bit count and `HVALID` is set; nothing else changes (43_huffman.md R208, R215,
10_state.md R34). -/
def Obligations.HufBuildExposesTables : Prop :=
  encode .hufBuild = 0x40000000#32 ∧ ∀ s : State, s.cfg.wf = true → RaisesInput .hufBuild s
    ∧ (InputOk s → ∃ t, exec .hufBuild s = .next t
      ∧ t = { s with hweight := t.hweight, hlink := t.hlink, hlen := t.hlen, hnbits := t.hnbits, hvalid := true }
      ∧ t.hnbits.toNat = dataBitCount (buildTree s.input) s.input
      ∧ (∀ b : Byte, (tableGet t.hweight b.toNat).toNat = s.input.count b ∧ tableGet t.hlink b.toNat = 0#32
          ∧ (tableGet t.hlen b.toNat).toNat = (codeOf (buildTree s.input) b).length
          ∧ followLinks (tableGet t.hlink) 510 (codeOf (buildTree s.input) b) = b.toNat)
      ∧ (tableGet t.hweight 510).toNat = s.input.length
      ∧ ∀ k e, (finishedBuild s.input).merges[k]? = some e → (tableGet t.hweight (256 + k)).toNat = e.weight
          ∧ (tableGet t.hlink (256 + k)).toNat = e.left + 65536 * e.right)

/-- `HUF_ENC`: its faults in order, and otherwise the payload of the input in `OBUF`, its length in `OLEN`, `HVALID` cleared,
the rest of `OBUF` unspecified, nothing else changed (43_huffman.md R217). `ERR_OVERFLOW` does not occur: every case of a
configuration of 00_scope.md R7 is one of these three. The counter of draws is the model's (log entry 3). -/
def Obligations.HufEncWritesPayload : Prop :=
  encode .hufEnc = 0x41000000#32 ∧ ∀ s : State, s.cfg.wf = true → RaisesInput .hufEnc s
    ∧ (InputOk s → ∀ n total, n = dataBitCount (buildTree s.input) s.input → total = 324 + (n + 7) / 8 →
      (s.cfg.obufCap < total → RaisesAfter .hufEnc s { s with hvalid := false } 7#4 total)
        ∧ (total ≤ s.cfg.obufCap → ∃ t, exec .hufEnc s = .next t
          ∧ t = { s with hvalid := false, obuf := t.obuf, olen := t.olen, draws := s.draws + 1 }
          ∧ t.olen.toNat = total ∧ HoldsFrom t.obuf 0 (huffEncode s.input) ∧ (huffEncode s.input).length = total
          ∧ ∀ a, total ≤ a → a < s.cfg.obufCap → UnspecifiedAt t.obuf a))

/-- `HUF_DEC`: the decoder's checks in order, each with its fault, and otherwise the decoded bytes in `OBUF`, their number in
`OLEN`, `HVALID` cleared, the rest of `OBUF` unspecified, nothing else of the block's state changed (43_huffman.md R219 to R223).
The counter of draws, one more where `OBUF` is left unspecified, is the model's (log entry 3). -/
def Obligations.HufDecDecodesPayload : Prop :=
  encode .hufDec = 0x42000000#32 ∧ ∀ s : State, s.cfg.wf = true → RaisesInput .hufDec s
    ∧ (InputOk s →
      (s.ilen.toNat < 324 → RaisesAfter .hufDec s { s with hvalid := false } 4#4 1)
        ∧ (324 ≤ s.ilen.toNat → (∀ T, ¬Describes s.input T) →
            RaisesAfter .hufDec s { s with hvalid := false } 4#4 2)
        ∧ ∀ T n, 324 ≤ s.ilen.toNat → Describes s.input T → n = unbe32 (s.input.take 4) →
          (s.ilen.toNat < 324 + (n + 7) / 8 → RaisesAfter .hufDec s { s with hvalid := false } 4#4 3)
            ∧ (324 + (n + 7) / 8 ≤ s.ilen.toNat → (∀ out, ¬DecodesTo T (payloadBits s.input) out) →
                ∃ t, exec .hufDec s = .next t ∧ (∀ a, a < s.cfg.obufCap → UnspecifiedAt t.obuf a)
                  ∧ t = State.afterFault { s with hvalid := false, obuf := t.obuf, draws := s.draws + 1 }
                      (encode .hufDec) 4#4 4)
            ∧ (324 + (n + 7) / 8 ≤ s.ilen.toNat → ∀ out, DecodesTo T (payloadBits s.input) out →
                (s.cfg.obufCap < out.length →
                    ∃ t, exec .hufDec s = .next t ∧ (∀ a, a < s.cfg.obufCap → UnspecifiedAt t.obuf a)
                      ∧ t = State.afterFault { s with hvalid := false, obuf := t.obuf, draws := s.draws + 1 }
                          (encode .hufDec) 7#4 out.length)
                  ∧ (out.length ≤ s.cfg.obufCap → ∃ t, exec .hufDec s = .next t
                    ∧ t = { s with hvalid := false, obuf := t.obuf, olen := t.olen, draws := s.draws + 1 }
                    ∧ t.olen.toNat = out.length ∧ HoldsFrom t.obuf 0 out
                    ∧ ∀ a, out.length ≤ a → a < s.cfg.obufCap → UnspecifiedAt t.obuf a)))

/-- The Huffman round trip in commands: `HUF_ENC`, the payload copied to `IBUF` and its length to `ILEN`, `HUF_DEC`: no fault,
and `OBUF[0..OLEN)` is the original input (43_huffman.md R224). -/
def Obligations.HuffmanScriptRoundTrip : Prop :=
  ∀ s : State, Inv s → s.fault = false → InputOk s → s.ilen.toNat ≤ s.cfg.obufCap →
    324 + (dataBitCount (buildTree s.input) s.input + 7) / 8 ≤ min s.cfg.obufCap s.cfg.ibufCap →
    ∃ e t, hostStep (cmdLine .hufEnc) s = .next e ∧ e.fault = false
      ∧ runScript (copyToInput (e.obuf.slice 0 e.olen.toNat) ++ [cmdLine .hufDec]) e = .next t ∧ t.fault = false
      ∧ t.olen = s.ilen ∧ HoldsFrom t.obuf 0 s.input

/-! ### The pipeline -/

/-- `PIPE_ENC`: its faults in order, and otherwise the frame transformed as `FRM_FWD` does it, and the payload of its byte-dump
in `OBUF` (44_pipeline_system.md R241). `ERR_OVERFLOW` does not occur, as in `HufEncWritesPayload`. The counter of draws is the
model's (log entry 3). -/
def Obligations.PipeEncEncodesFrame : Prop :=
  encode .pipeEnc = 0x50000000#32 ∧ ∀ s : State, s.cfg.wf = true → RaisesGeometry .pipeEnc s
    ∧ (GeometryOk s → ∃ f, exec .frmFwd s = .next f ∧ ∀ D n total,
      D = f.frame.slice 0 (frameLength s.width.toNat s.height.toNat) → n = dataBitCount (buildTree D) D →
      total = 324 + (n + 7) / 8 →
      (s.cfg.obufCap < total → RaisesAfter .pipeEnc s { f with hvalid := false } 7#4 total)
        ∧ (total ≤ s.cfg.obufCap → ∃ t, exec .pipeEnc s = .next t
          ∧ t = { f with hvalid := false, obuf := t.obuf, olen := t.olen, draws := s.draws + 1 }
          ∧ t.olen.toNat = total ∧ HoldsFrom t.obuf 0 (huffEncode D)
          ∧ ∀ a, total ≤ a → a < s.cfg.obufCap → UnspecifiedAt t.obuf a))

/-- When `FLEN ≤ IBUF_CAP`, `PIPE_ENC` leaves `FRAME`, `BLK`, `OBUF` and `OLEN` as the script `FRM_FWD`, the dump copied to
`IBUF`, `HUF_ENC` does, from 44_pipeline_system.md R242. Two choices of the model go into it: `OBUF` beyond `OLEN`, which R62
leaves unspecified, agrees only because both runs have made the same number of draws (log entry 3); and the copy takes the bytes
of `FRAME` that the commands see, one free value each, also where a host read would be a draw of its own (log entry 5). -/
def Obligations.PipeEncEqualsScript : Prop :=
  ∀ s : State, Inv s → s.fault = false → GeometryOk s →
    frameLength s.width.toNat s.height.toNat ≤ s.cfg.ibufCap →
    ∃ t f u, exec .pipeEnc s = .next t ∧ hostStep (cmdLine .frmFwd) s = .next f
      ∧ runScript (copyToInput (f.frame.slice 0 (frameLength s.width.toNat s.height.toNat)) ++ [cmdLine .hufEnc]) f
          = .next u
      ∧ u.frame = t.frame ∧ u.blk = t.blk ∧ u.obuf = t.obuf ∧ u.olen = t.olen
      ∧ t.ibuf = s.ibuf ∧ t.ilen = s.ilen

/-- `PIPE_DEC`: its checks in order, each with its fault, and otherwise the frame loaded from the decoded bytes and transformed
as `FRM_INV` does it (44_pipeline_system.md R244). The counter of draws, one more where `FRAME` is left unspecified, is the
model's (log entry 3). -/
def Obligations.PipeDecDecodesFrame : Prop :=
  encode .pipeDec = 0x51000000#32 ∧ ∀ s : State, s.cfg.wf = true → RaisesInput .pipeDec s ∧ (InputOk s → RaisesGeometry .pipeDec s)
    ∧ (InputOk s → GeometryOk s →
      (s.ilen.toNat < 324 → RaisesAfter .pipeDec s { s with hvalid := false } 4#4 1)
        ∧ (324 ≤ s.ilen.toNat → (∀ T, ¬Describes s.input T) →
            RaisesAfter .pipeDec s { s with hvalid := false } 4#4 2)
        ∧ ∀ T n, 324 ≤ s.ilen.toNat → Describes s.input T → n = unbe32 (s.input.take 4) →
          (s.ilen.toNat < 324 + (n + 7) / 8 → RaisesAfter .pipeDec s { s with hvalid := false } 4#4 3)
            ∧ (324 + (n + 7) / 8 ≤ s.ilen.toNat →
              ((∀ out, ¬DecodesTo T (payloadBits s.input) out) → ∃ t, exec .pipeDec s = .next t
                  ∧ (∀ a, a < frameLength s.width.toNat s.height.toNat → UnspecifiedAt t.frame a)
                  ∧ (∀ a, frameLength s.width.toNat s.height.toNat ≤ a → SameAt t.frame s.frame a)
                  ∧ t.draws = s.draws + 1
                  ∧ t = State.afterFault { s with hvalid := false, frame := t.frame, draws := t.draws }
                      (encode .pipeDec) 4#4 4)
                ∧ ∀ out, DecodesTo T (payloadBits s.input) out →
                  (out.length ≠ frameLength s.width.toNat s.height.toNat → ∃ t, exec .pipeDec s = .next t
                      ∧ (∀ a, a < frameLength s.width.toNat s.height.toNat → UnspecifiedAt t.frame a)
                      ∧ (∀ a, frameLength s.width.toNat s.height.toNat ≤ a → SameAt t.frame s.frame a)
                      ∧ t.draws = s.draws + 1
                      ∧ t = State.afterFault { s with hvalid := false, frame := t.frame, draws := t.draws }
                          (encode .pipeDec) 4#4 5)
                    ∧ (out.length = frameLength s.width.toNat s.height.toNat → ∃ m t, exec .pipeDec s = .next t
                      ∧ m = { s with hvalid := false, frame := m.frame } ∧ HoldsFrom m.frame 0 out
                      ∧ (∀ a, out.length ≤ a → SameAt m.frame s.frame a) ∧ exec .frmInv m = .next t)))

/-- The pipeline round trip: `PIPE_ENC`, the payload copied to `IBUF`, `PIPE_DEC` raises no fault and leaves the frame that
`FRM_FWD` then `FRM_INV` leave; every byte outside the whole tiles comes back exactly (44_pipeline_system.md R245). Where a
command has left bytes of `FRAME` unspecified, both runs see the same free values of them (the model's choice, log entry 5). -/
def Obligations.PipelineRoundTrip : Prop :=
  ∀ (s f : State), Inv s → s.fault = false → GeometryOk s → exec .frmFwd s = .next f →
    324 + (dataBitCount (buildTree f.dump) f.dump + 7) / 8 ≤ min s.cfg.obufCap s.cfg.ibufCap →
    ∃ e t g, hostStep (cmdLine .pipeEnc) s = .next e ∧ e.fault = false
      ∧ runScript (copyToInput (e.obuf.slice 0 e.olen.toNat) ++ [cmdLine .pipeDec]) e = .next t ∧ t.fault = false
      ∧ exec .frmInv f = .next g
      ∧ ∀ a, a < frameLength s.width.toNat s.height.toNat → t.frame.read a = g.frame.read a
          ∧ ((∀ x y, x < 8 * (s.width.toNat / 8) → y < 8 * (s.height.toNat / 8) → a ≠ yaddr s.width.toNat x y) →
              t.frame.read a = s.frame.read a)

/-! ### Rules of the whole block -/

/-- No command but `RESET` writes a register of the host, and no command at all writes `IBUF`, the configuration, or what is
the model's own of the host port (10_state.md R23, R27, R28, 20_memory.md R61). -/
def Obligations.CommandsKeepHostRegisters : Prop :=
  ∀ (i : Instr) (s t : State), exec i s = .next t →
    (t.ibuf = s.ibuf ∧ t.cfg = s.cfg ∧ t.inbox = s.inbox ∧ t.hostData = s.hostData ∧ s.draws ≤ t.draws)
      ∧ (i ≠ .reset → t.a0 = s.a0 ∧ t.a1 = s.a1 ∧ t.a2 = s.a2 ∧ t.width = s.width ∧ t.height = s.height
        ∧ t.ilen = s.ilen ∧ t.busy = s.busy)

/-- Who writes the result registers and flags: `RES` only `BSR_READ` and the `GET` commands, `OLEN` only `HUF_ENC`, `HUF_DEC`
and `PIPE_ENC`, `HVALID` set only by `HUF_BUILD` and cleared only by the other coder commands, which leave it 1 only when one of
their first checks faults and nothing else changes, `BSR_VALID` set only by `BSR_INIT` and cleared only by the writer commands;
`RESET` apart; and a command that faults writes neither `RES` nor `OLEN` (10_state.md R24, R25, R28, 43_huffman.md R204). -/
def Obligations.ResultRegistersHaveFewWriters : Prop :=
  ∀ (i : Instr) (s t : State), i ≠ .reset → exec i s = .next t →
    (i ∉ [.bsrRead, .getY, .getU, .getV] → t.res = s.res)
      ∧ (i ∉ [.hufEnc, .hufDec, .pipeEnc] → t.olen = s.olen)
      ∧ (s.hvalid = false → t.hvalid = true → i = .hufBuild)
      ∧ (i ∈ [.hufEnc, .hufDec, .pipeEnc, .pipeDec] → t.hvalid = true →
          t.fault = true ∧ (t.err = 5#4 ∨ t.err = 6#4)
            ∧ t = { s with fault := true, err := t.err, errinfo := t.errinfo, errcmd := t.errcmd })
      ∧ (s.hvalid = true → t.hvalid = false → i ∈ [.hufEnc, .hufDec, .pipeEnc, .pipeDec])
      ∧ (s.bsrValid = false → t.bsrValid = true → ∃ src, i = .bsrInit src)
      ∧ (s.bsrValid = true → t.bsrValid = false → s.bsrSrc = .wbuf ∧ (i = .bswInit ∨ ∃ b, i = .bswWrite b))
      ∧ ((∀ src, i ≠ .bsrInit src) → t.bsrSrc = s.bsrSrc)
      ∧ (s.fault = false → t.fault = true → t.res = s.res ∧ t.olen = s.olen)

/-- Every fault a command can raise is one the table lists for it, and is recorded with the command's own word; without a
fault the error registers stay as they are; and a command that writes nothing before its checks leaves everything else as it
was (60_exceptions.md R263, R264, R265). -/
def Obligations.FaultsAreThoseListed : Prop :=
  ∀ (i : Instr) (s t : State), s.fault = false → exec i s = .next t →
    (t.fault = true → t.err ∈ raisable i ∧ t.errcmd = encode i)
      ∧ (t.fault = false → i ≠ .reset → t.err = s.err ∧ t.errinfo = s.errinfo ∧ t.errcmd = s.errcmd)
      ∧ (t.fault = true → i ∉ [.hufEnc, .hufDec, .pipeEnc, .pipeDec] →
          t = { s with fault := true, err := t.err, errinfo := t.errinfo, errcmd := t.errcmd })

/-- Which memories each command may write, and that `FRAME` at and beyond `FLEN` is never written (20_memory.md R60, R64). The
last clause, that the other coder commands leave the storage of the tables and `HNBITS` as it was, is the model's choice (log
entry 15): 43_huffman.md R204 lets them use that storage, and no host read shows it while `HVALID` = 0. -/
def Obligations.CommandsWriteOnlyTheirMemories : Prop :=
  ∀ (i : Instr) (s t : State), exec i s = .next t →
    (i ∉ [.hufEnc, .hufDec, .pipeEnc] → t.obuf = s.obuf)
      ∧ (i ≠ .bswInit → (∀ b, i ≠ .bswWrite b) → i ≠ .reset → t.wbuf = s.wbuf)
      ∧ (i ∉ [.setY, .setU, .setV, .blkSt, .frmFwd, .frmInv, .pipeEnc, .pipeDec] → t.frame = s.frame)
      ∧ (∀ a, frameLength s.width.toNat s.height.toNat ≤ a → SameAt t.frame s.frame a)
      ∧ (i ∉ [.blkLd, .dctFwd, .dctInv, .frmFwd, .frmInv, .pipeEnc, .pipeDec, .reset] → t.blk = s.blk)
      ∧ (i ∉ [.hufBuild, .reset] → t.hweight = s.hweight ∧ t.hlink = s.hlink ∧ t.hlen = s.hlen ∧ t.hnbits = s.hnbits)

/-- While `HVALID` = 0 nothing the block does depends on what is stored in the table spaces or `HNBITS`
(10_state.md R31, R34). -/
def Obligations.InvalidTablesAreUnobservable : Prop :=
  ∀ (a : HostAction) (s t : State) (hw hl : Vector Word 511) (hn : Vector Byte 256) (n : Word), s.hvalid = false →
    hostStep a s = .next t →
    ∃ u, hostStep a { s with hweight := hw, hlink := hl, hlen := hn, hnbits := n } = .next u
      ∧ u = { t with hweight := u.hweight, hlink := u.hlink, hlen := u.hlen, hnbits := u.hnbits }
      ∧ (t.hvalid = true → u = t)

/-- Every command ends in a next state, and none raises `ERR_OVERFLOW` (70_reset_and_hazards.md R300, 43_huffman.md R214). -/
def Obligations.EveryCommandEnds : Prop :=
  ∀ (i : Instr) (s : State), Inv s → ∃ t, exec i s = .next t ∧ (s.fault = false → t.err ≠ 8#4)

/-! ### The invariant -/

/-- The power-on state meets the invariant, with the default configuration and with every other one of 00_scope.md R7. -/
def Obligations.ResetMeetsInvariant : Prop :=
  Inv State.reset ∧ ∀ c : Config, c.wf = true → Inv (State.resetWith c)

/-- Every step from a state that meets the invariant ends in a state that meets it, or is refused because the host reached
outside a space; it never stops with a fault. The invariant is the canonical form and the bounds of the memories, the
writer's and reader's invariants of 10_state.md R29 and R30 with a bound on a detached reader's pointer, and the error registers
of R26. -/
def Obligations.StepKeepsInvariant : Prop :=
  ∀ s : State, Inv s →
    (∃ t, step s = .next t ∧ Inv t ∧ t.cfg = s.cfg)
      ∨ (∃ sp i, step s = .refused (.byteIndexOutside sp i) ∧ ByteSpace.size s.cfg sp ≤ i)
      ∨ ∃ sp i, step s = .refused (.wordIndexOutside sp i) ∧ WordSpace.size sp ≤ i
end

