-- ==== Sys2Proof/Laws/Bits.lean ====
section
/-! SUPPORT. What packing and unpacking do: lengths, the bit at each place, and that unpacking undoes packing. -/

namespace Sys2Proof.Machine

theorem streamBit_storeStreamBit (old : Byte) {k : Nat} (hk : k < 8) (b : Bool) {j : Nat} (hj : j < 8) :
    streamBit (storeStreamBit old k b) j = if j = k then b else streamBit old j := by
  cases b <;> interval_cases j <;> interval_cases k <;> simp [streamBit, storeStreamBit, streamMask]

@[simp] theorem streamBit_zero (k : Nat) : streamBit 0#8 k = false := by simp [streamBit]

@[simp] theorem length_byteBits (b : Byte) : (byteBits b).length = 8 := by simp [byteBits]

theorem getElem?_byteBits (b : Byte) {k : Nat} (hk : k < 8) : (byteBits b)[k]? = some (streamBit b k) := by
  simp [byteBits, hk]

@[simp] theorem unpack_nil : unpack [] = [] := rfl

theorem unpack_cons (b : Byte) (bytes : List Byte) : unpack (b :: bytes) = byteBits b ++ unpack bytes := rfl

theorem unpack_append (xs ys : List Byte) : unpack (xs ++ ys) = unpack xs ++ unpack ys := by simp [unpack]

@[simp] theorem length_unpack (bytes : List Byte) : (unpack bytes).length = 8 * bytes.length := by
  induction bytes with
  | nil => rfl
  | cons b bytes ih => rw [unpack_cons, List.length_append, ih, length_byteBits, List.length_cons]; omega

theorem streamBit_byteOfBits (bits : List Bool) {k : Nat} (hk : k < 8) :
    streamBit (byteOfBits bits) k = bits.getD k false := by
  have h : ∀ n, n ≤ 8 → ∀ j, j < 8 →
      streamBit ((List.range n).foldl (fun b k => storeStreamBit b k (bits.getD k false)) 0#8) j
        = if j < n then bits.getD j false else false := by
    intro n hn
    induction n with
    | zero => simp
    | succ n ih =>
      intro j hj
      rw [List.range_succ, List.foldl_append, List.foldl_cons, List.foldl_nil, streamBit_storeStreamBit _ (by omega) _ hj,
        ih (by omega) j hj]
      by_cases h1 : j = n
      · simp [h1]
      · by_cases h2 : j < n
        · simp [h1, h2, Nat.lt_succ_of_lt h2]
        · simp [h1, h2, show ¬j < n + 1 by omega]
  rw [byteOfBits, h 8 (le_refl 8) k hk, if_pos hk]

@[simp] theorem length_packBytes (n : Nat) (bits : List Bool) : (packBytes n bits).length = n := by
  induction n generalizing bits with
  | zero => rfl
  | succ n ih => rw [packBytes, List.length_cons, ih]

@[simp] theorem length_pack (bits : List Bool) : (pack bits).length = (bits.length + 7) / 8 := length_packBytes _ _

/-- Bit `j` of the unpacked first `n` bytes is bit `j` of the list, 0 beyond its end. -/
theorem getElem?_unpack_packBytes (n : Nat) (bits : List Bool) {j : Nat} (hj : j < 8 * n) :
    (unpack (packBytes n bits))[j]? = some (bits.getD j false) := by
  induction n generalizing bits j with
  | zero => omega
  | succ n ih =>
    rw [packBytes, unpack_cons]
    by_cases h : j < 8
    · rw [List.getElem?_append_left (by simpa using h), getElem?_byteBits _ h, streamBit_byteOfBits _ h]
    · rw [List.getElem?_append_right (by simpa using Nat.le_of_not_lt h), length_byteBits, ih _ (by omega)]
      simp [show 8 + (j - 8) = j by omega]

theorem getElem?_unpack_pack (bits : List Bool) {j : Nat} (hj : j < 8 * ((bits.length + 7) / 8)) :
    (unpack (pack bits))[j]? = some (bits.getD j false) := getElem?_unpack_packBytes _ bits hj

/-- Unpacking undoes packing, up to the padding. -/
theorem take_unpack_pack (bits rest : List Bool) : (unpack (pack bits) ++ rest).take bits.length = bits := by
  refine List.ext_getElem? fun j => ?_
  by_cases hj : j < bits.length
  · rw [List.getElem?_take_of_lt hj, List.getElem?_append_left (by simp; omega), getElem?_unpack_pack bits (by omega)]
    simp [hj]
  · rw [List.getElem?_eq_none (by simp; omega), List.getElem?_eq_none (by omega)]

@[simp] theorem length_be32 (n : Nat) : (be32 n).length = 4 := rfl

theorem unbe32_be32 {n : Nat} (h : n < 2 ^ 32) : unbe32 (be32 n) = n := by
  simp only [unbe32, be32, List.foldl_cons, List.foldl_nil, BitVec.toNat_ofNat]
  omega

end Sys2Proof.Machine
end

