-- ==== Sys2Proof/Laws/Memory.lean ====
section
/-! SUPPORT. What every memory operation does to every element (read after write, and every other element as before), and
that each keeps the canonical form `Mem.wf` and the bound `Mem.fits`. -/

namespace Sys2Proof.Machine

/-- What is known of an element beside its byte: the draw that left it unspecified, and whether host reads redraw it. -/
def Mem.drawAt (m : Mem) (i : Nat) : Option (Nat × Bool) := (m.freeAt i).map fun r => (r.draw, r.redrawn)

/-! ### Cells -/

@[simp] theorem lookupCell_nil (i : Nat) : lookupCell [] i = none := rfl

theorem lookupCell_cons (k : Nat) (b : Byte) (rest : List Host.Cell) (i : Nat) :
    lookupCell ((k, b) :: rest) i = if k = i then some b else lookupCell rest i := rfl

theorem lookupCell_cellsOutside (cells : List Host.Cell) (lo hi i : Nat) :
    lookupCell (cellsOutside cells lo hi) i = if lo ≤ i ∧ i < hi then none else lookupCell cells i := by
  induction cells with
  | nil => simp [cellsOutside]
  | cons c rest ih =>
    obtain ⟨k, b⟩ := c
    unfold cellsOutside at ih ⊢
    by_cases hk : lo ≤ k ∧ k < hi
    · have : (!(decide (lo ≤ k) && decide (k < hi))) = false := by simp [hk.1, hk.2]
      rw [List.filter_cons_of_neg (by simpa using this), ih, lookupCell_cons]
      split
      · rfl
      · rw [if_neg]; rintro rfl; contradiction
    · have : (!(decide (lo ≤ k) && decide (k < hi))) = true := by simp; omega
      rw [List.filter_cons_of_pos (by simpa using this), lookupCell_cons, lookupCell_cons, ih]
      by_cases h : k = i
      · subst h; simp [hk]
      · simp [h]

theorem lookupCell_insertCell (cells : List Host.Cell) (i j : Nat) (b : Byte) (h : lookupCell cells i = none) :
    lookupCell (insertCell cells i b) j = if i = j then some b else lookupCell cells j := by
  induction cells with
  | nil => simp [insertCell, lookupCell_cons]
  | cons c rest ih =>
    obtain ⟨k, d⟩ := c
    rw [lookupCell_cons] at h
    split at h
    · cases h
    · rename_i hne
      simp only [insertCell]
      split
      · simp [lookupCell_cons]
      · rw [lookupCell_cons, ih h, lookupCell_cons]
        by_cases hkj : k = j
        · subst hkj; simp [Ne.symm hne]
        · simp [hkj]

theorem lookupCell_cellsFrom (bytes : List Byte) (base i : Nat) :
    lookupCell (cellsFrom base bytes) i =
      if base ≤ i then (bytes[i - base]?).filter (· != 0#8) else none := by
  induction bytes generalizing base with
  | nil => simp [cellsFrom]
  | cons b rest ih =>
    simp only [cellsFrom]
    by_cases hb : b = 0#8
    · rw [if_pos hb, ih]
      rcases Nat.lt_trichotomy i base with h | h | h
      · rw [if_neg (by omega), if_neg (by omega)]
      · subst h; simp [hb, Option.filter]
      · rw [if_pos (by omega), if_pos (by omega), show i - base = (i - (base + 1)) + 1 by omega]; simp
    · rw [if_neg hb, lookupCell_cons, ih]
      rcases Nat.lt_trichotomy i base with h | h | h
      · rw [if_neg (by omega), if_neg (by omega), if_neg (by omega)]
      · subst h; simp [hb, Option.filter]
      · rw [if_neg (by omega), if_pos (by omega), if_pos (by omega), show i - base = (i - (base + 1)) + 1 by omega]; simp

theorem lookupCell_eq_none_of_forall {cells : List Host.Cell} {i : Nat} (h : ∀ c ∈ cells, c.1 ≠ i) :
    lookupCell cells i = none := by
  induction cells with
  | nil => rfl
  | cons c rest ih =>
    obtain ⟨k, b⟩ := c
    rw [lookupCell_cons, if_neg (h (k, b) (by simp)), ih fun c hc => h c (by simp [hc])]

/-! ### Unspecified ranges -/

theorem FreeRange.has_iff (r : FreeRange) (i : Nat) : r.has i = true ↔ r.lo ≤ i ∧ i < r.hi := by
  simp [FreeRange.has]

theorem FreeRange.find_nonempty (r : FreeRange) (i : Nat) :
    (FreeRange.nonempty r).find? (·.has i) = if r.has i then some r else none := by
  unfold FreeRange.nonempty
  split
  · by_cases h : r.has i <;> simp [h]
  · rename_i hlt
    have : r.has i = false := by
      rw [Bool.eq_false_iff]; intro h; rw [FreeRange.has_iff] at h; omega
    simp [this]

/-- The draw a range list gives an index. -/
def drawIn (free : List FreeRange) (i : Nat) : Option (Nat × Bool) :=
  (free.find? (·.has i)).map fun r => (r.draw, r.redrawn)

theorem drawIn_append (f g : List FreeRange) (i : Nat) : drawIn (f ++ g) i = (drawIn f i).or (drawIn g i) := by
  unfold drawIn
  rw [List.find?_append]
  cases f.find? (·.has i) <;> simp

theorem drawIn_without (r : FreeRange) (lo hi i : Nat) :
    drawIn (r.without lo hi) i = if lo ≤ i ∧ i < hi then none else drawIn [r] i := by
  unfold FreeRange.without
  rw [drawIn_append]
  unfold drawIn
  rw [FreeRange.find_nonempty, FreeRange.find_nonempty]
  simp only [FreeRange.has, List.find?_cons, List.find?_nil]
  by_cases h1 : r.lo ≤ i <;> by_cases h2 : i < r.hi <;> by_cases h3 : lo ≤ i <;> by_cases h4 : i < hi <;>
    simp [h1, h2, h3, h4]

theorem drawIn_rangesWithout (free : List FreeRange) (lo hi i : Nat) :
    drawIn (rangesWithout free lo hi) i = if lo ≤ i ∧ i < hi then none else drawIn free i := by
  induction free with
  | nil => simp [rangesWithout, drawIn]
  | cons r rest ih =>
    have hcons : rangesWithout (r :: rest) lo hi = r.without lo hi ++ rangesWithout rest lo hi := by
      simp [rangesWithout]
    rw [hcons, drawIn_append, drawIn_without, ih, show r :: rest = [r] ++ rest from rfl, drawIn_append]
    split <;> simp

theorem drawIn_insertRange (free : List FreeRange) (r : FreeRange) (i : Nat)
    (h : r.has i = true → drawIn free i = none) :
    drawIn (insertRange free r) i = if r.has i then some (r.draw, r.redrawn) else drawIn free i := by
  induction free with
  | nil => by_cases hr : r.has i <;> simp [insertRange, drawIn, hr]
  | cons q rest ih =>
    simp only [insertRange]
    split
    · by_cases hr : r.has i <;> simp [drawIn, List.find?_cons, hr]
    · by_cases hq : q.has i
      · have hr : r.has i = false := by
          rw [Bool.eq_false_iff]; intro hr; have := h hr; simp [drawIn, hq] at this
        simp [drawIn, hq, hr]
      · have hrest : drawIn (q :: rest) i = drawIn rest i := by simp [drawIn, hq]
        have hins : drawIn (q :: insertRange rest r) i = drawIn (insertRange rest r) i := by simp [drawIn, hq]
        rw [hins, ih (by rw [← hrest]; exact h), hrest]

/-! ### Reading -/

theorem Mem.drawAt_eq (m : Mem) (i : Nat) : m.drawAt i = drawIn m.free i := rfl

/-- A byte is what is listed, else what its draw gives, else 0. -/
theorem Mem.read_eq (m : Mem) (i : Nat) :
    m.read i = (lookupCell m.cells i).getD (match m.drawAt i with | some d => Config.freeByte d.1 i | none => 0) := by
  unfold Mem.read Mem.background Mem.drawAt
  cases lookupCell m.cells i <;> cases m.freeAt i <;> simp

/-- What a host read returns depends on the byte and the draw alone. -/
theorem Mem.hostRead_eq (m : Mem) (i : Nat) :
    m.hostRead i = match m.drawAt i with | some (_, true) => none | _ => some (m.read i) := by
  unfold Mem.hostRead Mem.drawAt
  rcases hf : m.freeAt i with _ | r
  · simp
  · rcases r with ⟨lo, hi, d, _ | _⟩ <;> simp

/-- Two memories agree at an element: same byte, same draw. -/
theorem Mem.agree {m m' : Mem} {i : Nat} (hc : lookupCell m.cells i = lookupCell m'.cells i)
    (hd : m.drawAt i = m'.drawAt i) : m.read i = m'.read i ∧ m.hostRead i = m'.hostRead i := by
  have : m.read i = m'.read i := by rw [Mem.read_eq, Mem.read_eq, hc, hd]
  exact ⟨this, by rw [Mem.hostRead_eq, Mem.hostRead_eq, hd, this]⟩

/-! ### Writing one byte -/

theorem Mem.drawAt_write (m : Mem) (i j : Nat) (b : Byte) :
    (m.write i b).drawAt j = if j = i then none else m.drawAt j := by
  have : (m.write i b).drawAt j = drawIn (rangesWithout m.free i (i + 1)) j := rfl
  rw [this, drawIn_rangesWithout, ← Mem.drawAt_eq]
  exact if_congr (by omega) rfl rfl

theorem Mem.lookupCell_write (m : Mem) (i j : Nat) (b : Byte) :
    lookupCell (m.write i b).cells j = if j = i then (if b = 0#8 then none else some b) else lookupCell m.cells j := by
  have hout := fun k => lookupCell_cellsOutside m.cells i (i + 1) k
  unfold Mem.write
  by_cases hb : b = 0#8
  · simp only [if_pos hb, hout]; exact if_congr (by omega) rfl rfl
  · simp only [if_neg hb]
    rw [lookupCell_insertCell _ _ _ _ (by rw [hout, if_pos (by omega)]), hout]
    by_cases h : j = i
    · subst h; simp
    · rw [if_neg (Ne.symm h), if_neg h, if_neg (by omega)]

@[simp] theorem Mem.read_write_same (m : Mem) (i : Nat) (b : Byte) : (m.write i b).read i = b := by
  rw [Mem.read_eq, Mem.lookupCell_write, Mem.drawAt_write]
  by_cases hb : b = 0#8 <;> simp [hb]

theorem Mem.read_write_other (m : Mem) {i j : Nat} (b : Byte) (h : j ≠ i) : (m.write i b).read j = m.read j := by
  rw [Mem.read_eq, Mem.read_eq, Mem.lookupCell_write, Mem.drawAt_write, if_neg h, if_neg h]

theorem Mem.read_write (m : Mem) (i j : Nat) (b : Byte) :
    (m.write i b).read j = if j = i then b else m.read j := by
  split
  · subst j; simp
  · exact m.read_write_other b ‹_›

@[simp] theorem Mem.hostRead_write_same (m : Mem) (i : Nat) (b : Byte) : (m.write i b).hostRead i = some b := by
  rw [Mem.hostRead_eq, Mem.drawAt_write]; simp

theorem Mem.hostRead_write_other (m : Mem) {i j : Nat} (b : Byte) (h : j ≠ i) :
    (m.write i b).hostRead j = m.hostRead j := by
  rw [Mem.hostRead_eq, Mem.hostRead_eq, Mem.drawAt_write, if_neg h, m.read_write_other b h]

/-! ### Writing a list -/

theorem Mem.read_writeList (m : Mem) (bytes : List Byte) (i j : Nat) :
    (m.writeList i bytes).read j = if i ≤ j then (bytes[j - i]?).getD (m.read j) else m.read j := by
  induction bytes generalizing m i with
  | nil => simp [Mem.writeList]
  | cons b rest ih =>
    rw [Mem.writeList, ih]
    rcases Nat.lt_trichotomy j i with h | h | h
    · rw [if_neg (by omega), if_neg (by omega), m.read_write_other b (by omega)]
    · subst h; simp
    · rw [if_pos (by omega), if_pos (by omega), m.read_write_other b (by omega),
        show j - i = (j - (i + 1)) + 1 by omega, List.getElem?_cons_succ]

theorem Mem.drawAt_writeList (m : Mem) (bytes : List Byte) (i j : Nat) :
    (m.writeList i bytes).drawAt j = if i ≤ j ∧ j < i + bytes.length then none else m.drawAt j := by
  induction bytes generalizing m i with
  | nil => simp [Mem.writeList]
  | cons b rest ih =>
    rw [Mem.writeList, ih, Mem.drawAt_write, List.length_cons]
    rcases Nat.lt_trichotomy j i with h | h | h
    · rw [if_neg (by omega), if_neg (by omega), if_neg (by omega)]
    · subst h; simp
    · by_cases h2 : j < i + (rest.length + 1)
      · rw [if_pos (by omega), if_pos (by omega)]
      · rw [if_neg (by omega), if_neg (by omega), if_neg (by omega)]

@[simp] theorem Mem.length_slice (m : Mem) (i n : Nat) : (m.slice i n).length = n := by simp [Mem.slice]

theorem Mem.getElem_slice (m : Mem) (i n k : Nat) (h : k < (m.slice i n).length) : (m.slice i n)[k] = m.read (i + k) := by
  simp [Mem.slice]

/-- The slice that a list was written to is the list. -/
theorem Mem.slice_writeList (m : Mem) (i : Nat) (bytes : List Byte) :
    (m.writeList i bytes).slice i bytes.length = bytes := by
  apply List.ext_getElem (by simp)
  intro k h1 h2
  rw [Mem.getElem_slice, Mem.read_writeList, if_pos (by omega), show i + k - i = k by omega]
  simp [h2]

theorem Mem.slice_congr {m m' : Mem} {i n : Nat} (h : ∀ k, k < n → m.read (i + k) = m'.read (i + k)) :
    m.slice i n = m'.slice i n := by
  apply List.ext_getElem (by simp)
  intro k h1 h2
  rw [Mem.getElem_slice, Mem.getElem_slice, h k (by simpa using h1)]

/-! ### A loaded space -/

theorem Mem.drawAt_loaded (bytes : List Byte) (cap draw j : Nat) :
    (Mem.loaded bytes cap draw).drawAt j = if bytes.length ≤ j ∧ j < cap then some (draw, true) else none := by
  have : (Mem.loaded bytes cap draw).drawAt j = drawIn (FreeRange.nonempty ⟨bytes.length, cap, draw, true⟩) j := rfl
  rw [this]; unfold drawIn
  rw [FreeRange.find_nonempty]
  simp only [FreeRange.has]
  by_cases h1 : bytes.length ≤ j <;> by_cases h2 : j < cap <;> simp [h1, h2]

theorem Mem.read_loaded (bytes : List Byte) (cap draw j : Nat) (h : j < bytes.length) :
    (Mem.loaded bytes cap draw).read j = bytes[j] := by
  rw [Mem.read_eq, Mem.drawAt_loaded, if_neg (by omega)]
  have : lookupCell (Mem.loaded bytes cap draw).cells j = lookupCell (cellsFrom 0 bytes) j := rfl
  rw [this, lookupCell_cellsFrom, if_pos (by omega), Nat.sub_zero, List.getElem?_eq_getElem h]
  by_cases hb : bytes[j] = 0#8 <;> simp [hb, Option.filter]

/-- The valid part of a loaded space is the list. -/
theorem Mem.slice_loaded (bytes : List Byte) (cap draw : Nat) :
    (Mem.loaded bytes cap draw).slice 0 bytes.length = bytes := by
  apply List.ext_getElem (by simp)
  intro k h1 h2
  rw [Mem.getElem_slice, Nat.zero_add, Mem.read_loaded _ _ _ _ h2]

/-! ### Leaving a range unspecified -/

theorem Mem.drawAt_havoc (m : Mem) (lo hi draw : Nat) (redrawn : Bool) (j : Nat) :
    (m.havoc lo hi draw redrawn).drawAt j = if lo ≤ j ∧ j < hi then some (draw, redrawn) else m.drawAt j := by
  unfold Mem.havoc
  split
  · change drawIn (insertRange (rangesWithout m.free lo hi) ⟨lo, hi, draw, redrawn⟩) j = _
    rw [drawIn_insertRange, drawIn_rangesWithout, ← Mem.drawAt_eq]
    · simp only [FreeRange.has]
      by_cases h1 : lo ≤ j <;> by_cases h2 : j < hi <;> simp [h1, h2]
    · intro h; rw [FreeRange.has_iff] at h; rw [drawIn_rangesWithout, if_pos h]
  · rw [if_neg (by omega)]

theorem Mem.lookupCell_havoc (m : Mem) (lo hi draw : Nat) (redrawn : Bool) (j : Nat) :
    lookupCell (m.havoc lo hi draw redrawn).cells j = if lo ≤ j ∧ j < hi then none else lookupCell m.cells j := by
  unfold Mem.havoc
  split
  · exact lookupCell_cellsOutside _ _ _ _
  · rw [if_neg (by omega)]

/-- An element of the range is the free value of the draw; every other element is as before. -/
theorem Mem.read_havoc (m : Mem) (lo hi draw : Nat) (redrawn : Bool) (j : Nat) :
    (m.havoc lo hi draw redrawn).read j = if lo ≤ j ∧ j < hi then Config.freeByte draw j else m.read j := by
  rw [Mem.read_eq, Mem.lookupCell_havoc, Mem.drawAt_havoc]
  split
  · simp
  · rw [Mem.read_eq]

theorem Mem.hostRead_havoc_other (m : Mem) {lo hi j : Nat} (draw : Nat) (redrawn : Bool) (h : ¬(lo ≤ j ∧ j < hi)) :
    (m.havoc lo hi draw redrawn).hostRead j = m.hostRead j := by
  rw [Mem.hostRead_eq, Mem.hostRead_eq, Mem.drawAt_havoc, if_neg h, Mem.read_havoc, if_neg h]

/-! ### The canonical form -/

/-- The canonical form, as a proposition. -/
theorem Mem.wf_iff (m : Mem) : m.wf = true ↔
    m.cells.Pairwise (fun c d => c.1 < d.1) ∧ (∀ c ∈ m.cells, c.2 ≠ 0#8 ∧ m.drawAt c.1 = none) ∧
      m.free.Pairwise (fun q r => q.hi ≤ r.lo) ∧ ∀ r ∈ m.free, r.lo < r.hi := by
  simp [Mem.wf, Mem.drawAt, and_assoc, List.all_eq_true]

/-- The bound, as a proposition. -/
theorem Mem.fits_iff (m : Mem) (cap : Nat) : m.fits cap = true ↔
    (∀ c ∈ m.cells, c.1 < cap) ∧ ∀ r ∈ m.free, r.hi ≤ cap := by
  simp [Mem.fits, List.all_eq_true]

/-- No entry of a canonical memory is what its index would read as if it were not listed. -/
theorem Mem.wf_background {m : Mem} (h : m.wf = true) {c : Host.Cell} (hc : c ∈ m.cells) : c.2 ≠ m.background c.1 := by
  obtain ⟨_, hcells, _, _⟩ := (Mem.wf_iff m).mp h
  obtain ⟨hne, hdraw⟩ := hcells c hc
  have hfree : m.freeAt c.1 = none := by simpa [Mem.drawAt] using hdraw
  simpa [Mem.background, hfree] using hne

theorem mem_insertCell {cells : List Host.Cell} {i : Nat} {b : Byte} {c : Host.Cell} :
    c ∈ insertCell cells i b ↔ c = (i, b) ∨ c ∈ cells := by
  induction cells with
  | nil => simp [insertCell]
  | cons d rest ih =>
    obtain ⟨k, e⟩ := d
    simp only [insertCell]
    split
    · simp
    · simp only [List.mem_cons, ih]; tauto

theorem mem_cellsOutside {cells : List Host.Cell} {lo hi : Nat} {c : Host.Cell} :
    c ∈ cellsOutside cells lo hi ↔ c ∈ cells ∧ ¬(lo ≤ c.1 ∧ c.1 < hi) := by
  simp only [cellsOutside, List.mem_filter, Bool.not_eq_true', Bool.and_eq_false_iff, decide_eq_false_iff_not]
  constructor <;> rintro ⟨h, h'⟩ <;> exact ⟨h, by omega⟩

theorem pairwise_insertCell {cells : List Host.Cell} {i : Nat} {b : Byte}
    (hs : cells.Pairwise fun c d => c.1 < d.1) (hne : ∀ c ∈ cells, c.1 ≠ i) :
    (insertCell cells i b).Pairwise fun c d => c.1 < d.1 := by
  induction cells with
  | nil => simp [insertCell]
  | cons d rest ih =>
    obtain ⟨k, e⟩ := d
    rw [List.pairwise_cons] at hs
    have hki : k ≠ i := hne (k, e) (by simp)
    simp only [insertCell]
    split
    · rename_i hlt
      rw [List.pairwise_cons, List.pairwise_cons]
      refine ⟨?_, hs⟩
      intro c hc
      rcases List.mem_cons.mp hc with rfl | hc
      · exact hlt
      · exact Nat.lt_trans hlt (hs.1 c hc)
    · rename_i hlt
      rw [List.pairwise_cons]
      refine ⟨?_, ih hs.2 fun c hc => hne c (by simp [hc])⟩
      intro c hc
      rcases mem_insertCell.mp hc with rfl | hc
      · simp only; omega
      · exact hs.1 c hc

theorem mem_nonempty {r q : FreeRange} : q ∈ FreeRange.nonempty r ↔ q = r ∧ r.lo < r.hi := by
  unfold FreeRange.nonempty; split <;> simp [*]

theorem mem_rangesWithout {free : List FreeRange} {lo hi : Nat} {q : FreeRange}
    (h : q ∈ rangesWithout free lo hi) :
    q.lo < q.hi ∧ (q.hi ≤ lo ∨ hi ≤ q.lo) ∧ ∃ r ∈ free, r.lo ≤ q.lo ∧ q.hi ≤ r.hi := by
  simp only [rangesWithout, List.mem_flatMap, FreeRange.without, List.mem_append, mem_nonempty] at h
  obtain ⟨r, hr, ⟨rfl, hlt⟩ | ⟨rfl, hlt⟩⟩ := h
  · exact ⟨hlt, .inl (by simp), r, hr, by simp, by simp⟩
  · exact ⟨hlt, .inr (by simp), r, hr, by simp, by simp⟩

theorem pairwise_without (r : FreeRange) (lo hi : Nat) (h : lo ≤ hi) :
    (r.without lo hi).Pairwise fun q p => q.hi ≤ p.lo := by
  unfold FreeRange.without FreeRange.nonempty
  split <;> split <;> simp
  omega

theorem pairwise_rangesWithout {free : List FreeRange} {lo hi : Nat} (h : lo ≤ hi)
    (hs : free.Pairwise fun q r => q.hi ≤ r.lo) :
    (rangesWithout free lo hi).Pairwise fun q r => q.hi ≤ r.lo := by
  induction free with
  | nil => simp [rangesWithout]
  | cons r rest ih =>
    rw [List.pairwise_cons] at hs
    have hcons : rangesWithout (r :: rest) lo hi = r.without lo hi ++ rangesWithout rest lo hi := by
      simp [rangesWithout]
    rw [hcons, List.pairwise_append]
    refine ⟨pairwise_without r lo hi h, ih hs.2, ?_⟩
    intro q hq p hp
    have hq' : q ∈ rangesWithout [r] lo hi := by simpa [rangesWithout] using hq
    obtain ⟨_, _, r', hr', _, hq2⟩ := mem_rangesWithout hq'
    obtain ⟨_, _, p', hp', hp1, _⟩ := mem_rangesWithout hp
    have := hs.1 p' hp'
    simp only [List.mem_singleton] at hr'
    subst hr'; omega

theorem mem_insertRange {free : List FreeRange} {r q : FreeRange} :
    q ∈ insertRange free r ↔ q = r ∨ q ∈ free := by
  induction free with
  | nil => simp [insertRange]
  | cons p rest ih =>
    simp only [insertRange]
    split
    · simp
    · simp only [List.mem_cons, ih]; tauto

theorem pairwise_insertRange {free : List FreeRange} {r : FreeRange} (hr : r.lo < r.hi)
    (hs : free.Pairwise fun q p => q.hi ≤ p.lo) (hne : ∀ q ∈ free, q.lo < q.hi)
    (hapart : ∀ q ∈ free, q.hi ≤ r.lo ∨ r.hi ≤ q.lo) :
    (insertRange free r).Pairwise fun q p => q.hi ≤ p.lo := by
  induction free with
  | nil => simp [insertRange]
  | cons p rest ih =>
    rw [List.pairwise_cons] at hs
    have hp := hapart p (by simp)
    have hpl := hne p (by simp)
    simp only [insertRange]
    split
    · rename_i hlt
      rw [List.pairwise_cons, List.pairwise_cons]
      refine ⟨?_, hs⟩
      intro q hq
      rcases List.mem_cons.mp hq with rfl | hq
      · omega
      · have := hs.1 q hq; omega
    · rename_i hlt
      rw [List.pairwise_cons]
      refine ⟨?_, ih hs.2 (fun q hq => hne q (by simp [hq])) fun q hq => hapart q (by simp [hq])⟩
      intro q hq
      rcases mem_insertRange.mp hq with rfl | hq
      · omega
      · exact hs.1 q hq

/-- Writing a byte keeps the canonical form. -/
theorem Mem.wf_write {m : Mem} (h : m.wf = true) (i : Nat) (b : Byte) : (m.write i b).wf = true := by
  rw [Mem.wf_iff] at h ⊢
  obtain ⟨hs, hc, hp, hn⟩ := h
  have hout : (cellsOutside m.cells i (i + 1)).Pairwise fun c d => c.1 < d.1 := hs.filter _
  have hne : ∀ c ∈ cellsOutside m.cells i (i + 1), c.1 ≠ i := by
    intro c hmem; have := (mem_cellsOutside.mp hmem).2; omega
  have hold : ∀ c ∈ cellsOutside m.cells i (i + 1), c.2 ≠ 0#8 ∧ (m.write i b).drawAt c.1 = none := by
    intro c hmem
    have hm := hc c (mem_cellsOutside.mp hmem).1
    rw [Mem.drawAt_write, if_neg (hne c hmem)]; exact hm
  refine ⟨?_, ?_, pairwise_rangesWithout (by omega) hp, fun r hr => (mem_rangesWithout hr).1⟩
  · unfold Mem.write
    by_cases hb : b = 0#8
    · simpa [hb] using hout
    · simpa [hb] using pairwise_insertCell hout hne
  · intro c hmem
    by_cases hb : b = 0#8
    · exact hold c (by simpa [Mem.write, hb] using hmem)
    · have hmem' : c ∈ insertCell (cellsOutside m.cells i (i + 1)) i b := by simpa [Mem.write, hb] using hmem
      rcases mem_insertCell.mp hmem' with rfl | hmem'
      · exact ⟨hb, by rw [Mem.drawAt_write, if_pos rfl]⟩
      · exact hold c hmem'

/-- Writing a list keeps the canonical form. -/
theorem Mem.wf_writeList {m : Mem} (h : m.wf = true) (i : Nat) (bytes : List Byte) : (m.writeList i bytes).wf = true := by
  induction bytes generalizing m i with
  | nil => exact h
  | cons b rest ih => exact ih (Mem.wf_write h i b) (i + 1)

/-- Leaving a range unspecified keeps the canonical form. -/
theorem Mem.wf_havoc {m : Mem} (h : m.wf = true) (lo hi draw : Nat) (redrawn : Bool) :
    (m.havoc lo hi draw redrawn).wf = true := by
  by_cases hlt : lo < hi
  · have hdraw := Mem.drawAt_havoc m lo hi draw redrawn
    rw [Mem.wf_iff] at h ⊢
    obtain ⟨hs, hc, hp, hn⟩ := h
    simp only [Mem.havoc, if_pos hlt] at hdraw ⊢
    refine ⟨hs.filter _, ?_, ?_, ?_⟩
    · intro c hmem
      obtain ⟨hmem', hnot⟩ := mem_cellsOutside.mp hmem
      rw [hdraw, if_neg hnot]; exact hc c hmem'
    · exact pairwise_insertRange hlt (pairwise_rangesWithout (by omega) hp) (fun q hq => (mem_rangesWithout hq).1)
        fun q hq => (mem_rangesWithout hq).2.1
    · intro r hr
      rcases mem_insertRange.mp hr with rfl | hr
      · exact hlt
      · exact (mem_rangesWithout hr).1
  · simpa [Mem.havoc, hlt] using h

theorem mem_cellsFrom {bytes : List Byte} {base : Nat} {c : Host.Cell} (h : c ∈ cellsFrom base bytes) :
    base ≤ c.1 ∧ c.1 < base + bytes.length ∧ c.2 ≠ 0#8 := by
  induction bytes generalizing base with
  | nil => simp [cellsFrom] at h
  | cons b rest ih =>
    simp only [cellsFrom] at h
    split at h
    · have := ih h; simp only [List.length_cons]; exact ⟨by omega, by omega, this.2.2⟩
    · rename_i hb
      rcases List.mem_cons.mp h with rfl | h
      · exact ⟨by simp, by simp, hb⟩
      · have := ih h; simp only [List.length_cons]; refine ⟨by omega, by omega, this.2.2⟩

theorem pairwise_cellsFrom (bytes : List Byte) (base : Nat) : (cellsFrom base bytes).Pairwise fun c d => c.1 < d.1 := by
  induction bytes generalizing base with
  | nil => simp [cellsFrom]
  | cons b rest ih =>
    simp only [cellsFrom]
    split
    · exact ih _
    · rw [List.pairwise_cons]
      exact ⟨fun c hc => by have := (mem_cellsFrom hc).1; simp only; omega, ih _⟩

/-- A loaded space is canonical. -/
theorem Mem.wf_loaded (bytes : List Byte) (cap draw : Nat) : (Mem.loaded bytes cap draw).wf = true := by
  rw [Mem.wf_iff]
  refine ⟨pairwise_cellsFrom bytes 0, ?_, ?_, ?_⟩
  · intro c hc
    have := mem_cellsFrom hc
    exact ⟨this.2.2, by rw [Mem.drawAt_loaded, if_neg (by omega)]⟩
  · simp only [Mem.loaded, FreeRange.nonempty]; split <;> simp
  · intro r hr; obtain ⟨rfl, h⟩ := mem_nonempty.mp hr; exact h

/-! ### The bound -/

theorem Mem.fits_write {m : Mem} {cap i : Nat} (h : m.fits cap = true) (hi : i < cap) (b : Byte) :
    (m.write i b).fits cap = true := by
  rw [Mem.fits_iff] at h ⊢
  refine ⟨?_, ?_⟩
  · intro c hmem
    by_cases hb : b = 0#8
    · exact h.1 c (mem_cellsOutside.mp (by simpa [Mem.write, hb] using hmem)).1
    · have hmem' : c ∈ insertCell (cellsOutside m.cells i (i + 1)) i b := by simpa [Mem.write, hb] using hmem
      rcases mem_insertCell.mp hmem' with rfl | hmem'
      · exact hi
      · exact h.1 c (mem_cellsOutside.mp hmem').1
  · intro r hr
    obtain ⟨_, _, q, hq, _, hle⟩ := mem_rangesWithout (show r ∈ rangesWithout m.free i (i + 1) from hr)
    exact Nat.le_trans hle (h.2 q hq)

theorem Mem.fits_writeList {m : Mem} {cap i : Nat} {bytes : List Byte} (h : m.fits cap = true)
    (hi : i + bytes.length ≤ cap) : (m.writeList i bytes).fits cap = true := by
  induction bytes generalizing m i with
  | nil => exact h
  | cons b rest ih =>
    rw [List.length_cons] at hi
    exact ih (Mem.fits_write h (by omega) b) (by omega)

theorem Mem.fits_havoc {m : Mem} {cap lo hi : Nat} (h : m.fits cap = true) (hhi : hi ≤ cap) (draw : Nat)
    (redrawn : Bool) : (m.havoc lo hi draw redrawn).fits cap = true := by
  unfold Mem.havoc
  split
  · rw [Mem.fits_iff] at h ⊢
    refine ⟨fun c hc => h.1 c (mem_cellsOutside.mp hc).1, fun r hr => ?_⟩
    rcases mem_insertRange.mp hr with rfl | hr
    · exact hhi
    · obtain ⟨_, _, q, hq, _, hle⟩ := mem_rangesWithout hr
      exact Nat.le_trans hle (h.2 q hq)
  · exact h

theorem Mem.fits_loaded {bytes : List Byte} {cap : Nat} (h : bytes.length ≤ cap) (draw : Nat) :
    (Mem.loaded bytes cap draw).fits cap = true := by
  rw [Mem.fits_iff]
  refine ⟨fun c hc => ?_, fun r hr => ?_⟩
  · have := mem_cellsFrom (show c ∈ cellsFrom 0 bytes from hc); omega
  · obtain ⟨rfl, _⟩ := mem_nonempty.mp (show r ∈ FreeRange.nonempty _ from hr); exact Nat.le_refl cap

/-! ### Tables -/

@[simp] theorem tableGet_tableOf {α : Type} [Inhabited α] {n : Nat} (f : Nat → α) {k : Nat} (h : k < n) :
    tableGet (tableOf n f) k = f k := by
  simp [tableGet, tableOf, List.getD, h]

theorem tableGet_tableSet {α : Type} [Inhabited α] {n : Nat} (t : Vector α n) {k : Nat} (j : Nat) (x : α) (h : k < n) :
    tableGet (tableSet t k x) j = if j = k then x else tableGet t j := by
  simp only [tableGet, tableSet, Vector.toList, List.getD, List.getElem?_set]
  by_cases hj : j = k
  · subst hj; simp [h]
  · simp [hj, Ne.symm hj]

/-- Two tables with the same elements are the same table. -/
theorem table_ext {α : Type} [Inhabited α] {n : Nat} {t u : Vector α n} (h : ∀ k, k < n → tableGet t k = tableGet u k) :
    t = u := by
  apply Vector.ext
  intro k hk
  have := h k hk
  simpa [tableGet, List.getD, hk] using this

end Sys2Proof.Machine
end

