-- ==== Sys2Proof/Laws/State.lean ====
section
/-! SUPPORT. One lemma per field per named update of the state, each true by `rfl`: what the update writes, and that it
writes nothing else. -/

namespace Sys2Proof.Machine

variable (s : State)

/-! `State.recordFault` (60_exceptions.md R264) -/

@[simp] theorem State.recordFault_cfg (cmd : Word) (c : ErrCode) (info : Nat) : (s.recordFault cmd c info).cfg = s.cfg := rfl
@[simp] theorem State.recordFault_fault (cmd : Word) (c : ErrCode) (info : Nat) : (s.recordFault cmd c info).fault = true := rfl
@[simp] theorem State.recordFault_busy (cmd : Word) (c : ErrCode) (info : Nat) : (s.recordFault cmd c info).busy = s.busy := rfl
@[simp] theorem State.recordFault_bsrValid (cmd : Word) (c : ErrCode) (info : Nat) : (s.recordFault cmd c info).bsrValid = s.bsrValid := rfl
@[simp] theorem State.recordFault_bsrSrc (cmd : Word) (c : ErrCode) (info : Nat) : (s.recordFault cmd c info).bsrSrc = s.bsrSrc := rfl
@[simp] theorem State.recordFault_hvalid (cmd : Word) (c : ErrCode) (info : Nat) : (s.recordFault cmd c info).hvalid = s.hvalid := rfl
@[simp] theorem State.recordFault_err (cmd : Word) (c : ErrCode) (info : Nat) : (s.recordFault cmd c info).err = c.value := rfl
@[simp] theorem State.recordFault_errinfo (cmd : Word) (c : ErrCode) (info : Nat) : (s.recordFault cmd c info).errinfo = BitVec.ofNat 32 info := rfl
@[simp] theorem State.recordFault_errcmd (cmd : Word) (c : ErrCode) (info : Nat) : (s.recordFault cmd c info).errcmd = cmd := rfl
@[simp] theorem State.recordFault_a0 (cmd : Word) (c : ErrCode) (info : Nat) : (s.recordFault cmd c info).a0 = s.a0 := rfl
@[simp] theorem State.recordFault_a1 (cmd : Word) (c : ErrCode) (info : Nat) : (s.recordFault cmd c info).a1 = s.a1 := rfl
@[simp] theorem State.recordFault_a2 (cmd : Word) (c : ErrCode) (info : Nat) : (s.recordFault cmd c info).a2 = s.a2 := rfl
@[simp] theorem State.recordFault_res (cmd : Word) (c : ErrCode) (info : Nat) : (s.recordFault cmd c info).res = s.res := rfl
@[simp] theorem State.recordFault_width (cmd : Word) (c : ErrCode) (info : Nat) : (s.recordFault cmd c info).width = s.width := rfl
@[simp] theorem State.recordFault_height (cmd : Word) (c : ErrCode) (info : Nat) : (s.recordFault cmd c info).height = s.height := rfl
@[simp] theorem State.recordFault_ilen (cmd : Word) (c : ErrCode) (info : Nat) : (s.recordFault cmd c info).ilen = s.ilen := rfl
@[simp] theorem State.recordFault_olen (cmd : Word) (c : ErrCode) (info : Nat) : (s.recordFault cmd c info).olen = s.olen := rfl
@[simp] theorem State.recordFault_bswByte (cmd : Word) (c : ErrCode) (info : Nat) : (s.recordFault cmd c info).bswByte = s.bswByte := rfl
@[simp] theorem State.recordFault_bswBit (cmd : Word) (c : ErrCode) (info : Nat) : (s.recordFault cmd c info).bswBit = s.bswBit := rfl
@[simp] theorem State.recordFault_bsrByte (cmd : Word) (c : ErrCode) (info : Nat) : (s.recordFault cmd c info).bsrByte = s.bsrByte := rfl
@[simp] theorem State.recordFault_bsrBit (cmd : Word) (c : ErrCode) (info : Nat) : (s.recordFault cmd c info).bsrBit = s.bsrBit := rfl
@[simp] theorem State.recordFault_bsrBase (cmd : Word) (c : ErrCode) (info : Nat) : (s.recordFault cmd c info).bsrBase = s.bsrBase := rfl
@[simp] theorem State.recordFault_bsrLen (cmd : Word) (c : ErrCode) (info : Nat) : (s.recordFault cmd c info).bsrLen = s.bsrLen := rfl
@[simp] theorem State.recordFault_hnbits (cmd : Word) (c : ErrCode) (info : Nat) : (s.recordFault cmd c info).hnbits = s.hnbits := rfl
@[simp] theorem State.recordFault_blk (cmd : Word) (c : ErrCode) (info : Nat) : (s.recordFault cmd c info).blk = s.blk := rfl
@[simp] theorem State.recordFault_hweight (cmd : Word) (c : ErrCode) (info : Nat) : (s.recordFault cmd c info).hweight = s.hweight := rfl
@[simp] theorem State.recordFault_hlink (cmd : Word) (c : ErrCode) (info : Nat) : (s.recordFault cmd c info).hlink = s.hlink := rfl
@[simp] theorem State.recordFault_hlen (cmd : Word) (c : ErrCode) (info : Nat) : (s.recordFault cmd c info).hlen = s.hlen := rfl
@[simp] theorem State.recordFault_ibuf (cmd : Word) (c : ErrCode) (info : Nat) : (s.recordFault cmd c info).ibuf = s.ibuf := rfl
@[simp] theorem State.recordFault_obuf (cmd : Word) (c : ErrCode) (info : Nat) : (s.recordFault cmd c info).obuf = s.obuf := rfl
@[simp] theorem State.recordFault_wbuf (cmd : Word) (c : ErrCode) (info : Nat) : (s.recordFault cmd c info).wbuf = s.wbuf := rfl
@[simp] theorem State.recordFault_frame (cmd : Word) (c : ErrCode) (info : Nat) : (s.recordFault cmd c info).frame = s.frame := rfl
@[simp] theorem State.recordFault_inbox (cmd : Word) (c : ErrCode) (info : Nat) : (s.recordFault cmd c info).inbox = s.inbox := rfl
@[simp] theorem State.recordFault_hostData (cmd : Word) (c : ErrCode) (info : Nat) : (s.recordFault cmd c info).hostData = s.hostData := rfl
@[simp] theorem State.recordFault_draws (cmd : Word) (c : ErrCode) (info : Nat) : (s.recordFault cmd c info).draws = s.draws := rfl

/-! `State.setRes` (10_state.md R24) -/

@[simp] theorem State.setRes_cfg (v : Byte) : (s.setRes v).cfg = s.cfg := rfl
@[simp] theorem State.setRes_fault (v : Byte) : (s.setRes v).fault = s.fault := rfl
@[simp] theorem State.setRes_busy (v : Byte) : (s.setRes v).busy = s.busy := rfl
@[simp] theorem State.setRes_bsrValid (v : Byte) : (s.setRes v).bsrValid = s.bsrValid := rfl
@[simp] theorem State.setRes_bsrSrc (v : Byte) : (s.setRes v).bsrSrc = s.bsrSrc := rfl
@[simp] theorem State.setRes_hvalid (v : Byte) : (s.setRes v).hvalid = s.hvalid := rfl
@[simp] theorem State.setRes_err (v : Byte) : (s.setRes v).err = s.err := rfl
@[simp] theorem State.setRes_errinfo (v : Byte) : (s.setRes v).errinfo = s.errinfo := rfl
@[simp] theorem State.setRes_errcmd (v : Byte) : (s.setRes v).errcmd = s.errcmd := rfl
@[simp] theorem State.setRes_a0 (v : Byte) : (s.setRes v).a0 = s.a0 := rfl
@[simp] theorem State.setRes_a1 (v : Byte) : (s.setRes v).a1 = s.a1 := rfl
@[simp] theorem State.setRes_a2 (v : Byte) : (s.setRes v).a2 = s.a2 := rfl
@[simp] theorem State.setRes_res (v : Byte) : (s.setRes v).res = v.setWidth 32 := rfl
@[simp] theorem State.setRes_width (v : Byte) : (s.setRes v).width = s.width := rfl
@[simp] theorem State.setRes_height (v : Byte) : (s.setRes v).height = s.height := rfl
@[simp] theorem State.setRes_ilen (v : Byte) : (s.setRes v).ilen = s.ilen := rfl
@[simp] theorem State.setRes_olen (v : Byte) : (s.setRes v).olen = s.olen := rfl
@[simp] theorem State.setRes_bswByte (v : Byte) : (s.setRes v).bswByte = s.bswByte := rfl
@[simp] theorem State.setRes_bswBit (v : Byte) : (s.setRes v).bswBit = s.bswBit := rfl
@[simp] theorem State.setRes_bsrByte (v : Byte) : (s.setRes v).bsrByte = s.bsrByte := rfl
@[simp] theorem State.setRes_bsrBit (v : Byte) : (s.setRes v).bsrBit = s.bsrBit := rfl
@[simp] theorem State.setRes_bsrBase (v : Byte) : (s.setRes v).bsrBase = s.bsrBase := rfl
@[simp] theorem State.setRes_bsrLen (v : Byte) : (s.setRes v).bsrLen = s.bsrLen := rfl
@[simp] theorem State.setRes_hnbits (v : Byte) : (s.setRes v).hnbits = s.hnbits := rfl
@[simp] theorem State.setRes_blk (v : Byte) : (s.setRes v).blk = s.blk := rfl
@[simp] theorem State.setRes_hweight (v : Byte) : (s.setRes v).hweight = s.hweight := rfl
@[simp] theorem State.setRes_hlink (v : Byte) : (s.setRes v).hlink = s.hlink := rfl
@[simp] theorem State.setRes_hlen (v : Byte) : (s.setRes v).hlen = s.hlen := rfl
@[simp] theorem State.setRes_ibuf (v : Byte) : (s.setRes v).ibuf = s.ibuf := rfl
@[simp] theorem State.setRes_obuf (v : Byte) : (s.setRes v).obuf = s.obuf := rfl
@[simp] theorem State.setRes_wbuf (v : Byte) : (s.setRes v).wbuf = s.wbuf := rfl
@[simp] theorem State.setRes_frame (v : Byte) : (s.setRes v).frame = s.frame := rfl
@[simp] theorem State.setRes_inbox (v : Byte) : (s.setRes v).inbox = s.inbox := rfl
@[simp] theorem State.setRes_hostData (v : Byte) : (s.setRes v).hostData = s.hostData := rfl
@[simp] theorem State.setRes_draws (v : Byte) : (s.setRes v).draws = s.draws := rfl

/-! `State.setFrameByte` (42_frame.md R186) -/

@[simp] theorem State.setFrameByte_cfg (i : Nat) (v : Byte) : (s.setFrameByte i v).cfg = s.cfg := rfl
@[simp] theorem State.setFrameByte_fault (i : Nat) (v : Byte) : (s.setFrameByte i v).fault = s.fault := rfl
@[simp] theorem State.setFrameByte_busy (i : Nat) (v : Byte) : (s.setFrameByte i v).busy = s.busy := rfl
@[simp] theorem State.setFrameByte_bsrValid (i : Nat) (v : Byte) : (s.setFrameByte i v).bsrValid = s.bsrValid := rfl
@[simp] theorem State.setFrameByte_bsrSrc (i : Nat) (v : Byte) : (s.setFrameByte i v).bsrSrc = s.bsrSrc := rfl
@[simp] theorem State.setFrameByte_hvalid (i : Nat) (v : Byte) : (s.setFrameByte i v).hvalid = s.hvalid := rfl
@[simp] theorem State.setFrameByte_err (i : Nat) (v : Byte) : (s.setFrameByte i v).err = s.err := rfl
@[simp] theorem State.setFrameByte_errinfo (i : Nat) (v : Byte) : (s.setFrameByte i v).errinfo = s.errinfo := rfl
@[simp] theorem State.setFrameByte_errcmd (i : Nat) (v : Byte) : (s.setFrameByte i v).errcmd = s.errcmd := rfl
@[simp] theorem State.setFrameByte_a0 (i : Nat) (v : Byte) : (s.setFrameByte i v).a0 = s.a0 := rfl
@[simp] theorem State.setFrameByte_a1 (i : Nat) (v : Byte) : (s.setFrameByte i v).a1 = s.a1 := rfl
@[simp] theorem State.setFrameByte_a2 (i : Nat) (v : Byte) : (s.setFrameByte i v).a2 = s.a2 := rfl
@[simp] theorem State.setFrameByte_res (i : Nat) (v : Byte) : (s.setFrameByte i v).res = s.res := rfl
@[simp] theorem State.setFrameByte_width (i : Nat) (v : Byte) : (s.setFrameByte i v).width = s.width := rfl
@[simp] theorem State.setFrameByte_height (i : Nat) (v : Byte) : (s.setFrameByte i v).height = s.height := rfl
@[simp] theorem State.setFrameByte_ilen (i : Nat) (v : Byte) : (s.setFrameByte i v).ilen = s.ilen := rfl
@[simp] theorem State.setFrameByte_olen (i : Nat) (v : Byte) : (s.setFrameByte i v).olen = s.olen := rfl
@[simp] theorem State.setFrameByte_bswByte (i : Nat) (v : Byte) : (s.setFrameByte i v).bswByte = s.bswByte := rfl
@[simp] theorem State.setFrameByte_bswBit (i : Nat) (v : Byte) : (s.setFrameByte i v).bswBit = s.bswBit := rfl
@[simp] theorem State.setFrameByte_bsrByte (i : Nat) (v : Byte) : (s.setFrameByte i v).bsrByte = s.bsrByte := rfl
@[simp] theorem State.setFrameByte_bsrBit (i : Nat) (v : Byte) : (s.setFrameByte i v).bsrBit = s.bsrBit := rfl
@[simp] theorem State.setFrameByte_bsrBase (i : Nat) (v : Byte) : (s.setFrameByte i v).bsrBase = s.bsrBase := rfl
@[simp] theorem State.setFrameByte_bsrLen (i : Nat) (v : Byte) : (s.setFrameByte i v).bsrLen = s.bsrLen := rfl
@[simp] theorem State.setFrameByte_hnbits (i : Nat) (v : Byte) : (s.setFrameByte i v).hnbits = s.hnbits := rfl
@[simp] theorem State.setFrameByte_blk (i : Nat) (v : Byte) : (s.setFrameByte i v).blk = s.blk := rfl
@[simp] theorem State.setFrameByte_hweight (i : Nat) (v : Byte) : (s.setFrameByte i v).hweight = s.hweight := rfl
@[simp] theorem State.setFrameByte_hlink (i : Nat) (v : Byte) : (s.setFrameByte i v).hlink = s.hlink := rfl
@[simp] theorem State.setFrameByte_hlen (i : Nat) (v : Byte) : (s.setFrameByte i v).hlen = s.hlen := rfl
@[simp] theorem State.setFrameByte_ibuf (i : Nat) (v : Byte) : (s.setFrameByte i v).ibuf = s.ibuf := rfl
@[simp] theorem State.setFrameByte_obuf (i : Nat) (v : Byte) : (s.setFrameByte i v).obuf = s.obuf := rfl
@[simp] theorem State.setFrameByte_wbuf (i : Nat) (v : Byte) : (s.setFrameByte i v).wbuf = s.wbuf := rfl
@[simp] theorem State.setFrameByte_frame (i : Nat) (v : Byte) : (s.setFrameByte i v).frame = s.frame.write i v := rfl
@[simp] theorem State.setFrameByte_inbox (i : Nat) (v : Byte) : (s.setFrameByte i v).inbox = s.inbox := rfl
@[simp] theorem State.setFrameByte_hostData (i : Nat) (v : Byte) : (s.setFrameByte i v).hostData = s.hostData := rfl
@[simp] theorem State.setFrameByte_draws (i : Nat) (v : Byte) : (s.setFrameByte i v).draws = s.draws := rfl

/-! `State.scatterTile` (41_block_transform.md R159) -/

@[simp] theorem State.scatterTile_cfg (tx ty : Nat) (b : Block) : (s.scatterTile tx ty b).cfg = s.cfg := rfl
@[simp] theorem State.scatterTile_fault (tx ty : Nat) (b : Block) : (s.scatterTile tx ty b).fault = s.fault := rfl
@[simp] theorem State.scatterTile_busy (tx ty : Nat) (b : Block) : (s.scatterTile tx ty b).busy = s.busy := rfl
@[simp] theorem State.scatterTile_bsrValid (tx ty : Nat) (b : Block) : (s.scatterTile tx ty b).bsrValid = s.bsrValid := rfl
@[simp] theorem State.scatterTile_bsrSrc (tx ty : Nat) (b : Block) : (s.scatterTile tx ty b).bsrSrc = s.bsrSrc := rfl
@[simp] theorem State.scatterTile_hvalid (tx ty : Nat) (b : Block) : (s.scatterTile tx ty b).hvalid = s.hvalid := rfl
@[simp] theorem State.scatterTile_err (tx ty : Nat) (b : Block) : (s.scatterTile tx ty b).err = s.err := rfl
@[simp] theorem State.scatterTile_errinfo (tx ty : Nat) (b : Block) : (s.scatterTile tx ty b).errinfo = s.errinfo := rfl
@[simp] theorem State.scatterTile_errcmd (tx ty : Nat) (b : Block) : (s.scatterTile tx ty b).errcmd = s.errcmd := rfl
@[simp] theorem State.scatterTile_a0 (tx ty : Nat) (b : Block) : (s.scatterTile tx ty b).a0 = s.a0 := rfl
@[simp] theorem State.scatterTile_a1 (tx ty : Nat) (b : Block) : (s.scatterTile tx ty b).a1 = s.a1 := rfl
@[simp] theorem State.scatterTile_a2 (tx ty : Nat) (b : Block) : (s.scatterTile tx ty b).a2 = s.a2 := rfl
@[simp] theorem State.scatterTile_res (tx ty : Nat) (b : Block) : (s.scatterTile tx ty b).res = s.res := rfl
@[simp] theorem State.scatterTile_width (tx ty : Nat) (b : Block) : (s.scatterTile tx ty b).width = s.width := rfl
@[simp] theorem State.scatterTile_height (tx ty : Nat) (b : Block) : (s.scatterTile tx ty b).height = s.height := rfl
@[simp] theorem State.scatterTile_ilen (tx ty : Nat) (b : Block) : (s.scatterTile tx ty b).ilen = s.ilen := rfl
@[simp] theorem State.scatterTile_olen (tx ty : Nat) (b : Block) : (s.scatterTile tx ty b).olen = s.olen := rfl
@[simp] theorem State.scatterTile_bswByte (tx ty : Nat) (b : Block) : (s.scatterTile tx ty b).bswByte = s.bswByte := rfl
@[simp] theorem State.scatterTile_bswBit (tx ty : Nat) (b : Block) : (s.scatterTile tx ty b).bswBit = s.bswBit := rfl
@[simp] theorem State.scatterTile_bsrByte (tx ty : Nat) (b : Block) : (s.scatterTile tx ty b).bsrByte = s.bsrByte := rfl
@[simp] theorem State.scatterTile_bsrBit (tx ty : Nat) (b : Block) : (s.scatterTile tx ty b).bsrBit = s.bsrBit := rfl
@[simp] theorem State.scatterTile_bsrBase (tx ty : Nat) (b : Block) : (s.scatterTile tx ty b).bsrBase = s.bsrBase := rfl
@[simp] theorem State.scatterTile_bsrLen (tx ty : Nat) (b : Block) : (s.scatterTile tx ty b).bsrLen = s.bsrLen := rfl
@[simp] theorem State.scatterTile_hnbits (tx ty : Nat) (b : Block) : (s.scatterTile tx ty b).hnbits = s.hnbits := rfl
@[simp] theorem State.scatterTile_blk (tx ty : Nat) (b : Block) : (s.scatterTile tx ty b).blk = s.blk := rfl
@[simp] theorem State.scatterTile_hweight (tx ty : Nat) (b : Block) : (s.scatterTile tx ty b).hweight = s.hweight := rfl
@[simp] theorem State.scatterTile_hlink (tx ty : Nat) (b : Block) : (s.scatterTile tx ty b).hlink = s.hlink := rfl
@[simp] theorem State.scatterTile_hlen (tx ty : Nat) (b : Block) : (s.scatterTile tx ty b).hlen = s.hlen := rfl
@[simp] theorem State.scatterTile_ibuf (tx ty : Nat) (b : Block) : (s.scatterTile tx ty b).ibuf = s.ibuf := rfl
@[simp] theorem State.scatterTile_obuf (tx ty : Nat) (b : Block) : (s.scatterTile tx ty b).obuf = s.obuf := rfl
@[simp] theorem State.scatterTile_wbuf (tx ty : Nat) (b : Block) : (s.scatterTile tx ty b).wbuf = s.wbuf := rfl
@[simp] theorem State.scatterTile_frame (tx ty : Nat) (b : Block) : (s.scatterTile tx ty b).frame = scatterElements s.frame s.frameW tx ty b (List.range 64) := rfl
@[simp] theorem State.scatterTile_inbox (tx ty : Nat) (b : Block) : (s.scatterTile tx ty b).inbox = s.inbox := rfl
@[simp] theorem State.scatterTile_hostData (tx ty : Nat) (b : Block) : (s.scatterTile tx ty b).hostData = s.hostData := rfl
@[simp] theorem State.scatterTile_draws (tx ty : Nat) (b : Block) : (s.scatterTile tx ty b).draws = s.draws := rfl

/-! `State.invalidateTables` (43_huffman.md R204) -/

@[simp] theorem State.invalidateTables_cfg : s.invalidateTables.cfg = s.cfg := rfl
@[simp] theorem State.invalidateTables_fault : s.invalidateTables.fault = s.fault := rfl
@[simp] theorem State.invalidateTables_busy : s.invalidateTables.busy = s.busy := rfl
@[simp] theorem State.invalidateTables_bsrValid : s.invalidateTables.bsrValid = s.bsrValid := rfl
@[simp] theorem State.invalidateTables_bsrSrc : s.invalidateTables.bsrSrc = s.bsrSrc := rfl
@[simp] theorem State.invalidateTables_hvalid : s.invalidateTables.hvalid = false := rfl
@[simp] theorem State.invalidateTables_err : s.invalidateTables.err = s.err := rfl
@[simp] theorem State.invalidateTables_errinfo : s.invalidateTables.errinfo = s.errinfo := rfl
@[simp] theorem State.invalidateTables_errcmd : s.invalidateTables.errcmd = s.errcmd := rfl
@[simp] theorem State.invalidateTables_a0 : s.invalidateTables.a0 = s.a0 := rfl
@[simp] theorem State.invalidateTables_a1 : s.invalidateTables.a1 = s.a1 := rfl
@[simp] theorem State.invalidateTables_a2 : s.invalidateTables.a2 = s.a2 := rfl
@[simp] theorem State.invalidateTables_res : s.invalidateTables.res = s.res := rfl
@[simp] theorem State.invalidateTables_width : s.invalidateTables.width = s.width := rfl
@[simp] theorem State.invalidateTables_height : s.invalidateTables.height = s.height := rfl
@[simp] theorem State.invalidateTables_ilen : s.invalidateTables.ilen = s.ilen := rfl
@[simp] theorem State.invalidateTables_olen : s.invalidateTables.olen = s.olen := rfl
@[simp] theorem State.invalidateTables_bswByte : s.invalidateTables.bswByte = s.bswByte := rfl
@[simp] theorem State.invalidateTables_bswBit : s.invalidateTables.bswBit = s.bswBit := rfl
@[simp] theorem State.invalidateTables_bsrByte : s.invalidateTables.bsrByte = s.bsrByte := rfl
@[simp] theorem State.invalidateTables_bsrBit : s.invalidateTables.bsrBit = s.bsrBit := rfl
@[simp] theorem State.invalidateTables_bsrBase : s.invalidateTables.bsrBase = s.bsrBase := rfl
@[simp] theorem State.invalidateTables_bsrLen : s.invalidateTables.bsrLen = s.bsrLen := rfl
@[simp] theorem State.invalidateTables_hnbits : s.invalidateTables.hnbits = s.hnbits := rfl
@[simp] theorem State.invalidateTables_blk : s.invalidateTables.blk = s.blk := rfl
@[simp] theorem State.invalidateTables_hweight : s.invalidateTables.hweight = s.hweight := rfl
@[simp] theorem State.invalidateTables_hlink : s.invalidateTables.hlink = s.hlink := rfl
@[simp] theorem State.invalidateTables_hlen : s.invalidateTables.hlen = s.hlen := rfl
@[simp] theorem State.invalidateTables_ibuf : s.invalidateTables.ibuf = s.ibuf := rfl
@[simp] theorem State.invalidateTables_obuf : s.invalidateTables.obuf = s.obuf := rfl
@[simp] theorem State.invalidateTables_wbuf : s.invalidateTables.wbuf = s.wbuf := rfl
@[simp] theorem State.invalidateTables_frame : s.invalidateTables.frame = s.frame := rfl
@[simp] theorem State.invalidateTables_inbox : s.invalidateTables.inbox = s.inbox := rfl
@[simp] theorem State.invalidateTables_hostData : s.invalidateTables.hostData = s.hostData := rfl
@[simp] theorem State.invalidateTables_draws : s.invalidateTables.draws = s.draws := rfl

/-! `State.detachWbufReader` (40_bitstream.md R124) -/

@[simp] theorem State.detachWbufReader_cfg : s.detachWbufReader.cfg = s.cfg := rfl
@[simp] theorem State.detachWbufReader_fault : s.detachWbufReader.fault = s.fault := rfl
@[simp] theorem State.detachWbufReader_busy : s.detachWbufReader.busy = s.busy := rfl
@[simp] theorem State.detachWbufReader_bsrValid : s.detachWbufReader.bsrValid = (s.bsrValid && s.bsrSrc != .wbuf) := rfl
@[simp] theorem State.detachWbufReader_bsrSrc : s.detachWbufReader.bsrSrc = s.bsrSrc := rfl
@[simp] theorem State.detachWbufReader_hvalid : s.detachWbufReader.hvalid = s.hvalid := rfl
@[simp] theorem State.detachWbufReader_err : s.detachWbufReader.err = s.err := rfl
@[simp] theorem State.detachWbufReader_errinfo : s.detachWbufReader.errinfo = s.errinfo := rfl
@[simp] theorem State.detachWbufReader_errcmd : s.detachWbufReader.errcmd = s.errcmd := rfl
@[simp] theorem State.detachWbufReader_a0 : s.detachWbufReader.a0 = s.a0 := rfl
@[simp] theorem State.detachWbufReader_a1 : s.detachWbufReader.a1 = s.a1 := rfl
@[simp] theorem State.detachWbufReader_a2 : s.detachWbufReader.a2 = s.a2 := rfl
@[simp] theorem State.detachWbufReader_res : s.detachWbufReader.res = s.res := rfl
@[simp] theorem State.detachWbufReader_width : s.detachWbufReader.width = s.width := rfl
@[simp] theorem State.detachWbufReader_height : s.detachWbufReader.height = s.height := rfl
@[simp] theorem State.detachWbufReader_ilen : s.detachWbufReader.ilen = s.ilen := rfl
@[simp] theorem State.detachWbufReader_olen : s.detachWbufReader.olen = s.olen := rfl
@[simp] theorem State.detachWbufReader_bswByte : s.detachWbufReader.bswByte = s.bswByte := rfl
@[simp] theorem State.detachWbufReader_bswBit : s.detachWbufReader.bswBit = s.bswBit := rfl
@[simp] theorem State.detachWbufReader_bsrByte : s.detachWbufReader.bsrByte = s.bsrByte := rfl
@[simp] theorem State.detachWbufReader_bsrBit : s.detachWbufReader.bsrBit = s.bsrBit := rfl
@[simp] theorem State.detachWbufReader_bsrBase : s.detachWbufReader.bsrBase = s.bsrBase := rfl
@[simp] theorem State.detachWbufReader_bsrLen : s.detachWbufReader.bsrLen = s.bsrLen := rfl
@[simp] theorem State.detachWbufReader_hnbits : s.detachWbufReader.hnbits = s.hnbits := rfl
@[simp] theorem State.detachWbufReader_blk : s.detachWbufReader.blk = s.blk := rfl
@[simp] theorem State.detachWbufReader_hweight : s.detachWbufReader.hweight = s.hweight := rfl
@[simp] theorem State.detachWbufReader_hlink : s.detachWbufReader.hlink = s.hlink := rfl
@[simp] theorem State.detachWbufReader_hlen : s.detachWbufReader.hlen = s.hlen := rfl
@[simp] theorem State.detachWbufReader_ibuf : s.detachWbufReader.ibuf = s.ibuf := rfl
@[simp] theorem State.detachWbufReader_obuf : s.detachWbufReader.obuf = s.obuf := rfl
@[simp] theorem State.detachWbufReader_wbuf : s.detachWbufReader.wbuf = s.wbuf := rfl
@[simp] theorem State.detachWbufReader_frame : s.detachWbufReader.frame = s.frame := rfl
@[simp] theorem State.detachWbufReader_inbox : s.detachWbufReader.inbox = s.inbox := rfl
@[simp] theorem State.detachWbufReader_hostData : s.detachWbufReader.hostData = s.hostData := rfl
@[simp] theorem State.detachWbufReader_draws : s.detachWbufReader.draws = s.draws := rfl

/-! `State.freshWriter` (40_bitstream.md R121) -/

@[simp] theorem State.freshWriter_cfg : s.freshWriter.cfg = s.cfg := rfl
@[simp] theorem State.freshWriter_fault : s.freshWriter.fault = s.fault := rfl
@[simp] theorem State.freshWriter_busy : s.freshWriter.busy = s.busy := rfl
@[simp] theorem State.freshWriter_bsrValid : s.freshWriter.bsrValid = s.bsrValid := rfl
@[simp] theorem State.freshWriter_bsrSrc : s.freshWriter.bsrSrc = s.bsrSrc := rfl
@[simp] theorem State.freshWriter_hvalid : s.freshWriter.hvalid = s.hvalid := rfl
@[simp] theorem State.freshWriter_err : s.freshWriter.err = s.err := rfl
@[simp] theorem State.freshWriter_errinfo : s.freshWriter.errinfo = s.errinfo := rfl
@[simp] theorem State.freshWriter_errcmd : s.freshWriter.errcmd = s.errcmd := rfl
@[simp] theorem State.freshWriter_a0 : s.freshWriter.a0 = s.a0 := rfl
@[simp] theorem State.freshWriter_a1 : s.freshWriter.a1 = s.a1 := rfl
@[simp] theorem State.freshWriter_a2 : s.freshWriter.a2 = s.a2 := rfl
@[simp] theorem State.freshWriter_res : s.freshWriter.res = s.res := rfl
@[simp] theorem State.freshWriter_width : s.freshWriter.width = s.width := rfl
@[simp] theorem State.freshWriter_height : s.freshWriter.height = s.height := rfl
@[simp] theorem State.freshWriter_ilen : s.freshWriter.ilen = s.ilen := rfl
@[simp] theorem State.freshWriter_olen : s.freshWriter.olen = s.olen := rfl
@[simp] theorem State.freshWriter_bswByte : s.freshWriter.bswByte = 0#32 := rfl
@[simp] theorem State.freshWriter_bswBit : s.freshWriter.bswBit = 0#3 := rfl
@[simp] theorem State.freshWriter_bsrByte : s.freshWriter.bsrByte = s.bsrByte := rfl
@[simp] theorem State.freshWriter_bsrBit : s.freshWriter.bsrBit = s.bsrBit := rfl
@[simp] theorem State.freshWriter_bsrBase : s.freshWriter.bsrBase = s.bsrBase := rfl
@[simp] theorem State.freshWriter_bsrLen : s.freshWriter.bsrLen = s.bsrLen := rfl
@[simp] theorem State.freshWriter_hnbits : s.freshWriter.hnbits = s.hnbits := rfl
@[simp] theorem State.freshWriter_blk : s.freshWriter.blk = s.blk := rfl
@[simp] theorem State.freshWriter_hweight : s.freshWriter.hweight = s.hweight := rfl
@[simp] theorem State.freshWriter_hlink : s.freshWriter.hlink = s.hlink := rfl
@[simp] theorem State.freshWriter_hlen : s.freshWriter.hlen = s.hlen := rfl
@[simp] theorem State.freshWriter_ibuf : s.freshWriter.ibuf = s.ibuf := rfl
@[simp] theorem State.freshWriter_obuf : s.freshWriter.obuf = s.obuf := rfl
@[simp] theorem State.freshWriter_wbuf : s.freshWriter.wbuf = s.wbuf.write 0 0#8 := rfl
@[simp] theorem State.freshWriter_frame : s.freshWriter.frame = s.frame := rfl
@[simp] theorem State.freshWriter_inbox : s.freshWriter.inbox = s.inbox := rfl
@[simp] theorem State.freshWriter_hostData : s.freshWriter.hostData = s.hostData := rfl
@[simp] theorem State.freshWriter_draws : s.freshWriter.draws = s.draws := rfl

/-! `State.attachReader` (40_bitstream.md R123) -/

@[simp] theorem State.attachReader_cfg (src : Source) (off total : Nat) : (s.attachReader src off total).cfg = s.cfg := rfl
@[simp] theorem State.attachReader_fault (src : Source) (off total : Nat) : (s.attachReader src off total).fault = s.fault := rfl
@[simp] theorem State.attachReader_busy (src : Source) (off total : Nat) : (s.attachReader src off total).busy = s.busy := rfl
@[simp] theorem State.attachReader_bsrValid (src : Source) (off total : Nat) : (s.attachReader src off total).bsrValid = true := rfl
@[simp] theorem State.attachReader_bsrSrc (src : Source) (off total : Nat) : (s.attachReader src off total).bsrSrc = src := rfl
@[simp] theorem State.attachReader_hvalid (src : Source) (off total : Nat) : (s.attachReader src off total).hvalid = s.hvalid := rfl
@[simp] theorem State.attachReader_err (src : Source) (off total : Nat) : (s.attachReader src off total).err = s.err := rfl
@[simp] theorem State.attachReader_errinfo (src : Source) (off total : Nat) : (s.attachReader src off total).errinfo = s.errinfo := rfl
@[simp] theorem State.attachReader_errcmd (src : Source) (off total : Nat) : (s.attachReader src off total).errcmd = s.errcmd := rfl
@[simp] theorem State.attachReader_a0 (src : Source) (off total : Nat) : (s.attachReader src off total).a0 = s.a0 := rfl
@[simp] theorem State.attachReader_a1 (src : Source) (off total : Nat) : (s.attachReader src off total).a1 = s.a1 := rfl
@[simp] theorem State.attachReader_a2 (src : Source) (off total : Nat) : (s.attachReader src off total).a2 = s.a2 := rfl
@[simp] theorem State.attachReader_res (src : Source) (off total : Nat) : (s.attachReader src off total).res = s.res := rfl
@[simp] theorem State.attachReader_width (src : Source) (off total : Nat) : (s.attachReader src off total).width = s.width := rfl
@[simp] theorem State.attachReader_height (src : Source) (off total : Nat) : (s.attachReader src off total).height = s.height := rfl
@[simp] theorem State.attachReader_ilen (src : Source) (off total : Nat) : (s.attachReader src off total).ilen = s.ilen := rfl
@[simp] theorem State.attachReader_olen (src : Source) (off total : Nat) : (s.attachReader src off total).olen = s.olen := rfl
@[simp] theorem State.attachReader_bswByte (src : Source) (off total : Nat) : (s.attachReader src off total).bswByte = s.bswByte := rfl
@[simp] theorem State.attachReader_bswBit (src : Source) (off total : Nat) : (s.attachReader src off total).bswBit = s.bswBit := rfl
@[simp] theorem State.attachReader_bsrByte (src : Source) (off total : Nat) : (s.attachReader src off total).bsrByte = 0#32 := rfl
@[simp] theorem State.attachReader_bsrBit (src : Source) (off total : Nat) : (s.attachReader src off total).bsrBit = 0#3 := rfl
@[simp] theorem State.attachReader_bsrBase (src : Source) (off total : Nat) : (s.attachReader src off total).bsrBase = BitVec.ofNat 32 off := rfl
@[simp] theorem State.attachReader_bsrLen (src : Source) (off total : Nat) : (s.attachReader src off total).bsrLen = BitVec.ofNat 32 (total - off) := rfl
@[simp] theorem State.attachReader_hnbits (src : Source) (off total : Nat) : (s.attachReader src off total).hnbits = s.hnbits := rfl
@[simp] theorem State.attachReader_blk (src : Source) (off total : Nat) : (s.attachReader src off total).blk = s.blk := rfl
@[simp] theorem State.attachReader_hweight (src : Source) (off total : Nat) : (s.attachReader src off total).hweight = s.hweight := rfl
@[simp] theorem State.attachReader_hlink (src : Source) (off total : Nat) : (s.attachReader src off total).hlink = s.hlink := rfl
@[simp] theorem State.attachReader_hlen (src : Source) (off total : Nat) : (s.attachReader src off total).hlen = s.hlen := rfl
@[simp] theorem State.attachReader_ibuf (src : Source) (off total : Nat) : (s.attachReader src off total).ibuf = s.ibuf := rfl
@[simp] theorem State.attachReader_obuf (src : Source) (off total : Nat) : (s.attachReader src off total).obuf = s.obuf := rfl
@[simp] theorem State.attachReader_wbuf (src : Source) (off total : Nat) : (s.attachReader src off total).wbuf = s.wbuf := rfl
@[simp] theorem State.attachReader_frame (src : Source) (off total : Nat) : (s.attachReader src off total).frame = s.frame := rfl
@[simp] theorem State.attachReader_inbox (src : Source) (off total : Nat) : (s.attachReader src off total).inbox = s.inbox := rfl
@[simp] theorem State.attachReader_hostData (src : Source) (off total : Nat) : (s.attachReader src off total).hostData = s.hostData := rfl
@[simp] theorem State.attachReader_draws (src : Source) (off total : Nat) : (s.attachReader src off total).draws = s.draws := rfl

/-! `State.produce` (20_memory.md R62) -/

@[simp] theorem State.produce_cfg (bytes : List Byte) : (s.produce bytes).cfg = s.cfg := rfl
@[simp] theorem State.produce_fault (bytes : List Byte) : (s.produce bytes).fault = s.fault := rfl
@[simp] theorem State.produce_busy (bytes : List Byte) : (s.produce bytes).busy = s.busy := rfl
@[simp] theorem State.produce_bsrValid (bytes : List Byte) : (s.produce bytes).bsrValid = s.bsrValid := rfl
@[simp] theorem State.produce_bsrSrc (bytes : List Byte) : (s.produce bytes).bsrSrc = s.bsrSrc := rfl
@[simp] theorem State.produce_hvalid (bytes : List Byte) : (s.produce bytes).hvalid = s.hvalid := rfl
@[simp] theorem State.produce_err (bytes : List Byte) : (s.produce bytes).err = s.err := rfl
@[simp] theorem State.produce_errinfo (bytes : List Byte) : (s.produce bytes).errinfo = s.errinfo := rfl
@[simp] theorem State.produce_errcmd (bytes : List Byte) : (s.produce bytes).errcmd = s.errcmd := rfl
@[simp] theorem State.produce_a0 (bytes : List Byte) : (s.produce bytes).a0 = s.a0 := rfl
@[simp] theorem State.produce_a1 (bytes : List Byte) : (s.produce bytes).a1 = s.a1 := rfl
@[simp] theorem State.produce_a2 (bytes : List Byte) : (s.produce bytes).a2 = s.a2 := rfl
@[simp] theorem State.produce_res (bytes : List Byte) : (s.produce bytes).res = s.res := rfl
@[simp] theorem State.produce_width (bytes : List Byte) : (s.produce bytes).width = s.width := rfl
@[simp] theorem State.produce_height (bytes : List Byte) : (s.produce bytes).height = s.height := rfl
@[simp] theorem State.produce_ilen (bytes : List Byte) : (s.produce bytes).ilen = s.ilen := rfl
@[simp] theorem State.produce_olen (bytes : List Byte) : (s.produce bytes).olen = BitVec.ofNat 32 bytes.length := rfl
@[simp] theorem State.produce_bswByte (bytes : List Byte) : (s.produce bytes).bswByte = s.bswByte := rfl
@[simp] theorem State.produce_bswBit (bytes : List Byte) : (s.produce bytes).bswBit = s.bswBit := rfl
@[simp] theorem State.produce_bsrByte (bytes : List Byte) : (s.produce bytes).bsrByte = s.bsrByte := rfl
@[simp] theorem State.produce_bsrBit (bytes : List Byte) : (s.produce bytes).bsrBit = s.bsrBit := rfl
@[simp] theorem State.produce_bsrBase (bytes : List Byte) : (s.produce bytes).bsrBase = s.bsrBase := rfl
@[simp] theorem State.produce_bsrLen (bytes : List Byte) : (s.produce bytes).bsrLen = s.bsrLen := rfl
@[simp] theorem State.produce_hnbits (bytes : List Byte) : (s.produce bytes).hnbits = s.hnbits := rfl
@[simp] theorem State.produce_blk (bytes : List Byte) : (s.produce bytes).blk = s.blk := rfl
@[simp] theorem State.produce_hweight (bytes : List Byte) : (s.produce bytes).hweight = s.hweight := rfl
@[simp] theorem State.produce_hlink (bytes : List Byte) : (s.produce bytes).hlink = s.hlink := rfl
@[simp] theorem State.produce_hlen (bytes : List Byte) : (s.produce bytes).hlen = s.hlen := rfl
@[simp] theorem State.produce_ibuf (bytes : List Byte) : (s.produce bytes).ibuf = s.ibuf := rfl
@[simp] theorem State.produce_obuf (bytes : List Byte) : (s.produce bytes).obuf = Mem.loaded bytes s.cfg.obufCap s.draws := rfl
@[simp] theorem State.produce_wbuf (bytes : List Byte) : (s.produce bytes).wbuf = s.wbuf := rfl
@[simp] theorem State.produce_frame (bytes : List Byte) : (s.produce bytes).frame = s.frame := rfl
@[simp] theorem State.produce_inbox (bytes : List Byte) : (s.produce bytes).inbox = s.inbox := rfl
@[simp] theorem State.produce_hostData (bytes : List Byte) : (s.produce bytes).hostData = s.hostData := rfl
@[simp] theorem State.produce_draws (bytes : List Byte) : (s.produce bytes).draws = s.draws + 1 := rfl

/-! `State.obufUnspecified` (43_huffman.md R223) -/

@[simp] theorem State.obufUnspecified_cfg : s.obufUnspecified.cfg = s.cfg := rfl
@[simp] theorem State.obufUnspecified_fault : s.obufUnspecified.fault = s.fault := rfl
@[simp] theorem State.obufUnspecified_busy : s.obufUnspecified.busy = s.busy := rfl
@[simp] theorem State.obufUnspecified_bsrValid : s.obufUnspecified.bsrValid = s.bsrValid := rfl
@[simp] theorem State.obufUnspecified_bsrSrc : s.obufUnspecified.bsrSrc = s.bsrSrc := rfl
@[simp] theorem State.obufUnspecified_hvalid : s.obufUnspecified.hvalid = s.hvalid := rfl
@[simp] theorem State.obufUnspecified_err : s.obufUnspecified.err = s.err := rfl
@[simp] theorem State.obufUnspecified_errinfo : s.obufUnspecified.errinfo = s.errinfo := rfl
@[simp] theorem State.obufUnspecified_errcmd : s.obufUnspecified.errcmd = s.errcmd := rfl
@[simp] theorem State.obufUnspecified_a0 : s.obufUnspecified.a0 = s.a0 := rfl
@[simp] theorem State.obufUnspecified_a1 : s.obufUnspecified.a1 = s.a1 := rfl
@[simp] theorem State.obufUnspecified_a2 : s.obufUnspecified.a2 = s.a2 := rfl
@[simp] theorem State.obufUnspecified_res : s.obufUnspecified.res = s.res := rfl
@[simp] theorem State.obufUnspecified_width : s.obufUnspecified.width = s.width := rfl
@[simp] theorem State.obufUnspecified_height : s.obufUnspecified.height = s.height := rfl
@[simp] theorem State.obufUnspecified_ilen : s.obufUnspecified.ilen = s.ilen := rfl
@[simp] theorem State.obufUnspecified_olen : s.obufUnspecified.olen = s.olen := rfl
@[simp] theorem State.obufUnspecified_bswByte : s.obufUnspecified.bswByte = s.bswByte := rfl
@[simp] theorem State.obufUnspecified_bswBit : s.obufUnspecified.bswBit = s.bswBit := rfl
@[simp] theorem State.obufUnspecified_bsrByte : s.obufUnspecified.bsrByte = s.bsrByte := rfl
@[simp] theorem State.obufUnspecified_bsrBit : s.obufUnspecified.bsrBit = s.bsrBit := rfl
@[simp] theorem State.obufUnspecified_bsrBase : s.obufUnspecified.bsrBase = s.bsrBase := rfl
@[simp] theorem State.obufUnspecified_bsrLen : s.obufUnspecified.bsrLen = s.bsrLen := rfl
@[simp] theorem State.obufUnspecified_hnbits : s.obufUnspecified.hnbits = s.hnbits := rfl
@[simp] theorem State.obufUnspecified_blk : s.obufUnspecified.blk = s.blk := rfl
@[simp] theorem State.obufUnspecified_hweight : s.obufUnspecified.hweight = s.hweight := rfl
@[simp] theorem State.obufUnspecified_hlink : s.obufUnspecified.hlink = s.hlink := rfl
@[simp] theorem State.obufUnspecified_hlen : s.obufUnspecified.hlen = s.hlen := rfl
@[simp] theorem State.obufUnspecified_ibuf : s.obufUnspecified.ibuf = s.ibuf := rfl
@[simp] theorem State.obufUnspecified_obuf : s.obufUnspecified.obuf = s.obuf.havoc 0 s.cfg.obufCap s.draws true := rfl
@[simp] theorem State.obufUnspecified_wbuf : s.obufUnspecified.wbuf = s.wbuf := rfl
@[simp] theorem State.obufUnspecified_frame : s.obufUnspecified.frame = s.frame := rfl
@[simp] theorem State.obufUnspecified_inbox : s.obufUnspecified.inbox = s.inbox := rfl
@[simp] theorem State.obufUnspecified_hostData : s.obufUnspecified.hostData = s.hostData := rfl
@[simp] theorem State.obufUnspecified_draws : s.obufUnspecified.draws = s.draws + 1 := rfl

/-! `State.frameUnspecified` (44_pipeline_system.md R244) -/

@[simp] theorem State.frameUnspecified_cfg : s.frameUnspecified.cfg = s.cfg := rfl
@[simp] theorem State.frameUnspecified_fault : s.frameUnspecified.fault = s.fault := rfl
@[simp] theorem State.frameUnspecified_busy : s.frameUnspecified.busy = s.busy := rfl
@[simp] theorem State.frameUnspecified_bsrValid : s.frameUnspecified.bsrValid = s.bsrValid := rfl
@[simp] theorem State.frameUnspecified_bsrSrc : s.frameUnspecified.bsrSrc = s.bsrSrc := rfl
@[simp] theorem State.frameUnspecified_hvalid : s.frameUnspecified.hvalid = s.hvalid := rfl
@[simp] theorem State.frameUnspecified_err : s.frameUnspecified.err = s.err := rfl
@[simp] theorem State.frameUnspecified_errinfo : s.frameUnspecified.errinfo = s.errinfo := rfl
@[simp] theorem State.frameUnspecified_errcmd : s.frameUnspecified.errcmd = s.errcmd := rfl
@[simp] theorem State.frameUnspecified_a0 : s.frameUnspecified.a0 = s.a0 := rfl
@[simp] theorem State.frameUnspecified_a1 : s.frameUnspecified.a1 = s.a1 := rfl
@[simp] theorem State.frameUnspecified_a2 : s.frameUnspecified.a2 = s.a2 := rfl
@[simp] theorem State.frameUnspecified_res : s.frameUnspecified.res = s.res := rfl
@[simp] theorem State.frameUnspecified_width : s.frameUnspecified.width = s.width := rfl
@[simp] theorem State.frameUnspecified_height : s.frameUnspecified.height = s.height := rfl
@[simp] theorem State.frameUnspecified_ilen : s.frameUnspecified.ilen = s.ilen := rfl
@[simp] theorem State.frameUnspecified_olen : s.frameUnspecified.olen = s.olen := rfl
@[simp] theorem State.frameUnspecified_bswByte : s.frameUnspecified.bswByte = s.bswByte := rfl
@[simp] theorem State.frameUnspecified_bswBit : s.frameUnspecified.bswBit = s.bswBit := rfl
@[simp] theorem State.frameUnspecified_bsrByte : s.frameUnspecified.bsrByte = s.bsrByte := rfl
@[simp] theorem State.frameUnspecified_bsrBit : s.frameUnspecified.bsrBit = s.bsrBit := rfl
@[simp] theorem State.frameUnspecified_bsrBase : s.frameUnspecified.bsrBase = s.bsrBase := rfl
@[simp] theorem State.frameUnspecified_bsrLen : s.frameUnspecified.bsrLen = s.bsrLen := rfl
@[simp] theorem State.frameUnspecified_hnbits : s.frameUnspecified.hnbits = s.hnbits := rfl
@[simp] theorem State.frameUnspecified_blk : s.frameUnspecified.blk = s.blk := rfl
@[simp] theorem State.frameUnspecified_hweight : s.frameUnspecified.hweight = s.hweight := rfl
@[simp] theorem State.frameUnspecified_hlink : s.frameUnspecified.hlink = s.hlink := rfl
@[simp] theorem State.frameUnspecified_hlen : s.frameUnspecified.hlen = s.hlen := rfl
@[simp] theorem State.frameUnspecified_ibuf : s.frameUnspecified.ibuf = s.ibuf := rfl
@[simp] theorem State.frameUnspecified_obuf : s.frameUnspecified.obuf = s.obuf := rfl
@[simp] theorem State.frameUnspecified_wbuf : s.frameUnspecified.wbuf = s.wbuf := rfl
@[simp] theorem State.frameUnspecified_frame : s.frameUnspecified.frame = s.frame.havoc 0 s.flen s.draws true := rfl
@[simp] theorem State.frameUnspecified_inbox : s.frameUnspecified.inbox = s.inbox := rfl
@[simp] theorem State.frameUnspecified_hostData : s.frameUnspecified.hostData = s.hostData := rfl
@[simp] theorem State.frameUnspecified_draws : s.frameUnspecified.draws = s.draws + 1 := rfl

end Sys2Proof.Machine
end

