-- ==== Sys2Proof/Laws/Ops.lean ====
section
/-! SUPPORT. What each shared operation can do: the checks, the fault entry, a read or write of one element in the terms of
Sys2Proof/Safety.lean. -/

namespace Sys2Proof.Machine

/-! ### Elements of a memory -/

theorem SameAt.refl (m : Mem) (a : Nat) : SameAt m m a := ⟨rfl, rfl⟩

theorem SameAt.symm {m m' : Mem} {a : Nat} (h : SameAt m m' a) : SameAt m' m a := ⟨h.1.symm, h.2.symm⟩

theorem SameAt.trans {m m' m'' : Mem} {a : Nat} (h : SameAt m m' a) (h' : SameAt m' m'' a) : SameAt m m'' a :=
  ⟨h.1.trans h'.1, h.2.trans h'.2⟩

theorem holdsAt_congr {m m' : Mem} {a : Nat} {b : Byte} (h : SameAt m m' a) : HoldsAt m a b ↔ HoldsAt m' a b := by
  simp [HoldsAt, h.1, h.2]

theorem holdsAt_write (m : Mem) (a : Nat) (b : Byte) : HoldsAt (m.write a b) a b := ⟨by simp, by simp⟩

theorem sameAt_write (m : Mem) {i a : Nat} (b : Byte) (h : a ≠ i) : SameAt (m.write i b) m a :=
  ⟨Mem.read_write_other m b h, Mem.hostRead_write_other m b h⟩

theorem hostRead_of_drawAt_none {m : Mem} {a : Nat} (h : m.drawAt a = none) : m.hostRead a = some (m.read a) := by
  rw [Mem.hostRead_eq, h]

theorem holdsFrom_loaded (bytes : List Byte) (cap draw : Nat) : HoldsFrom (Mem.loaded bytes cap draw) 0 bytes := by
  intro k b hk
  obtain ⟨hl, hb⟩ := List.getElem?_eq_some_iff.1 hk
  have hr : (Mem.loaded bytes cap draw).read k = b := by rw [Mem.read_loaded bytes cap draw k hl, hb]
  have hd : (Mem.loaded bytes cap draw).drawAt k = none := by
    rw [Mem.drawAt_loaded, if_neg fun h => absurd h.1 (Nat.not_le.2 hl)]
  rw [Nat.zero_add]
  exact ⟨hr, by rw [hostRead_of_drawAt_none hd, hr]⟩

theorem unspecifiedAt_loaded (bytes : List Byte) {cap a : Nat} (draw : Nat) (h1 : bytes.length ≤ a) (h2 : a < cap) :
    UnspecifiedAt (Mem.loaded bytes cap draw) a := by
  rw [UnspecifiedAt, Mem.hostRead_eq, Mem.drawAt_loaded, if_pos ⟨h1, h2⟩]

theorem unspecifiedAt_havoc (m : Mem) {lo hi a : Nat} (draw : Nat) (h1 : lo ≤ a) (h2 : a < hi) :
    UnspecifiedAt (m.havoc lo hi draw true) a := by
  rw [UnspecifiedAt, Mem.hostRead_eq, Mem.drawAt_havoc, if_pos ⟨h1, h2⟩]

theorem holdsAt_havoc (m : Mem) {lo hi a : Nat} (draw : Nat) (h1 : lo ≤ a) (h2 : a < hi) :
    HoldsAt (m.havoc lo hi draw false) a (Config.freeByte draw a) := by
  have hr : (m.havoc lo hi draw false).read a = Config.freeByte draw a := by rw [Mem.read_havoc, if_pos ⟨h1, h2⟩]
  refine ⟨hr, ?_⟩
  rw [Mem.hostRead_eq, Mem.drawAt_havoc, if_pos ⟨h1, h2⟩]
  simp [hr]

theorem sameAt_havoc (m : Mem) {lo hi a : Nat} (draw : Nat) (redrawn : Bool) (h : ¬(lo ≤ a ∧ a < hi)) :
    SameAt (m.havoc lo hi draw redrawn) m a :=
  ⟨by rw [Mem.read_havoc, if_neg h], Mem.hostRead_havoc_other m draw redrawn h⟩

theorem sameAt_writeList (m : Mem) (bytes : List Byte) {i a : Nat} (h : ¬(i ≤ a ∧ a < i + bytes.length)) :
    SameAt (m.writeList i bytes) m a := by
  induction bytes generalizing m i with
  | nil => exact SameAt.refl m a
  | cons b bytes ih =>
    simp only [List.length_cons] at h
    exact (ih (m.write i b) (by omega)).trans (sameAt_write m b (by omega))

theorem holdsFrom_writeList (m : Mem) (i : Nat) (bytes : List Byte) : HoldsFrom (m.writeList i bytes) i bytes := by
  induction bytes generalizing m i with
  | nil => intro k b h; simp at h
  | cons x bytes ih =>
    intro k b h
    cases k with
    | zero =>
      simp only [List.getElem?_cons_zero, Option.some.injEq] at h
      subst h
      exact (holdsAt_congr (sameAt_writeList _ bytes (by omega))).2 (holdsAt_write m i x)
    | succ k =>
      have := ih (m.write i x) (i + 1) k b (by simpa using h)
      rwa [Nat.add_assoc, Nat.add_comm 1 k] at this

/-! ### The checks -/

theorem badGeometry_eq_false_iff (s : State) : s.badGeometry = false ↔ GeometryOk s := by
  have e : (decide (s.cfg.frameCap < s.flen) = false) ↔ 6 * (s.width.toNat / 2 * (s.height.toNat / 2)) ≤ s.cfg.frameCap := by
    rw [decide_eq_false_iff_not, Nat.not_lt]; rfl
  simp only [State.badGeometry, GeometryOk, State.frameW, State.frameH, Bool.or_eq_false_iff, beq_eq_false_iff_ne, e]
  omega

theorem badGeometry_iff (s : State) : s.badGeometry = true ↔ ¬GeometryOk s := by
  rw [← badGeometry_eq_false_iff]; cases s.badGeometry <;> simp

theorem withGeometry_ok {s : State} (h : GeometryOk s) (cmd : Word) (rest : Result) : withGeometry cmd s rest = rest := by
  simp [withGeometry, (badGeometry_eq_false_iff s).2 h]

theorem withGeometry_bad {s : State} (h : ¬GeometryOk s) (cmd : Word) (rest : Result) :
    withGeometry cmd s rest = raise cmd .geom (s.height.toNat * 65536 + s.width.toNat) s := by
  simp [withGeometry, (badGeometry_iff s).2 h, State.geometryInfo, State.frameH, State.frameW]

theorem withPixel_ok {s : State} (h : PixelOk s) (cmd : Word) (rest : Result) : withPixel cmd s rest = rest := by
  have h1 : ¬s.frameW ≤ s.pixelX := Nat.not_le.2 h.1
  have h2 : ¬s.frameH ≤ s.pixelY := Nat.not_le.2 h.2
  simp [withPixel, h1, h2]

theorem withPixel_badX {s : State} (h : s.width.toNat ≤ s.a0.toNat) (cmd : Word) (rest : Result) :
    withPixel cmd s rest = raise cmd .range s.a0.toNat s := if_pos h

theorem withPixel_badY {s : State} (hx : s.a0.toNat < s.width.toNat) (h : s.height.toNat ≤ s.a1.toNat) (cmd : Word)
    (rest : Result) : withPixel cmd s rest = raise cmd .range s.a1.toNat s := by
  have h1 : ¬s.frameW ≤ s.pixelX := Nat.not_le.2 hx
  have h2 : s.frameH ≤ s.pixelY := h
  rw [withPixel, if_neg h1, if_pos h2]; rfl

theorem withTile_ok {s : State} (h : TileOk s) (cmd : Word) (rest : Result) : withTile cmd s rest = rest := by
  have h1 : ¬s.tilesWide ≤ s.tileCol := Nat.not_le.2 h.1
  have h2 : ¬s.tilesHigh ≤ s.tileRow := Nat.not_le.2 h.2
  simp [withTile, h1, h2]

theorem withTile_badX {s : State} (h : s.width.toNat / 8 ≤ s.a0.toNat) (cmd : Word) (rest : Result) :
    withTile cmd s rest = raise cmd .range s.a0.toNat s := if_pos h

theorem withTile_badY {s : State} (hx : s.a0.toNat < s.width.toNat / 8) (h : s.height.toNat / 8 ≤ s.a1.toNat) (cmd : Word)
    (rest : Result) : withTile cmd s rest = raise cmd .range s.a1.toNat s := by
  have h1 : ¬s.tilesWide ≤ s.tileCol := Nat.not_le.2 hx
  have h2 : s.tilesHigh ≤ s.tileRow := h
  rw [withTile, if_neg h1, if_pos h2]; rfl

theorem withInput_ok {s : State} (h : InputOk s) (cmd : Word) (rest : Result) : withInput cmd s rest = rest :=
  if_neg (Nat.not_lt.2 h)

theorem withInput_bad {s : State} (h : ¬InputOk s) (cmd : Word) (rest : Result) :
    withInput cmd s rest = raise cmd .range s.ilen.toNat s := if_pos (Nat.not_le.1 h)

theorem withSample_ok {s : State} (h : s.a2.toNat ≤ 255) (cmd : Word) (rest : Result) : withSample cmd s rest = rest :=
  if_neg (Nat.not_lt.2 h)

theorem withSample_bad {s : State} (h : 255 < s.a2.toNat) (cmd : Word) (rest : Result) :
    withSample cmd s rest = raise cmd .range s.a2.toNat s := if_pos h

theorem withElement_ok {s : State} {sp : ByteSpace} {i : Nat} (h : i < sp.size s.cfg) (rest : Result) :
    withElement sp i s rest = rest := if_pos h

theorem withElement_bad {s : State} {sp : ByteSpace} {i : Nat} (h : sp.size s.cfg ≤ i) (rest : Result) :
    withElement sp i s rest = .fault (.outsideSpace sp i) := if_neg (Nat.not_lt.2 h)

/-! ### Fault entry -/

theorem raise_eq (cmd : Word) (c : ErrCode) (info : Nat) (s : State) :
    raise cmd c info s = .next (s.afterFault cmd c.value info) := rfl

/-- What a check can answer: the fault it raises, or the rest of the command. -/
theorem withGeometry_cases (cmd : Word) (s : State) (rest : Result) :
    (GeometryOk s ∧ withGeometry cmd s rest = rest)
      ∨ (¬GeometryOk s ∧ ∃ info, withGeometry cmd s rest = .next (s.afterFault cmd 6#4 info)) := by
  by_cases h : GeometryOk s
  · exact .inl ⟨h, withGeometry_ok h cmd rest⟩
  · exact .inr ⟨h, _, withGeometry_bad h cmd rest⟩

theorem withPixel_cases (cmd : Word) (s : State) (rest : Result) :
    (PixelOk s ∧ withPixel cmd s rest = rest)
      ∨ (¬PixelOk s ∧ ∃ info, withPixel cmd s rest = .next (s.afterFault cmd 5#4 info)) := by
  by_cases hx : s.width.toNat ≤ s.a0.toNat
  · exact .inr ⟨fun h => absurd h.1 (by omega), _, withPixel_badX hx cmd rest⟩
  by_cases hy : s.height.toNat ≤ s.a1.toNat
  · exact .inr ⟨fun h => absurd h.2 (by omega), _, withPixel_badY (by omega) hy cmd rest⟩
  have h : PixelOk s := ⟨by omega, by omega⟩
  exact .inl ⟨h, withPixel_ok h cmd rest⟩

theorem withTile_cases (cmd : Word) (s : State) (rest : Result) :
    (TileOk s ∧ withTile cmd s rest = rest)
      ∨ (¬TileOk s ∧ ∃ info, withTile cmd s rest = .next (s.afterFault cmd 5#4 info)) := by
  by_cases hx : s.width.toNat / 8 ≤ s.a0.toNat
  · exact .inr ⟨fun h => absurd h.1 (by omega), _, withTile_badX hx cmd rest⟩
  by_cases hy : s.height.toNat / 8 ≤ s.a1.toNat
  · exact .inr ⟨fun h => absurd h.2 (by omega), _, withTile_badY (by omega) hy cmd rest⟩
  have h : TileOk s := ⟨by omega, by omega⟩
  exact .inl ⟨h, withTile_ok h cmd rest⟩

theorem withInput_cases (cmd : Word) (s : State) (rest : Result) :
    (InputOk s ∧ withInput cmd s rest = rest)
      ∨ (¬InputOk s ∧ ∃ info, withInput cmd s rest = .next (s.afterFault cmd 5#4 info)) := by
  by_cases h : InputOk s
  · exact .inl ⟨h, withInput_ok h cmd rest⟩
  · exact .inr ⟨h, _, withInput_bad h cmd rest⟩

theorem withSample_cases (cmd : Word) (s : State) (rest : Result) :
    (s.a2.toNat ≤ 255 ∧ withSample cmd s rest = rest)
      ∨ (255 < s.a2.toNat ∧ ∃ info, withSample cmd s rest = .next (s.afterFault cmd 5#4 info)) := by
  by_cases h : s.a2.toNat ≤ 255
  · exact .inl ⟨h, withSample_ok h cmd rest⟩
  · exact .inr ⟨by omega, _, withSample_bad (by omega) cmd rest⟩

/-- The configuration's capacities fit a register (00_scope.md R7). -/
theorem Config.caps_of_wf {c : Config} (h : c.wf = true) :
    (324 ≤ c.ibufCap ∧ c.ibufCap < 2 ^ 29) ∧ (324 ≤ c.obufCap ∧ c.obufCap < 2 ^ 29)
      ∧ (1 ≤ c.wbufCap ∧ c.wbufCap < 2 ^ 29) ∧ c.frameCap < 2 ^ 29 := by
  simp only [Config.wf, Bool.and_eq_true, decide_eq_true_eq] at h
  simp only [Config.maxCap] at h
  omega

end Sys2Proof.Machine
end

