-- ==== Sys2Proof/Laws/Frame.lean ====
section
/-! SUPPORT. The frame layout and tile access: where the sample indices lie and when two are equal, what gathering,
scattering and the frame-level loop do. -/

namespace Sys2Proof.Machine

/-! ### Indices -/

theorem groupIndex_lt {w h x y : Nat} (hw : w % 2 = 0) (hh : h % 2 = 0) (hx : x < w) (hy : y < h) :
    groupIndex w x y < groupCount w h := by
  have h1 : x / 2 < w / 2 := by omega
  have h2 : y / 2 + 1 ≤ h / 2 := by omega
  have h3 : (y / 2 + 1) * (w / 2) ≤ (h / 2) * (w / 2) := Nat.mul_le_mul_right _ h2
  simp only [groupIndex, groupCount]
  rw [Nat.mul_comm (w / 2)]
  rw [Nat.add_mul] at h3
  omega

theorem groupIndex_inj {w x y x' y' : Nat} (hw : w % 2 = 0) (hx : x < w) (hx' : x' < w)
    (h : groupIndex w x y = groupIndex w x' y') : x / 2 = x' / 2 ∧ y / 2 = y' / 2 := by
  have h1 : x / 2 < w / 2 := by omega
  have h2 : x' / 2 < w / 2 := by omega
  have hpos : 0 < w / 2 := by omega
  simp only [groupIndex] at h
  have hd := congrArg (· / (w / 2)) h
  have hm := congrArg (· % (w / 2)) h
  simp only [Nat.mul_comm _ (w / 2), Nat.mul_add_div hpos, Nat.mul_add_mod, Nat.div_eq_of_lt h1, Nat.div_eq_of_lt h2,
    Nat.mod_eq_of_lt h1, Nat.mod_eq_of_lt h2] at hd hm
  omega

theorem yaddr_inj {w x y x' y' : Nat} (hw : w % 2 = 0) (hx : x < w) (hx' : x' < w)
    (h : yaddr w x y = yaddr w x' y') : x = x' ∧ y = y' := by
  simp only [yaddr, subPixel] at h
  have hg : groupIndex w x y = groupIndex w x' y' := by omega
  have := groupIndex_inj hw hx hx' hg
  omega

theorem yaddr_lt {w h x y : Nat} (hw : w % 2 = 0) (hh : h % 2 = 0) (hx : x < w) (hy : y < h) :
    yaddr w x y < 4 * groupCount w h := by
  have := groupIndex_lt hw hh hx hy
  simp only [yaddr, subPixel]
  omega

theorem yaddr_lt_frameLength {w h x y : Nat} (hw : w % 2 = 0) (hh : h % 2 = 0) (hx : x < w) (hy : y < h) :
    yaddr w x y < frameLength w h := by
  have := yaddr_lt hw hh hx hy
  simp only [frameLength]
  omega

theorem uaddr_lt_frameLength {w h x y : Nat} (hw : w % 2 = 0) (hh : h % 2 = 0) (hx : x < w) (hy : y < h) :
    uaddr w h x y < frameLength w h := by
  have := groupIndex_lt hw hh hx hy
  simp only [uaddr, frameLength]
  omega

theorem vaddr_lt_frameLength {w h x y : Nat} (hw : w % 2 = 0) (hh : h % 2 = 0) (hx : x < w) (hy : y < h) :
    vaddr w h x y < frameLength w h := by
  have := groupIndex_lt hw hh hx hy
  simp only [vaddr, frameLength]
  omega

/-- Two elements of whole tiles lie at the same index only if they are the same element of the same tile. -/
theorem tileAddr_inj {w tx ty k tx' ty' k' : Nat} (hw : w % 2 = 0) (hx : tx < w / 8) (hx' : tx' < w / 8)
    (hk : k < 64) (hk' : k' < 64) (h : tileAddr w tx ty k = tileAddr w tx' ty' k') : tx = tx' ∧ ty = ty' ∧ k = k' := by
  have := yaddr_inj hw (by omega) (by omega) h
  omega

/-! ### Scattering and gathering one tile -/

theorem sameAt_scatterElements (m : Mem) (w tx ty : Nat) (b : Block) (ks : List Nat) {a : Nat}
    (h : ∀ k ∈ ks, a ≠ tileAddr w tx ty k) : SameAt (scatterElements m w tx ty b ks) m a := by
  induction ks generalizing m with
  | nil => exact SameAt.refl m a
  | cons k rest ih =>
    exact (ih _ fun j hj => h j (List.mem_cons_of_mem k hj)).trans (sameAt_write m _ (h k List.mem_cons_self))

theorem holdsAt_scatterElements (m : Mem) {w tx ty : Nat} (b : Block) {ks : List Nat} (hw : w % 2 = 0)
    (hx : tx < w / 8) (hks : ∀ k ∈ ks, k < 64) (hnd : ks.Nodup) {k : Nat} (hk : k ∈ ks) :
    HoldsAt (scatterElements m w tx ty b ks) (tileAddr w tx ty k) (tableGet b k) := by
  induction ks generalizing m with
  | nil => simp at hk
  | cons j rest ih =>
    have hj := List.nodup_cons.1 hnd
    rcases List.mem_cons.1 hk with rfl | hk'
    · refine (holdsAt_congr (sameAt_scatterElements _ w tx ty b rest fun i hi h => ?_)).2 (holdsAt_write m _ _)
      have := tileAddr_inj hw hx hx (hks k List.mem_cons_self) (hks i (List.mem_cons_of_mem _ hi)) h
      exact hj.1 (this.2.2 ▸ hi)
    · exact ih _ (fun i hi => hks i (List.mem_cons_of_mem _ hi)) hj.2 hk'

theorem tableGet_gatherTile (s : State) (tx ty : Nat) {k : Nat} (hk : k < 64) :
    tableGet (s.gatherTile tx ty) k = s.frame.read (tileAddr s.frameW tx ty k) := tableGet_tableOf _ hk

theorem gatherTile_congr {s s' : State} {tx ty : Nat} (hw : s.width = s'.width)
    (h : ∀ k, k < 64 → s.frame.read (tileAddr s.frameW tx ty k) = s'.frame.read (tileAddr s.frameW tx ty k)) :
    s.gatherTile tx ty = s'.gatherTile tx ty := by
  refine table_ext fun k hk => ?_
  rw [tableGet_gatherTile s tx ty hk, tableGet_gatherTile s' tx ty hk, h k hk]
  simp [State.frameW, hw]

/-! ### The frame-level loop -/

theorem mem_tileOrder {tw th : Nat} {t : Nat × Nat} : t ∈ tileOrder tw th ↔ t.1 < tw ∧ t.2 < th := by
  obtain ⟨x, y⟩ := t
  simp [tileOrder, and_comm]

theorem nodup_tileOrder (tw th : Nat) : (tileOrder tw th).Nodup := by
  rw [tileOrder, List.nodup_flatMap]
  refine ⟨fun y _ => (List.nodup_range).map fun a b h => (Prod.mk.inj h).1, ?_⟩
  refine List.nodup_range.pairwise_of_forall_ne ?_
  intro a _ b _ hab
  simp only [Function.onFun, List.disjoint_left, List.mem_map]
  rintro p ⟨i, _, rfl⟩ ⟨j, _, h⟩
  exact hab (Prod.mk.inj h).2.symm

/-- A tile of the loop changes `FRAME` and `BLK` only. -/
theorem transformTile_eq (f : Block → Block) (s : State) (t : Nat × Nat) :
    State.transformTile f s t =
      { s with frame := (State.transformTile f s t).frame, blk := f (s.gatherTile t.1 t.2) } := rfl

/-- The loop over a list of tiles changes `FRAME` and `BLK` only. -/
theorem foldTiles_eq (f : Block → Block) (ts : List (Nat × Nat)) (s : State) :
    ts.foldl (State.transformTile f) s =
      { s with
        frame := (ts.foldl (State.transformTile f) s).frame
        blk := (ts.foldl (State.transformTile f) s).blk } := by
  induction ts generalizing s with
  | nil => rfl
  | cons t ts ih => rw [List.foldl_cons, ih]; rfl

theorem transformFrame_eq (f : Block → Block) (s : State) :
    s.transformFrame f = { s with frame := (s.transformFrame f).frame, blk := (s.transformFrame f).blk } :=
  foldTiles_eq f _ s

/-- A byte outside the tiles of the list is as before the loop. -/
theorem sameAt_foldTiles (f : Block → Block) (ts : List (Nat × Nat)) (s : State) {a : Nat}
    (h : ∀ t ∈ ts, ∀ k, k < 64 → a ≠ tileAddr s.frameW t.1 t.2 k) :
    SameAt (ts.foldl (State.transformTile f) s).frame s.frame a := by
  induction ts generalizing s with
  | nil => exact SameAt.refl _ a
  | cons t ts ih =>
    rw [List.foldl_cons]
    refine (ih (State.transformTile f s t) fun q hq k hk => h q (List.mem_cons_of_mem _ hq) k hk).trans ?_
    exact sameAt_scatterElements _ _ _ _ _ _ fun k hk => h t List.mem_cons_self k (List.mem_range.1 hk)

/-- The element of a tile of the list holds the transform of what the tile held before the loop. -/
theorem holdsAt_foldTiles (f : Block → Block) (ts : List (Nat × Nat)) (s : State) (hw : s.frameW % 2 = 0)
    (hts : ∀ t ∈ ts, t.1 < s.frameW / 8) (hnd : ts.Nodup) {t : Nat × Nat} (ht : t ∈ ts) {k : Nat} (hk : k < 64) :
    HoldsAt (ts.foldl (State.transformTile f) s).frame (tileAddr s.frameW t.1 t.2 k)
      (tableGet (f (s.gatherTile t.1 t.2)) k) := by
  induction ts generalizing s with
  | nil => simp at ht
  | cons q ts ih =>
    have hq := List.nodup_cons.1 hnd
    rw [List.foldl_cons]
    rcases List.mem_cons.1 ht with rfl | ht'
    · refine (holdsAt_congr (sameAt_foldTiles f ts _ fun p hp j hj h => ?_)).2 ?_
      · have := tileAddr_inj hw (hts t List.mem_cons_self) (hts p (List.mem_cons_of_mem _ hp)) hk hj h
        exact hq.1 ((Prod.ext this.1 this.2.1 : t = p) ▸ hp)
      · exact holdsAt_scatterElements _ _ hw (hts t List.mem_cons_self) (fun i hi => List.mem_range.1 hi)
          List.nodup_range (List.mem_range.2 hk)
    · have hne : t ≠ q := fun h => hq.1 (h ▸ ht')
      have hg : (State.transformTile f s q).gatherTile t.1 t.2 = s.gatherTile t.1 t.2 := by
        refine gatherTile_congr rfl fun j hj => ?_
        refine (sameAt_scatterElements _ _ _ _ _ _ fun i hi h => hne ?_).1
        have := tileAddr_inj hw (hts t ht) (hts q List.mem_cons_self) hj (List.mem_range.1 hi) h
        exact Prod.ext this.1 this.2.1
      have := ih (State.transformTile f s q) hw (fun p hp => hts p (List.mem_cons_of_mem _ hp)) hq.2 ht'
      rw [hg] at this
      exact this

/-- `BLK` after the loop is the transform of the last tile. -/
theorem blk_foldTiles (f : Block → Block) (ts : List (Nat × Nat)) (s : State) (hw : s.frameW % 2 = 0)
    (q : Nat × Nat) (hts : ∀ t ∈ ts ++ [q], t.1 < s.frameW / 8) (hnd : (ts ++ [q]).Nodup) :
    ((ts ++ [q]).foldl (State.transformTile f) s).blk = f (s.gatherTile q.1 q.2) := by
  have hq : q ∉ ts := fun h => (List.nodup_append.1 hnd).2.2 q h q (by simp) rfl
  rw [List.foldl_append]
  change f ((ts.foldl (State.transformTile f) s).gatherTile q.1 q.2) = _
  congr 1
  have hw' : (ts.foldl (State.transformTile f) s).width = s.width := by rw [foldTiles_eq]
  refine gatherTile_congr hw' fun k hk => ?_
  have hW : (ts.foldl (State.transformTile f) s).frameW = s.frameW := by rw [State.frameW, hw']; rfl
  rw [hW]
  refine (sameAt_foldTiles f ts s fun t ht j hj h => hq ?_).1
  have := tileAddr_inj hw (hts q (by simp)) (hts t (by simp [ht])) hk hj h
  exact (Prod.ext this.1 this.2.1 : q = t) ▸ ht

end Sys2Proof.Machine
end

