-- ==== Sys2Proof/Laws/Commands.lean ====
section
/-! SUPPORT. What a command can do, said once: every next state of `exec` is one of the forms of `Effect`; and for each update
that is defined by cases or by a loop, the fields it can change. -/

namespace Sys2Proof.Machine

/-- Every next state a command can give: a fault with nothing else changed, or one of the updates its rule makes. -/
inductive Effect (i : Instr) (s : State) : State → Prop
  /-- The command faults before it changes anything; the commands that clear `HVALID` do so only in their first checks, of the
  range of the input and of the geometry. -/
  | fault (c : ErrCode) (info : Nat) (hc : c.value ∈ raisable i)
      (hk : i ∈ [.hufEnc, .hufDec, .pipeEnc, .pipeDec] → c.value = 5#4 ∨ c.value = 6#4) :
      Effect i s (s.recordFault (encode i) c info)
  | reset (h : i = .reset) : Effect i s s.commandReset
  | bswInit (h : i = .bswInit) : Effect i s s.freshWriter.detachWbufReader
  | bswWrite (b : Bool) (h : i = .bswWrite b) : Effect i s (s.appendBit b).detachWbufReader
  | bsrInit (src) (h : i = .bsrInit src) (o t) : Effect i s (s.attachReader src o t)
  | bsrRead (h : i = .bsrRead) : Effect i s { s.advanceReader with res := (BitVec.ofBool s.readerBit).setWidth 32 }
  | blk (h : i ∈ [.blkLd, .dctFwd, .dctInv]) (b) : Effect i s { s with blk := b }
  | blkSt (h : i = .blkSt) (g : GeometryOk s) (p : TileOk s) : Effect i s (s.scatterTile s.tileCol s.tileRow s.blk)
  | frm (h : i ∈ [.frmFwd, .frmInv]) (g : GeometryOk s) (f) : Effect i s (s.transformFrame f)
  | get (h : i ∈ [.getY, .getU, .getV]) (b) : Effect i s (s.setRes b)
  | set (h : i ∈ [.setY, .setU, .setV]) (a b) (ha : a < s.flen) : Effect i s (s.setFrameByte a b)
  | build (h : i = .hufBuild) : Effect i s (s.exposeTables s.input)
  | enc (h : i = .hufEnc ∨ i = .hufDec) (d) : Effect i s (s.invalidateTables.produce d)
  | encFault (h : i = .hufEnc ∨ i = .hufDec ∨ i = .pipeDec) (c info) (hc : c.value ∈ raisable i) :
      Effect i s (s.invalidateTables.recordFault (encode i) c info)
  | decFault (h : i = .hufDec) (c info) (hc : c.value ∈ raisable i) :
      Effect i s (s.invalidateTables.obufUnspecified.recordFault (encode i) c info)
  | pipeEnc (h : i = .pipeEnc) (g : GeometryOk s) (d) : Effect i s (s.pipeTransformed.produce d)
  | pipeEncFault (h : i = .pipeEnc) (g : GeometryOk s) (c info) (hc : c.value ∈ raisable i) :
      Effect i s (s.pipeTransformed.recordFault (encode i) c info)
  | pipeDecFault (h : i = .pipeDec) (g : GeometryOk s) (c info) (hc : c.value ∈ raisable i) :
      Effect i s (s.invalidateTables.frameUnspecified.recordFault (encode i) c info)
  | pipeDec (h : i = .pipeDec) (g : GeometryOk s) (d) (hd : d.length = s.flen) : Effect i s (s.invalidateTables.loadFrame d)

theorem next_inj {s t : State} (h : (Host.Outcome.next s : Result) = .next t) : s = t := by cases h; rfl

/-! What a check lets through. -/

theorem withGeometry_next {cmd : Word} {s t : State} {rest : Result} (h : withGeometry cmd s rest = .next t) :
    (∃ info, t = s.recordFault cmd .geom info) ∨ GeometryOk s ∧ rest = .next t := by
  by_cases g : GeometryOk s
  · rw [withGeometry_ok g] at h; exact .inr ⟨g, h⟩
  · rw [withGeometry, (badGeometry_iff s).2 g] at h; exact .inl ⟨_, (next_inj h).symm⟩

theorem withPixel_next {cmd : Word} {s t : State} {rest : Result} (h : withPixel cmd s rest = .next t) :
    (∃ info, t = s.recordFault cmd .range info) ∨ PixelOk s ∧ rest = .next t := by
  unfold withPixel at h
  split at h
  · exact .inl ⟨_, (next_inj h).symm⟩
  · split at h
    · exact .inl ⟨_, (next_inj h).symm⟩
    · exact .inr ⟨⟨by simp only [State.pixelX, State.frameW] at *; omega,
        by simp only [State.pixelY, State.frameH] at *; omega⟩, h⟩

theorem withTile_next {cmd : Word} {s t : State} {rest : Result} (h : withTile cmd s rest = .next t) :
    (∃ info, t = s.recordFault cmd .range info) ∨ TileOk s ∧ rest = .next t := by
  unfold withTile at h
  split at h
  · exact .inl ⟨_, (next_inj h).symm⟩
  · split at h
    · exact .inl ⟨_, (next_inj h).symm⟩
    · exact .inr ⟨⟨by simp only [State.tileCol, State.tilesWide, State.frameW] at *; omega,
        by simp only [State.tileRow, State.tilesHigh, State.frameH] at *; omega⟩, h⟩

theorem withSample_next {cmd : Word} {s t : State} {rest : Result} (h : withSample cmd s rest = .next t) :
    (∃ info, t = s.recordFault cmd .range info) ∨ rest = .next t := by
  unfold withSample at h
  split at h
  · exact .inl ⟨_, (next_inj h).symm⟩
  · exact .inr h

theorem withInput_next {cmd : Word} {s t : State} {rest : Result} (h : withInput cmd s rest = .next t) :
    (∃ info, t = s.recordFault cmd .range info) ∨ rest = .next t := by
  unfold withInput at h
  split at h
  · exact .inl ⟨_, (next_inj h).symm⟩
  · exact .inr h

theorem withElement_next {s t : State} {sp i} {rest : Result} (h : withElement sp i s rest = .next t) : rest = .next t := by
  unfold withElement at h
  split at h
  · exact h
  · cases h

theorem encodeTo_next {cmd : Word} {d} {s t : State} (h : encodeTo cmd d s = .next t) :
    (∃ info, t = s.recordFault cmd .overflow info)
      ∨ (∃ info, t = s.recordFault cmd .capacity info)
      ∨ t = s.produce (huffEncode d) := by
  unfold encodeTo at h
  simp only at h
  split at h
  · exact .inl ⟨_, (next_inj h).symm⟩
  · split at h
    · exact .inr (.inl ⟨_, (next_inj h).symm⟩)
    · exact .inr (.inr (next_inj h).symm)

/-- A command that gives a next state has one of the effects. -/
theorem exec_effect {i : Instr} {s t : State} (h : exec i s = .next t) : Effect i s t := by
  cases i with
  | reset => rw [← next_inj h]; exact .reset rfl
  | bswInit => rw [← next_inj h]; exact .bswInit rfl
  | bswWrite b =>
    change execBswWrite b s = _ at h
    unfold execBswWrite at h
    split at h
    · rw [← next_inj h]; exact .fault .capacity _ (by simp [raisable, ErrCode.value]) (by simp)
    · rw [← next_inj (withElement_next h)]; exact .bswWrite b rfl
  | bsrInit src =>
    change execBsrInit src s = _ at h
    unfold execBsrInit at h
    split at h
    · rw [← next_inj h]; exact .fault .range _ (by simp [raisable, ErrCode.value]) (by simp)
    · split at h
      · rw [← next_inj h]; exact .fault .range _ (by simp [raisable, ErrCode.value]) (by simp)
      · rw [← next_inj h]; exact .bsrInit src rfl _ _
  | bsrRead =>
    change execBsrRead s = _ at h
    unfold execBsrRead at h
    split at h
    · rw [← next_inj h]; exact .fault .state _ (by decide) (by decide)
    · split at h
      · rw [← next_inj h]; exact .fault .exhausted _ (by decide) (by decide)
      · rw [← next_inj (withElement_next h)]; exact .bsrRead rfl
  | blkLd =>
    rcases withGeometry_next h with ⟨_, rfl⟩ | ⟨g, h⟩
    · exact .fault .geom _ (by decide) (by decide)
    rcases withTile_next h with ⟨_, rfl⟩ | ⟨p, h⟩
    · exact .fault .range _ (by decide) (by decide)
    rw [← next_inj h]; exact .blk (by decide) _
  | blkSt =>
    rcases withGeometry_next h with ⟨_, rfl⟩ | ⟨g, h⟩
    · exact .fault .geom _ (by decide) (by decide)
    rcases withTile_next h with ⟨_, rfl⟩ | ⟨p, h⟩
    · exact .fault .range _ (by decide) (by decide)
    rw [← next_inj h]; exact .blkSt rfl g p
  | dctFwd => rw [← next_inj h]; exact .blk (by decide) _
  | dctInv => rw [← next_inj h]; exact .blk (by decide) _
  | frmFwd =>
    rcases withGeometry_next h with ⟨_, rfl⟩ | ⟨g, h⟩
    · exact .fault .geom _ (by decide) (by decide)
    rw [← next_inj h]; exact .frm (by decide) g _
  | frmInv =>
    rcases withGeometry_next h with ⟨_, rfl⟩ | ⟨g, h⟩
    · exact .fault .geom _ (by decide) (by decide)
    rw [← next_inj h]; exact .frm (by decide) g _
  | getY | getU | getV =>
    rcases withGeometry_next h with ⟨_, rfl⟩ | ⟨g, h⟩
    · exact .fault .geom _ (by decide) (by decide)
    rcases withPixel_next h with ⟨_, rfl⟩ | ⟨p, h⟩
    · exact .fault .range _ (by decide) (by decide)
    rw [← next_inj h]; exact .get (by decide) _
  | setY =>
    rcases withGeometry_next h with ⟨_, rfl⟩ | ⟨g, h⟩
    · exact .fault .geom _ (by decide) (by decide)
    rcases withPixel_next h with ⟨_, rfl⟩ | ⟨p, h⟩
    · exact .fault .range _ (by decide) (by decide)
    rcases withSample_next h with ⟨_, rfl⟩ | h
    · exact .fault .range _ (by decide) (by decide)
    rw [← next_inj h]; exact .set (by decide) _ _ (yaddr_lt_frameLength g.1 g.2.1 p.1 p.2)
  | setU =>
    rcases withGeometry_next h with ⟨_, rfl⟩ | ⟨g, h⟩
    · exact .fault .geom _ (by decide) (by decide)
    rcases withPixel_next h with ⟨_, rfl⟩ | ⟨p, h⟩
    · exact .fault .range _ (by decide) (by decide)
    rcases withSample_next h with ⟨_, rfl⟩ | h
    · exact .fault .range _ (by decide) (by decide)
    rw [← next_inj h]; exact .set (by decide) _ _ (uaddr_lt_frameLength g.1 g.2.1 p.1 p.2)
  | setV =>
    rcases withGeometry_next h with ⟨_, rfl⟩ | ⟨g, h⟩
    · exact .fault .geom _ (by decide) (by decide)
    rcases withPixel_next h with ⟨_, rfl⟩ | ⟨p, h⟩
    · exact .fault .range _ (by decide) (by decide)
    rcases withSample_next h with ⟨_, rfl⟩ | h
    · exact .fault .range _ (by decide) (by decide)
    rw [← next_inj h]; exact .set (by decide) _ _ (vaddr_lt_frameLength g.1 g.2.1 p.1 p.2)
  | hufBuild =>
    rcases withInput_next h with ⟨_, rfl⟩ | h
    · exact .fault .range _ (by decide) (by decide)
    split at h
    · rw [← next_inj h]; exact .fault .overflow _ (by decide) (by decide)
    · rw [← next_inj h]; exact .build rfl
  | hufEnc =>
    rcases withInput_next h with ⟨_, rfl⟩ | h
    · exact .fault .range _ (by decide) (by decide)
    rcases encodeTo_next h with ⟨_, rfl⟩ | ⟨_, rfl⟩ | rfl
    · exact .encFault (.inl rfl) .overflow _ (by decide)
    · exact .encFault (.inl rfl) .capacity _ (by decide)
    · exact .enc (.inl rfl) _
  | hufDec =>
    rcases withInput_next h with ⟨_, rfl⟩ | h
    · exact .fault .range _ (by decide) (by decide)
    split at h
    · rw [← next_inj h]; exact .encFault (.inr (.inl rfl)) .malformed _ (by decide)
    · unfold decodeToObuf at h
      split at h
      · rw [← next_inj h]; exact .decFault rfl .malformed _ (by decide)
      · split at h
        · rw [← next_inj h]; exact .decFault rfl .capacity _ (by decide)
        · rw [← next_inj h]; exact .enc (.inr rfl) _
  | pipeEnc =>
    rcases withGeometry_next h with ⟨_, rfl⟩ | ⟨g, h⟩
    · exact .fault .geom _ (by decide) (by decide)
    rcases encodeTo_next h with ⟨_, rfl⟩ | ⟨_, rfl⟩ | rfl
    · exact .pipeEncFault rfl g .overflow _ (by decide)
    · exact .pipeEncFault rfl g .capacity _ (by decide)
    · exact .pipeEnc rfl g _
  | pipeDec =>
    rcases withInput_next h with ⟨_, rfl⟩ | h
    · exact .fault .range _ (by decide) (by decide)
    rcases withGeometry_next h with ⟨_, rfl⟩ | ⟨g, h⟩
    · exact .fault .geom _ (by decide) (by decide)
    split at h
    · rw [← next_inj h]; exact .encFault (.inr (.inr rfl)) .malformed _ (by decide)
    · unfold decodeToFrame at h
      split at h
      · rw [← next_inj h]; exact .pipeDecFault rfl g .malformed _ (by decide)
      · split at h
        · rw [← next_inj h]; exact .pipeDecFault rfl g .malformed _ (by decide)
        · rename_i hd; rw [← next_inj h]; exact .pipeDec rfl g _ (not_not.1 hd)

/-! The fields that the larger updates change. -/

theorem pipeTransformed_fields (s : State) :
    s.pipeTransformed =
      { s with frame := s.pipeTransformed.frame, blk := s.pipeTransformed.blk, hvalid := false } := by
  conv_lhs => rw [State.pipeTransformed, transformFrame_eq]
  rfl

theorem loadFrame_fields (s : State) (d) :
    s.loadFrame d =
      { s with frame := (s.loadFrame d).frame, blk := (s.loadFrame d).blk } := by
  conv_lhs => rw [State.loadFrame, transformFrame_eq]
  rfl

theorem appendBit_fields (s : State) (b) :
    s.appendBit b =
      { s with wbuf := (s.appendBit b).wbuf, bswByte := (s.appendBit b).bswByte, bswBit := (s.appendBit b).bswBit } := by
  unfold State.appendBit; split <;> rfl

theorem advanceReader_fields (s : State) :
    s.advanceReader =
      { s with bsrByte := s.advanceReader.bsrByte, bsrBit := s.advanceReader.bsrBit } := by
  unfold State.advanceReader; split <;> rfl

end Sys2Proof.Machine
end

