-- ==== Sys2Proof/Laws/Huffman.lean ====
section
/-! SUPPORT. The Huffman coder: minimum extraction, the invariant of the build, codes as paths of a tree, the serialisation
of a tree and its inverse, the data decode. -/

namespace Sys2Proof.Machine

/-! ### Minimum extraction (43_huffman.md R205) -/

/-- The list is the elements before the minimum, the minimum, the elements after it; the ones before it are heavier. -/
theorem extractMin_split (x : Item) (xs : List Item) :
    ∃ l r, x :: xs = l ++ (extractMin x xs).1 :: r ∧ (extractMin x xs).2 = l ++ r
      ∧ (∀ y ∈ l, (extractMin x xs).1.weight < y.weight) ∧ ∀ y ∈ r, (extractMin x xs).1.weight ≤ y.weight := by
  induction xs generalizing x with
  | nil => exact ⟨[], [], rfl, rfl, by simp, by simp⟩
  | cons y rest ih =>
    obtain ⟨l, r, he, ho, hl, hr⟩ := ih y
    cases hm : extractMin y rest with
    | mk m others =>
      rw [hm] at he ho hl hr
      dsimp only at he ho hl hr
      rw [extractMin, hm]
      dsimp only
      split
      · rename_i h
        exact ⟨x :: l, r, by rw [he]; rfl, by rw [ho]; rfl, fun z hz => (List.mem_cons.1 hz).elim (· ▸ h) (hl z), hr⟩
      · rename_i h
        refine ⟨[], y :: rest, rfl, rfl, by simp, fun z hz => ?_⟩
        dsimp only
        rw [he] at hz
        rcases List.mem_append.1 hz with hz | hz
        · exact le_trans (Nat.not_lt.1 h) (le_of_lt (hl z hz))
        · rcases List.mem_cons.1 hz with rfl | hz
          · exact Nat.not_lt.1 h
          · exact le_trans (Nat.not_lt.1 h) (hr z hz)

theorem extractMin_perm (x : Item) (xs : List Item) :
    ((extractMin x xs).1 :: (extractMin x xs).2).Perm (x :: xs) := by
  obtain ⟨l, r, he, ho, -, -⟩ := extractMin_split x xs
  rw [he, ho]
  exact List.perm_middle.symm

theorem extractMin_le (x : Item) (xs : List Item) {y : Item} (h : y ∈ x :: xs) :
    (extractMin x xs).1.weight ≤ y.weight := by
  obtain ⟨l, r, he, -, hl, hr⟩ := extractMin_split x xs
  rw [he] at h
  rcases List.mem_append.1 h with h | h
  · exact le_of_lt (hl y h)
  · rcases List.mem_cons.1 h with rfl | h
    · exact le_refl _
    · exact hr y h

/-! ### One merge (43_huffman.md R206) -/

/-- What a merge of a working list of at least two nodes does: two nodes of smallest weight, the lighter first, leave the
list, and their parent is appended. -/
theorem mergeOnce_spec (k : Nat) {s : Build} (h : 2 ≤ s.work.length) :
    ∃ a b rest, s.work.Perm (a :: b :: rest) ∧ (∀ y ∈ b :: rest, a.weight ≤ y.weight) ∧ (∀ y ∈ rest, b.weight ≤ y.weight)
      ∧ mergeOnce k s =
          { work := rest ++ [⟨256 + k, a.weight + b.weight, .node a.tree b.tree⟩]
            merges := s.merges ++ [⟨a.weight + b.weight, a.num, b.num⟩] } := by
  obtain ⟨work, merges⟩ := s
  match work, h with
  | x :: x' :: xs, _ =>
    have hp := extractMin_perm x (x' :: xs)
    have hle := fun y => extractMin_le x (x' :: xs) (y := y)
    rw [mergeOnce]
    dsimp only
    cases hm : extractMin x (x' :: xs) with
    | mk a others =>
      rw [hm] at hp hle
      dsimp only at hp hle
      match others, hp with
      | [], hp => exact absurd hp.length_eq (by simp)
      | y :: ys, hp =>
        have hp2 := extractMin_perm y ys
        have hle2 := fun z => extractMin_le y ys (y := z)
        dsimp only
        cases hm2 : extractMin y ys with
        | mk b rest =>
          rw [hm2] at hp2 hle2
          dsimp only at hp2 hle2
          refine ⟨a, b, rest, hp.symm.trans ((hp2.symm).cons a), fun z hz => ?_, fun z hz => ?_, rfl⟩
          · exact hle z (hp.mem_iff.1 (List.mem_cons_of_mem _ (hp2.mem_iff.1 hz)))
          · exact hle2 z (hp2.mem_iff.1 (List.mem_cons_of_mem _ hz))

/-! ### Codes (43_huffman.md R210) -/

theorem codes_acc (t : Tree) (acc : List Bool) : codes t acc = (codes t []).map fun p => (p.1, acc ++ p.2) := by
  induction t generalizing acc with
  | leaf b => simp [codes]
  | node l r ihl ihr =>
    simp only [codes]
    rw [ihl (acc ++ [false]), ihr (acc ++ [true]), ihl ([] ++ [false]), ihr ([] ++ [true])]
    simp [Function.comp_def]

/-- The codes of a node are its children's, one edge longer. -/
theorem codes_node (l r : Tree) :
    codes (.node l r) [] =
      ((codes l []).map fun p => (p.1, false :: p.2)) ++ (codes r []).map fun p => (p.1, true :: p.2) := by
  rw [codes, codes_acc l, codes_acc r]
  simp

theorem map_fst_codes (t : Tree) : (codes t []).map (·.1) = leaves t := by
  induction t with
  | leaf b => rfl
  | node l r ihl ihr => rw [codes_node]; simp [Function.comp_def, leaves, ihl, ihr]

theorem length_codes (t : Tree) : (codes t []).length = (leaves t).length := by
  rw [← map_fst_codes, List.length_map]

theorem lookup_some_mem {α β : Type} [BEq α] [LawfulBEq α] {l : List (α × β)} {a : α} (h : a ∈ l.map (·.1)) :
    ∃ b, l.lookup a = some b ∧ (a, b) ∈ l := by
  induction l with
  | nil => simp at h
  | cons p l ih =>
    obtain ⟨x, y⟩ := p
    by_cases hx : a == x
    · have : a = x := by simpa using hx
      subst this
      exact ⟨y, by simp [List.lookup], by simp⟩
    · have hne : a ≠ x := by simpa using hx
      have h' : a ∈ l.map (·.1) := by
        rcases List.mem_cons.1 h with h | h
        · exact absurd h hne
        · exact h
      obtain ⟨b, hb, hm⟩ := ih h'
      refine ⟨b, ?_, List.mem_cons_of_mem _ hm⟩
      simp [List.lookup, hx, hb]

/-- The code of a byte that is some leaf's is a root-to-leaf path. -/
theorem codeOf_mem {t : Tree} {b : Byte} (h : b ∈ leaves t) : (b, codeOf t b) ∈ codes t [] := by
  rw [← map_fst_codes] at h
  obtain ⟨c, hc, hm⟩ := lookup_some_mem h
  rw [codeOf, hc]
  exact hm

theorem eq_of_mem_codes {t : Tree} (hnd : (leaves t).Nodup) {b : Byte} {p q : List Bool} (hp : (b, p) ∈ codes t [])
    (hq : (b, q) ∈ codes t []) : p = q := by
  rw [← map_fst_codes] at hnd
  have := List.inj_on_of_nodup_map hnd hp hq rfl
  exact (Prod.mk.inj this).2

theorem codeOf_eq {t : Tree} (hnd : (leaves t).Nodup) {b : Byte} {p : List Bool} (hp : (b, p) ∈ codes t []) :
    codeOf t b = p := by
  have : b ∈ leaves t := by rw [← map_fst_codes]; exact List.mem_map.2 ⟨_, hp, rfl⟩
  exact eq_of_mem_codes hnd (codeOf_mem this) hp

theorem leaves_pos (t : Tree) : 0 < (leaves t).length := by
  induction t with
  | leaf b => exact Nat.one_pos
  | node l r ihl _ => simp only [leaves, List.length_append]; omega

/-- A code is at most as long as there are other leaves. -/
theorem length_lt_of_mem_codes {t : Tree} {b : Byte} {p : List Bool} (h : (b, p) ∈ codes t []) :
    p.length < (leaves t).length := by
  induction t generalizing p with
  | leaf c => simp [codes] at h; simp [leaves, h]
  | node l r ihl ihr =>
    have hl := leaves_pos l
    have hr := leaves_pos r
    rw [codes_node] at h
    simp only [List.mem_append, List.mem_map, Prod.mk.injEq] at h
    rcases h with ⟨q, hq, rfl, rfl⟩ | ⟨q, hq, rfl, rfl⟩
    · have := ihl hq; simp [leaves]; omega
    · have := ihr hq; simp [leaves]; omega

/-- No code is a proper prefix of another: leaves have no children. -/
theorem eq_of_prefix {t : Tree} {b c : Byte} {p q : List Bool} (hp : (b, p) ∈ codes t []) (hq : (c, q) ∈ codes t [])
    (h : p <+: q) : p = q := by
  induction t generalizing p q with
  | leaf d => simp [codes] at hp hq; rw [hp.2, hq.2]
  | node l r ihl ihr =>
    rw [codes_node] at hp hq
    simp only [List.mem_append, List.mem_map, Prod.mk.injEq, Prod.exists, existsAndEq, true_and] at hp hq
    rcases hp with ⟨p', hp', rfl⟩ | ⟨p', hp', rfl⟩ <;> rcases hq with ⟨q', hq', rfl⟩ | ⟨q', hq', rfl⟩ <;>
      simp only [List.cons_prefix_cons, true_and, Bool.true_eq_false, Bool.false_eq_true, false_and] at h
    · rw [ihl hp' hq' h]
    · rw [ihr hp' hq' h]

/-! ### Serialisation of the tree (30_encoding.md R103, 43_huffman.md R220) -/

theorem length_shape (t : Tree) : (shape t).length + 1 = 2 * (leaves t).length := by
  induction t with
  | leaf b => rfl
  | node l r ihl ihr => simp only [shape, leaves, List.length_cons, List.length_append]; omega

theorem count_shape (t : Tree) : (shape t).count true = (leaves t).length := by
  induction t with
  | leaf b => rfl
  | node l r ihl ihr => simp [shape, leaves, ihl, ihr]

/-- The counter takes a whole subtree off. -/
theorem shapeCloses_shape (t : Tree) (need : Nat) (rest : List Bool) :
    shapeCloses (need + 1) (shape t ++ rest) = shapeCloses need rest := by
  induction t generalizing need rest with
  | leaf b => rfl
  | node l r ihl ihr =>
    rw [shape, List.cons_append, List.append_assoc, shapeCloses, ihl, ihr]

/-- The counter accepts only the shapes of trees, one after another. -/
theorem shapes_of_shapeCloses {bits : List Bool} {need : Nat} (h : shapeCloses need bits = true) :
    ∃ ts : List Tree, ts.length = need ∧ bits = ts.flatMap shape := by
  induction bits generalizing need with
  | nil =>
    cases need with
    | zero => exact ⟨[], rfl, rfl⟩
    | succ n => simp [shapeCloses] at h
  | cons b bits ih =>
    cases need with
    | zero => simp [shapeCloses] at h
    | succ n =>
      cases b with
      | true =>
        obtain ⟨ts, hl, he⟩ := ih (by simpa [shapeCloses] using h)
        exact ⟨.leaf 0#8 :: ts, by simp [hl], by simp [he, shape]⟩
      | false =>
        obtain ⟨ts, hl, he⟩ := ih (by simpa [shapeCloses] using h)
        match ts, hl with
        | l :: r :: ts, hl => exact ⟨.node l r :: ts, by simpa using hl, by simp [he, shape]⟩

/-- What `unshape` answers is a tree whose shape and leaves start its inputs. -/
theorem unshape_sound {fuel : Nat} {bits bits' : List Bool} {vals vals' : List Byte} {t : Tree}
    (h : unshape fuel bits vals = some (t, bits', vals')) : bits = shape t ++ bits' ∧ vals = leaves t ++ vals' := by
  induction fuel generalizing bits bits' vals vals' t with
  | zero => simp [unshape] at h
  | succ fuel ih =>
    match bits, vals with
    | [], _ => simp [unshape] at h
    | true :: _, [] => simp [unshape] at h
    | true :: bits, v :: vals =>
      simp only [unshape, Option.some.injEq, Prod.mk.injEq] at h
      obtain ⟨rfl, rfl, rfl⟩ := h
      exact ⟨rfl, rfl⟩
    | false :: bits, vals =>
      rw [unshape] at h
      cases hl : unshape fuel bits vals with
      | none => rw [hl] at h; simp at h
      | some x =>
        obtain ⟨l, b1, v1⟩ := x
        rw [hl] at h
        dsimp only at h
        cases hr : unshape fuel b1 v1 with
        | none => rw [hr] at h; simp at h
        | some y =>
          obtain ⟨r, b2, v2⟩ := y
          rw [hr] at h
          simp only [Option.some.injEq, Prod.mk.injEq] at h
          obtain ⟨rfl, rfl, rfl⟩ := h
          obtain ⟨e1, e2⟩ := ih hl
          obtain ⟨e3, e4⟩ := ih hr
          exact ⟨by rw [e1, e3, shape]; simp, by rw [e2, e4, leaves]; simp⟩

/-- From the shape of a tree and enough leaf values `unshape` rebuilds a tree of that shape with those values. -/
theorem unshape_complete (t : Tree) {fuel : Nat} (hf : (leaves t).length ≤ fuel) (rest : List Bool) {vals : List Byte}
    (hv : (leaves t).length ≤ vals.length) :
    ∃ t', unshape fuel (shape t ++ rest) vals = some (t', rest, vals.drop (leaves t).length)
      ∧ shape t' = shape t ∧ leaves t' = vals.take (leaves t).length := by
  induction t generalizing fuel rest vals with
  | leaf b =>
    match fuel, vals, hf, hv with
    | fuel + 1, v :: vals, _, _ => exact ⟨.leaf v, rfl, rfl, rfl⟩
  | node l r ihl ihr =>
    have hl := leaves_pos l
    have hr := leaves_pos r
    simp only [leaves, List.length_append] at hf hv
    obtain ⟨fuel, rfl⟩ : ∃ f, fuel = f + 1 := ⟨fuel - 1, by omega⟩
    · obtain ⟨l', el, sl, ll⟩ := ihl (fuel := fuel) (by omega) (shape r ++ rest) (vals := vals) (by omega)
      obtain ⟨r', er, sr, lr⟩ := ihr (fuel := fuel) (by omega) rest (vals := vals.drop (leaves l).length)
        (by simp only [List.length_drop]; omega)
      refine ⟨.node l' r', ?_, by simp [shape, sl, sr], ?_⟩
      · rw [shape, List.cons_append, List.append_assoc, unshape, el]
        dsimp only
        rw [er, List.drop_drop, leaves, List.length_append]
      · rw [leaves, ll, lr, leaves, List.length_append, List.take_add]

/-- A tree is its shape and its leaves. -/
theorem tree_ext {t u : Tree} (hs : shape t = shape u) (hl : leaves t = leaves u) : t = u := by
  have key : ∀ v : Tree, unshape (leaves v).length (shape v) (leaves v) = some (v, [], []) := by
    intro v
    suffices h : ∀ fuel rest vals, (leaves v).length ≤ fuel →
        unshape fuel (shape v ++ rest) (leaves v ++ vals) = some (v, rest, vals) by
      simpa using h _ [] [] (le_refl _)
    induction v with
    | leaf b =>
      intro fuel rest vals hf
      match fuel, hf with
      | fuel + 1, _ => rfl
    | node l r ihl ihr =>
      intro fuel rest vals hf
      have h1 := leaves_pos l
      have h2 := leaves_pos r
      simp only [leaves, List.length_append] at hf
      obtain ⟨fuel, rfl⟩ : ∃ f, fuel = f + 1 := ⟨fuel - 1, by omega⟩
      · rw [shape, leaves, List.cons_append, List.append_assoc, List.append_assoc, unshape, ihl _ _ _ (by omega)]
        dsimp only
        rw [ihr _ _ _ (by omega)]
  have h := key t
  rw [hs, hl, key u] at h
  simpa using h.symm

/-! ### The data decode (43_huffman.md R221) -/

/-- The walk along a code emits its byte and goes on at the root. -/
theorem walk_code (t : Tree) {cur : Tree} {b : Byte} {p : List Bool} (h : (b, p) ∈ codes cur []) (hp : p ≠ [])
    (mid : Bool) (rest : List Bool) : walk t cur mid (p ++ rest) = (walk t t false rest).map (b :: ·) := by
  induction cur generalizing p mid with
  | leaf c => simp [codes] at h; exact absurd h.2 hp
  | node l r ihl ihr =>
    rw [codes_node] at h
    simp only [List.mem_append, List.mem_map, Prod.mk.injEq, Prod.exists, existsAndEq, true_and] at h
    rcases h with ⟨q, hq, rfl⟩ | ⟨q, hq, rfl⟩
    · rw [List.cons_append, walk, childOf]
      cases l with
      | leaf c => simp [codes] at hq; obtain ⟨rfl, rfl⟩ := hq; rfl
      | node l1 l2 =>
        refine ihl hq ?_ true
        rintro rfl
        rw [codes_node] at hq
        simp at hq
    · rw [List.cons_append, walk, childOf]
      cases r with
      | leaf c => simp [codes] at hq; obtain ⟨rfl, rfl⟩ := hq; rfl
      | node r1 r2 =>
        refine ihr hq ?_ true
        rintro rfl
        rw [codes_node] at hq
        simp at hq

/-- A walk that succeeds has read a whole code first, or no bit at all. -/
theorem walk_some (t : Tree) {l r : Tree} {mid : Bool} {bits : List Bool} {out : List Byte}
    (h : walk t (.node l r) mid bits = some out) :
    (mid = false ∧ bits = [] ∧ out = []) ∨ ∃ b p rest out', (b, p) ∈ codes (.node l r) [] ∧ bits = p ++ rest
      ∧ out = b :: out' ∧ walk t t false rest = some out' := by
  induction bits generalizing l r mid with
  | nil =>
    cases mid with
    | true => simp [walk] at h
    | false => exact .inl ⟨rfl, rfl, by simpa [walk, eq_comm] using h⟩
  | cons bit bits ih =>
    refine .inr ?_
    have step : ∀ c, childOf (.node l r) bit = c → ∀ b q, (b, q) ∈ codes c [] → (b, bit :: q) ∈ codes (.node l r) [] := by
      intro c hc b q hq
      rw [codes_node]
      cases bit <;> simp only [childOf] at hc <;> subst hc <;> simp [hq]
    rw [walk] at h
    cases hc : childOf (.node l r) bit with
    | leaf b =>
      rw [hc] at h
      dsimp only at h
      obtain ⟨out', ho, rfl⟩ := Option.map_eq_some_iff.1 h
      exact ⟨b, [bit], bits, out', step _ hc b [] (by simp [codes]), rfl, rfl, ho⟩
    | node l' r' =>
      rw [hc] at h
      dsimp only at h
      rcases ih h with ⟨hm, -, -⟩ | ⟨b, p, rest, out', hp, rfl, rfl, ho⟩
      · exact absurd hm (by decide)
      · exact ⟨b, bit :: p, rest, out', step _ hc b p hp, rfl, rfl, ho⟩

end Sys2Proof.Machine
end

