-- ==== Sys2Proof/Laws/HuffmanBuild.lean ====
section
/-! SUPPORT. The build (43_huffman.md R203 to R209): what holds of the working list and the merges after any number of merges,
and of the finished build; the cost of the tree as the sum of the merges' weights. -/

namespace Sys2Proof.Machine

/-- The data-bit cost of a tree: each leaf's frequency times its depth. -/
def treeCost (d : List Byte) (t : Tree) : Nat := ((codes t []).map fun p => d.count p.1 * p.2.length).sum

/-- The weight of a tree: the sum of its leaves' frequencies. -/
def treeWeight (d : List Byte) (t : Tree) : Nat := ((leaves t).map (d.count ·)).sum

theorem treeWeight_node (d : List Byte) (l r : Tree) :
    treeWeight d (.node l r) = treeWeight d l + treeWeight d r := by simp [treeWeight, leaves]

theorem treeCost_node (d : List Byte) (l r : Tree) :
    treeCost d (.node l r) = treeCost d l + treeCost d r + treeWeight d (.node l r) := by
  have h : ∀ (t : Tree) (b : Bool),
      (((codes t []).map fun p => (p.1, b :: p.2)).map fun p => d.count p.1 * p.2.length).sum
        = treeCost d t + treeWeight d t := by
    intro t b
    rw [treeWeight, ← map_fst_codes, List.map_map, List.map_map, treeCost, ← List.sum_map_add]
    congr 1
  rw [treeCost, codes_node, List.map_append, List.sum_append, h, h, treeWeight_node]
  omega

/-- What holds after `k` merges. -/
structure BuildInv (d : List Byte) (k : Nat) (s : Build) : Prop where
  /-- Each merge takes two nodes off the list and adds one. -/
  length : s.work.length + k = 256
  merges_length : s.merges.length = k
  leaves_perm : (s.work.flatMap fun y => leaves y.tree).Perm ((List.range 256).map (BitVec.ofNat 8))
  num_lt : ∀ y ∈ s.work, y.num < 256 + k
  num_nodup : (s.work.map (·.num)).Nodup
  weight_tree : ∀ y ∈ s.work, y.weight = treeWeight d y.tree
  weight_node : ∀ y ∈ s.work, y.weight = nodeWeight d s y.num
  merge : ∀ j e, s.merges[j]? = some e → e.left < 256 + j ∧ e.right < 256 + j ∧ e.left ≠ e.right
    ∧ e.weight = nodeWeight d s e.left + nodeWeight d s e.right ∧ nodeWeight d s e.left ≤ nodeWeight d s e.right
  cost : (s.work.map fun y => treeCost d y.tree).sum = (s.merges.map (·.weight)).sum
  /-- The merges' weights never decrease, and no two nodes of the list are lighter than a merge made. -/
  sorted : s.merges.Pairwise fun e e' => e.weight ≤ e'.weight
  later : ∀ e ∈ s.merges, ∀ x y rest, s.work.Perm (x :: y :: rest) → e.weight ≤ x.weight + y.weight

theorem nodeWeight_append (d : List Byte) (work work' : List Item) (ms : List Merge) (e : Merge) {m : Nat}
    (h : m < 256 + ms.length) : nodeWeight d ⟨work, ms ++ [e]⟩ m = nodeWeight d ⟨work', ms⟩ m := by
  unfold nodeWeight
  split
  · rfl
  · dsimp only
    rw [List.getElem?_append_left (by omega)]

theorem nodeWeight_new (d : List Byte) (work : List Item) (ms : List Merge) (e : Merge) :
    nodeWeight d ⟨work, ms ++ [e]⟩ (256 + ms.length) = e.weight := by
  simp [nodeWeight]

theorem initial_buildInv (d : List Byte) : BuildInv d 0 ⟨initialWork d, []⟩ := by
  have hw : (initialWork d).map (·.num) = List.range 256 := by simp [initialWork, Function.comp_def]
  refine ⟨by simp [initialWork], rfl, ?_, ?_, ?_, ?_, ?_, by simp, ?_, List.Pairwise.nil, by simp⟩
  · simp only [initialWork, List.flatMap_map, leaves]
    rw [← List.map_eq_flatMap]
  · intro y hy
    have : y.num ∈ (initialWork d).map (·.num) := List.mem_map.2 ⟨y, hy, rfl⟩
    rw [hw] at this
    simpa using this
  · rw [hw]; exact List.nodup_range
  · intro y hy
    simp only [initialWork, List.mem_map, List.mem_range] at hy
    obtain ⟨n, hn, rfl⟩ := hy
    simp [treeWeight, leaves, frequency]
  · intro y hy
    simp only [initialWork, List.mem_map, List.mem_range] at hy
    obtain ⟨n, hn, rfl⟩ := hy
    simp [nodeWeight, hn]
  · rw [List.sum_eq_zero]
    · rfl
    · intro x hx
      obtain ⟨y, hy, rfl⟩ := List.mem_map.1 hx
      simp only [initialWork, List.mem_map] at hy
      obtain ⟨n, -, rfl⟩ := hy
      simp [treeCost, codes]

/-- The two lightest nodes of a list are the lightest pair. -/
theorem lightest_pair {a b : Item} {rest : List Item} (ha : ∀ y ∈ b :: rest, a.weight ≤ y.weight)
    (hb : ∀ y ∈ rest, b.weight ≤ y.weight) {x y : Item} {others : List Item}
    (h : (a :: b :: rest).Perm (x :: y :: others)) : a.weight + b.weight ≤ x.weight + y.weight := by
  have hx : x = a ∨ x = b ∨ x ∈ rest := by simpa using h.mem_iff.2 (List.mem_cons_self)
  have hb' := ha b List.mem_cons_self
  have key : ∀ z, z = a ∨ z = b ∨ z ∈ rest → a.weight ≤ z.weight := by
    rintro z (rfl | rfl | hz)
    · exact le_refl _
    · exact hb'
    · exact ha z (List.mem_cons_of_mem _ hz)
  rcases hx with rfl | hx
  · have hy : y ∈ b :: rest := ((List.perm_cons x).1 h).mem_iff.2 List.mem_cons_self
    rcases List.mem_cons.1 hy with rfl | hy
    · exact le_refl _
    · exact Nat.add_le_add_left (hb y hy) _
  · have hxb : b.weight ≤ x.weight := by
      rcases hx with rfl | hx
      · exact le_refl _
      · exact hb x hx
    have hy : y = a ∨ y = b ∨ y ∈ rest := by simpa using h.mem_iff.2 (List.mem_cons_of_mem _ List.mem_cons_self)
    have := key y hy
    omega

theorem buildInv_mergeOnce {d : List Byte} {k : Nat} {s : Build} (h : BuildInv d k s) (hk : k < 255) :
    BuildInv d (k + 1) (mergeOnce k s) := by
  have hl := h.length
  obtain ⟨a, b, rest, hp, ha, hb, he⟩ := mergeOnce_spec k (s := s) (by omega)
  have hmem : ∀ y, y ∈ s.work ↔ y = a ∨ y = b ∨ y ∈ rest := fun y => by simpa using hp.mem_iff (a := y)
  have hlen : s.work.length = rest.length + 2 := by simpa using hp.length_eq
  have hna : a.num < 256 + s.merges.length := h.merges_length ▸ h.num_lt a ((hmem a).2 (.inl rfl))
  have hnb : b.num < 256 + s.merges.length := h.merges_length ▸ h.num_lt b ((hmem b).2 (.inr (.inl rfl)))
  have hnd : (a.num :: b.num :: rest.map (·.num)).Nodup := (hp.map Item.num).nodup_iff.1 h.num_nodup
  have hold : ∀ (w : List Item) (e : Merge) m, m < 256 + s.merges.length →
      nodeWeight d ⟨w, s.merges ++ [e]⟩ m = nodeWeight d s m := fun w e m hm => nodeWeight_append d w s.work _ _ hm
  rw [he]
  refine ⟨?_, ?_, ?_, ?_, ?_, ?_, ?_, ?_, ?_, ?_, ?_⟩
  · simp; omega
  · simp [h.merges_length]
  · refine List.Perm.trans ?_ h.leaves_perm
    refine List.Perm.trans ?_ (hp.flatMap_right fun y => leaves y.tree).symm
    simp only [List.flatMap_append, List.flatMap_cons, List.flatMap_nil, List.append_nil, leaves]
    rw [← List.append_assoc (leaves a.tree)]
    exact List.perm_append_comm
  · intro y hy
    rcases List.mem_append.1 hy with hy | hy
    · have := h.num_lt y ((hmem y).2 (.inr (.inr hy))); omega
    · simp only [List.mem_singleton] at hy; subst hy; simp
  · rw [List.map_append, List.nodup_append]
    refine ⟨(List.nodup_cons.1 (List.nodup_cons.1 hnd).2).2, by simp, ?_⟩
    intro x hx y hy
    simp only [List.map_cons, List.map_nil, List.mem_singleton] at hy
    obtain ⟨z, hz, rfl⟩ := List.mem_map.1 hx
    have := h.num_lt z ((hmem z).2 (.inr (.inr hz)))
    omega
  · intro y hy
    rcases List.mem_append.1 hy with hy | hy
    · exact h.weight_tree y ((hmem y).2 (.inr (.inr hy)))
    · simp only [List.mem_singleton] at hy
      subst hy
      dsimp only
      rw [treeWeight_node, h.weight_tree a ((hmem a).2 (.inl rfl)), h.weight_tree b ((hmem b).2 (.inr (.inl rfl)))]
  · intro y hy
    rcases List.mem_append.1 hy with hy | hy
    · have hy' := (hmem y).2 (.inr (.inr hy))
      rw [hold _ _ _ (by rw [h.merges_length]; exact h.num_lt y hy')]
      exact h.weight_node y hy'
    · simp only [List.mem_singleton] at hy
      subst hy
      rw [← h.merges_length]
      exact (nodeWeight_new d _ s.merges ⟨a.weight + b.weight, a.num, b.num⟩).symm
  · intro j e hj
    by_cases hjk : j < s.merges.length
    · rw [List.getElem?_append_left hjk] at hj
      have hm := h.merge j e hj
      refine ⟨hm.1, hm.2.1, hm.2.2.1, ?_⟩
      rw [hold _ _ _ (by omega), hold _ _ _ (by omega)]
      exact hm.2.2.2
    · rw [List.getElem?_append_right (by omega)] at hj
      have hj0 : j - s.merges.length = 0 := by
        by_contra hne
        rw [List.getElem?_eq_none (by simp; omega)] at hj
        simp at hj
      rw [hj0] at hj
      simp only [List.getElem?_cons_zero, Option.some.injEq] at hj
      subst hj
      have hjk' : s.merges.length = j := by omega
      rw [hjk'] at hna hnb
      dsimp only
      refine ⟨hna, hnb, fun hab => (List.nodup_cons.1 hnd).1 (hab ▸ List.mem_cons_self), ?_⟩
      rw [hold _ _ _ (by omega), hold _ _ _ (by omega), ← h.weight_node a ((hmem a).2 (.inl rfl)),
        ← h.weight_node b ((hmem b).2 (.inr (.inl rfl)))]
      exact ⟨rfl, ha b List.mem_cons_self⟩
  · have hc := h.cost
    rw [(hp.map fun y => treeCost d y.tree).sum_eq] at hc
    simp only [List.map_cons, List.sum_cons, List.map_append, List.map_nil, List.sum_append, List.sum_nil,
      treeCost_node, treeWeight_node] at hc ⊢
    rw [← hc, h.weight_tree a ((hmem a).2 (.inl rfl)), h.weight_tree b ((hmem b).2 (.inr (.inl rfl)))]
    omega
  · rw [List.pairwise_append]
    refine ⟨h.sorted, List.pairwise_singleton _ _, ?_⟩
    intro e hem e' hem'
    simp only [List.mem_singleton] at hem'
    subst hem'
    exact h.later e hem a b rest hp
  · intro e hem x y others hxy
    have hab : e.weight ≤ a.weight + b.weight := by
      rcases List.mem_append.1 hem with hem | hem
      · exact h.later e hem a b rest hp
      · simp only [List.mem_singleton] at hem; subst hem; exact le_refl _
    have hge : ∀ z, z ∈ rest ∨ z = ⟨256 + k, a.weight + b.weight, .node a.tree b.tree⟩ → b.weight ≤ z.weight := by
      rintro z (hz | rfl)
      · exact hb z hz
      · simp
    have hbx : x ∈ rest ∨ x = ⟨256 + k, a.weight + b.weight, .node a.tree b.tree⟩ := by
      simpa using hxy.mem_iff.2 List.mem_cons_self
    have hby : y ∈ rest ∨ y = ⟨256 + k, a.weight + b.weight, .node a.tree b.tree⟩ := by
      simpa using hxy.mem_iff.2 (List.mem_cons_of_mem _ List.mem_cons_self)
    have h1 := hge x hbx
    have h2 := hge y hby
    have h3 := ha b List.mem_cons_self
    omega

@[simp] theorem mergeFrom_zero (k : Nat) (s : Build) : mergeFrom 0 k s = s := by rw [mergeFrom]

theorem mergeFrom_succ (n k : Nat) (s : Build) : mergeFrom (n + 1) k s = mergeFrom n (k + 1) (mergeOnce k s) := by
  rw [mergeFrom]

theorem mergeFrom_add (m n k : Nat) (s : Build) : mergeFrom (m + n) k s = mergeFrom n (k + m) (mergeFrom m k s) := by
  induction m generalizing k s with
  | zero => simp
  | succ m ih => rw [Nat.add_right_comm, mergeFrom_succ, ih, mergeFrom_succ, Nat.add_right_comm, Nat.add_assoc k m 1]

theorem buildInv_mergeFrom {d : List Byte} {n k : Nat} {s : Build} (h : BuildInv d k s) (hn : k + n ≤ 255) :
    BuildInv d (k + n) (mergeFrom n k s) := by
  induction n generalizing k s with
  | zero => simpa using h
  | succ n ih =>
    have := ih (buildInv_mergeOnce h (by omega)) (by omega)
    rw [Nat.add_right_comm, Nat.add_assoc] at this
    rwa [mergeFrom_succ]

/-- Two elements of a list weigh at least its two lightest. -/
theorem pair_le {a b x y : Nat} {rest : Multiset Nat} (ha : ∀ z ∈ rest, a ≤ z) (hb : ∀ z ∈ rest, b ≤ z) (hab : a ≤ b)
    (h : ({x, y} : Multiset Nat) ≤ a ::ₘ b ::ₘ rest) : a + b ≤ x + y := by
  obtain ⟨u, hu⟩ := Multiset.le_iff_exists_add.1 h
  have hx : x = a ∨ x = b ∨ x ∈ rest := by
    have : x ∈ a ::ₘ b ::ₘ rest := by rw [hu]; simp
    simpa using this
  have hax : a ≤ x := by rcases hx with rfl | rfl | hx; exacts [le_refl _, hab, ha x hx]
  rcases eq_or_ne x a with rfl | hne
  · have hy : ({y} : Multiset Nat) ≤ b ::ₘ rest := by
      have : ({x, y} : Multiset Nat) = x ::ₘ {y} := rfl
      rw [this] at h
      exact (Multiset.cons_le_cons_iff x).1 h
    have : y = b ∨ y ∈ rest := by simpa using hy
    rcases this with rfl | hy
    · exact le_refl _
    · exact Nat.add_le_add_left (hb y hy) _
  · have hbx : b ≤ x := by
      rcases hx with rfl | rfl | hx; exacts [absurd rfl hne, le_refl _, hb x hx]
    have hy : y = a ∨ y = b ∨ y ∈ rest := by
      have : y ∈ a ::ₘ b ::ₘ rest := by rw [hu]; simp
      simpa using this
    have hay : a ≤ y := by rcases hy with rfl | rfl | hy; exacts [le_refl _, hab, ha y hy]
    omega

/-- The sum of the merges' weights. -/
def mergeCost (ms : List Merge) : Nat := (ms.map (·.weight)).sum

/-- `j` merges of a list that holds `2*j` chosen nodes cost at most their weights: the merges take two lightest nodes each
time. -/
theorem roundCost (j k : Nat) (s : Build) (R : Multiset Nat) (hR : R ≤ (s.work.map (·.weight) : Multiset Nat))
    (hc : R.card = 2 * j) (hl : j < s.work.length): 
    mergeCost (mergeFrom j k s).merges ≤ mergeCost s.merges + R.sum ∧
     (mergeFrom j k s).work.length + j = s.work.length
      ∧ ((mergeFrom j k s).work.map (·.weight)).sum = (s.work.map (·.weight)).sum := by
  induction j generalizing k s R with
  | zero => exact ⟨by simp, by simp, by simp⟩
  | succ j ih =>
    have hcard := Multiset.card_le_card hR
    simp [hc] at hcard
    obtain ⟨a, b, rest, hp, ha, hb, he⟩ := mergeOnce_spec k (s := s) (by omega)
    have hlen := hp.length_eq
    simp at hlen
    have hw : (s.work.map (·.weight) : Multiset Nat) = a.weight ::ₘ b.weight ::ₘ ((rest.map (·.weight) : List Nat) : Multiset Nat) := by
      have := hp.map (·.weight)
      simpa using (Multiset.coe_eq_coe.2 this)
    rw [hw] at hR
    set Rst : Multiset Nat := ((rest.map (·.weight) : List Nat) : Multiset Nat) with hRst
    have hQ : R - {a.weight, b.weight} ≤ Rst := by
      rw [tsub_le_iff_right]
      refine le_trans hR (le_of_eq ?_)
      rw [add_comm]; rfl
    have hQc : 2 * j ≤ (R - {a.weight, b.weight}).card := by
      have := Multiset.card_le_card (le_tsub_add : R ≤ R - {a.weight, b.weight} + {a.weight, b.weight})
      rw [Multiset.card_add, hc] at this
      have h2 : ({a.weight, b.weight} : Multiset Nat).card = 2 := rfl
      omega
    obtain ⟨R', hR'm⟩ : ∃ R', R' ∈ Multiset.powersetCard (2 * j) (R - {a.weight, b.weight}) := by
      refine Multiset.card_pos_iff_exists_mem.1 ?_
      rw [Multiset.card_powersetCard]; exact Nat.choose_pos hQc
    obtain ⟨hR', hR'c⟩ := Multiset.mem_powersetCard.1 hR'm
    have hR'R : R' ≤ R := le_trans hR' (Multiset.sub_le_self _ _)
    obtain ⟨u, hu⟩ := Multiset.le_iff_exists_add.1 hR'R
    have huc : u.card = 2 := by
      have := congrArg Multiset.card hu
      simp [hc, hR'c] at this
      omega
    obtain ⟨x, y, rfl⟩ := Multiset.card_eq_two.1 huc
    have hxy : a.weight + b.weight ≤ x + y := by
      refine pair_le (rest := Rst) ?_ ?_ (ha b (by simp)) (le_trans (hu ▸ Multiset.le_add_left _ _) hR)
      · intro z hz
        simp [hRst] at hz
        obtain ⟨w, hw, rfl⟩ := hz
        exact ha w (by simp [hw])
      · intro z hz
        simp [hRst] at hz
        obtain ⟨w, hw, rfl⟩ := hz
        exact hb w hw
    rw [mergeFrom_succ]
    have hih := ih (k + 1) (mergeOnce k s) R' (by
      rw [he]; simp only [List.map_append, ← Multiset.coe_add]
      exact le_trans (le_trans hR' hQ) (Multiset.le_add_right _ _)) hR'c (by rw [he]; simp; omega)
    obtain ⟨i1, i2, i3⟩ := hih
    have hsum : (s.work.map (·.weight)).sum = a.weight + (b.weight + (rest.map (·.weight)).sum) := by
      have := (hp.map (·.weight)).sum_eq
      simpa using this
    refine ⟨?_, ?_, ?_⟩
    · rw [he] at i1
      rw [he]
      simp [mergeCost] at i1 ⊢
      rw [hu]; simp; omega
    · rw [he] at i2 ⊢; simp at i2; omega
    · rw [i3, he, hsum]; simp; omega

/-- Halving a list costs at most its weight. -/
theorem fullRound (j k : Nat) (s : Build) (hj : 0 < j) (hl : s.work.length = 2 * j) :
    mergeCost (mergeFrom j k s).merges ≤ mergeCost s.merges + (s.work.map (·.weight)).sum ∧
     (mergeFrom j k s).work.length = j
      ∧ ((mergeFrom j k s).work.map (·.weight)).sum = (s.work.map (·.weight)).sum := by
  have := roundCost j k s (s.work.map (·.weight) : Multiset Nat) (le_refl _) (by simp [hl]) (by omega)
  refine ⟨by simpa using this.1, by omega, this.2.2⟩

theorem finished_buildInv (d : List Byte) : BuildInv d 255 (finishedBuild d) := by
  have := buildInv_mergeFrom (initial_buildInv d) (n := 255) (by omega)
  rwa [Nat.zero_add] at this

/-- The finished working list holds one node, and the tree is its tree. -/
theorem finished_work (d : List Byte) : ∃ root, (finishedBuild d).work = [root] ∧ buildTree d = root.tree := by
  have h := (finished_buildInv d).length
  rw [buildTree]
  match hw : (finishedBuild d).work with
  | [] => rw [hw] at h; simp at h
  | [root] => exact ⟨root, rfl, rfl⟩
  | a :: b :: rest => rw [hw] at h; simp at h

theorem leaves_buildTree (d : List Byte) : (leaves (buildTree d)).Perm ((List.range 256).map (BitVec.ofNat 8)) := by
  obtain ⟨root, hw, ht⟩ := finished_work d
  have := (finished_buildInv d).leaves_perm
  rw [hw] at this
  rw [ht]
  simpa using this

theorem length_leaves_buildTree (d : List Byte) : (leaves (buildTree d)).length = 256 := by
  rw [(leaves_buildTree d).length_eq]; simp

theorem nodup_leaves_buildTree (d : List Byte) : (leaves (buildTree d)).Nodup := by
  rw [(leaves_buildTree d).nodup_iff]
  refine List.nodup_range.map_on fun x hx y hy h => ?_
  have := congrArg BitVec.toNat h
  simp only [BitVec.toNat_ofNat] at this
  have hx := List.mem_range.1 hx
  have hy := List.mem_range.1 hy
  omega

theorem mem_leaves_buildTree (d : List Byte) (b : Byte) : b ∈ leaves (buildTree d) := by
  rw [(leaves_buildTree d).mem_iff, List.mem_map]
  exact ⟨b.toNat, List.mem_range.2 b.isLt, by simp⟩

/-- Every byte's code is a root-to-leaf path of the built tree. -/
theorem codeOf_buildTree_mem (d : List Byte) (b : Byte) : (b, codeOf (buildTree d) b) ∈ codes (buildTree d) [] :=
  codeOf_mem (mem_leaves_buildTree d b)

theorem length_shape_buildTree (d : List Byte) : (shape (buildTree d)).length = 511 := by
  have := length_shape (buildTree d)
  rw [length_leaves_buildTree] at this
  omega

theorem length_dataBits (t : Tree) (d : List Byte) : (dataBits t d).length = dataBitCount t d := by
  simp [dataBits, dataBitCount, List.length_flatMap]

theorem length_huffEncode (d : List Byte) : (huffEncode d).length = payloadLength (dataBitCount (buildTree d) d) := by
  simp only [huffEncode, List.length_append, length_be32, length_pack, length_dataBits, length_leaves_buildTree,
    length_shape_buildTree, payloadLength, payloadHead, ceil8]

/-- A sum over the elements of a list is a sum over the values it can have, each times its count. -/
theorem sum_map_eq_sum_count {ls : List Byte} (hnd : ls.Nodup) (f : Byte → Nat) {e : List Byte} (he : ∀ b ∈ e, b ∈ ls) :
    (e.map f).sum = (ls.map fun b => e.count b * f b).sum := by
  induction e with
  | nil => simp
  | cons x e ih =>
    have h1 : ∀ b, (x :: e).count b * f b = (if b = x then f x else 0) + e.count b * f b := by
      intro b
      rw [List.count_cons]
      by_cases hb : b = x
      · subst hb; simp [Nat.add_mul, Nat.add_comm]
      · simp [hb, Ne.symm hb]
    have h2 : ∀ ls : List Byte, (ls.map fun b => if b = x then f x else 0).sum = ls.count x * f x := by
      intro ls
      induction ls with
      | nil => simp
      | cons y ls ih =>
        rw [List.map_cons, List.sum_cons, ih, List.count_cons]
        by_cases hy : y = x
        · subst hy; simp [Nat.add_mul, Nat.add_comm]
        · simp [hy]
    rw [List.map_cons, List.sum_cons, ih fun b hb => he b (List.mem_cons_of_mem _ hb)]
    simp only [h1]
    rw [List.sum_map_add, h2, List.count_eq_one_of_mem hnd (he x List.mem_cons_self), Nat.one_mul]

/-- The number of data bits is the tree's cost. -/
theorem dataBitCount_eq_cost {t : Tree} (d : List Byte) (hnd : (leaves t).Nodup) (hall : ∀ b ∈ d, b ∈ leaves t) :
    dataBitCount t d = treeCost d t := by
  rw [treeCost, dataBitCount, sum_map_eq_sum_count hnd _ hall, ← map_fst_codes, List.map_map]
  congr 1
  refine List.map_congr_left fun p hp => ?_
  simp [codeOf_eq hnd (show (p.1, p.2) ∈ codes t [] from hp)]

/-- A tree whose leaves are all the bytes of the input, once each, weighs the input's length. -/
theorem treeWeight_eq_length {t : Tree} (d : List Byte) (hnd : (leaves t).Nodup) (hall : ∀ b ∈ d, b ∈ leaves t) :
    treeWeight d t = d.length := by
  have := sum_map_eq_sum_count hnd (fun _ => 1) hall
  simpa [treeWeight] using this.symm

/-- The number of data bits is the sum of the merges' weights. -/
theorem dataBitCount_eq_merges (d : List Byte) :
    dataBitCount (buildTree d) d = ((finishedBuild d).merges.map (·.weight)).sum := by
  obtain ⟨root, hw, ht⟩ := finished_work d
  have hc := (finished_buildInv d).cost
  rw [hw] at hc
  rw [dataBitCount_eq_cost d (nodup_leaves_buildTree d) fun b _ => mem_leaves_buildTree d b, ht, ← hc]
  simp

end Sys2Proof.Machine
end

