-- ==== Sys2Proof/Laws/HuffmanDecode.lean ====
section
/-! SUPPORT. The data decode in the terms of Sys2Proof/Safety.lean (43_huffman.md R221). -/

namespace Sys2Proof.Machine

theorem node_of_leaves {t : Tree} (h : 2 ≤ (leaves t).length) : ∃ l r, t = .node l r := by
  cases t with
  | leaf b => simp [leaves] at h
  | node l r => exact ⟨l, r, rfl⟩

theorem code_ne_nil {l r : Tree} {b : Byte} {p : List Bool} (h : (b, p) ∈ codes (.node l r) []) : p ≠ [] := by
  rintro rfl
  rw [codes_node] at h
  simp at h

theorem walk_parts (l r : Tree) (parts : List (Byte × List Bool)) (h : ∀ p ∈ parts, p ∈ codes (.node l r) []) :
    walk (.node l r) (.node l r) false (parts.flatMap (·.2)) = some (parts.map (·.1)) := by
  induction parts with
  | nil => rfl
  | cons p ps ih =>
    have hp := h p List.mem_cons_self
    rw [List.flatMap_cons, walk_code _ hp (code_ne_nil hp), ih fun q hq => h q (List.mem_cons_of_mem _ hq)]
    rfl

theorem parts_of_walk (l r : Tree) (n : Nat) : ∀ (bits : List Bool) (out : List Byte), bits.length ≤ n →
    walk (.node l r) (.node l r) false bits = some out → DecodesTo (.node l r) bits out := by
  induction n with
  | zero =>
    intro bits out hl h
    have : bits = [] := List.length_eq_zero_iff.1 (by omega)
    subst this
    simp [walk] at h
    exact ⟨[], by simp, rfl, by simp [h]⟩
  | succ n ih =>
    intro bits out hl h
    rcases walk_some _ h with ⟨-, rfl, rfl⟩ | ⟨b, p, rest, out', hp, rfl, rfl, ho⟩
    · exact ⟨[], by simp, rfl, rfl⟩
    · have hne := code_ne_nil hp
      have : 0 < p.length := List.length_pos_iff.2 hne
      simp at hl
      obtain ⟨parts, h1, h2, h3⟩ := ih rest out' (by omega) ho
      refine ⟨(b, p) :: parts, ?_, by simp [h2], by simp [h3]⟩
      intro q hq
      rcases List.mem_cons.1 hq with rfl | hq
      · exact hp
      · exact h1 q hq

/-- The walk from the root succeeds exactly when the bits are codes one after another. -/
theorem walk_eq_some_iff {t : Tree} (h : 2 ≤ (leaves t).length) (bits : List Bool) (out : List Byte) :
    walk t t false bits = some out ↔ DecodesTo t bits out := by
  obtain ⟨l, r, rfl⟩ := node_of_leaves h
  constructor
  · exact parts_of_walk l r bits.length bits out (le_refl _)
  · rintro ⟨parts, h1, rfl, rfl⟩
    exact walk_parts l r parts fun p hp => h1 p hp

theorem length_leaves_of_describes {p : List Byte} {t : Tree} (h : 324 ≤ p.length) (ht : Describes p t) :
    (leaves t).length = 256 := by
  rw [ht.2, List.length_take, List.length_drop]
  omega

end Sys2Proof.Machine
end

