-- ==== Sys2Proof/Laws/Invariant.lean ====
section
/-! SUPPORT. The invariant and the shared operations: each keeps it, given what the checks before it have established. -/

namespace Sys2Proof.Machine

theorem ErrCode.value_range (c : ErrCode) : 1 ≤ c.value.toNat ∧ c.value.toNat ≤ 8 := by cases c <;> decide

theorem inv_raise {s : State} (h : Inv s) (cmd : Word) (c : ErrCode) (info : Nat) : Inv (s.recordFault cmd c info) :=
  ⟨h.1, h.2.1, h.2.2.1, h.2.2.2.1, h.2.2.2.2.1, ⟨fun hf => (Bool.noConfusion hf), fun _ => c.value_range⟩, h.2.2.2.2.2.2⟩

theorem inv_frame {s : State} (h : Inv s) {m : Mem} (hw : m.wf = true) (hf : m.fits s.cfg.frameCap = true) (b : Block) :
    Inv { s with frame := m, blk := b } :=
  ⟨h.1, h.2.1, ⟨h.2.2.1.1, h.2.2.1.2.1, h.2.2.1.2.2.1, hw, hf⟩, h.2.2.2.1, h.2.2.2.2.1, h.2.2.2.2.2.1, h.2.2.2.2.2.2⟩

theorem wf_scatterElements {m : Mem} (h : m.wf = true) (w tx ty : Nat) (b : Block) (ks : List Nat) :
    (scatterElements m w tx ty b ks).wf = true := by
  induction ks generalizing m with
  | nil => exact h
  | cons k ks ih => exact ih (Mem.wf_write h _ _)

theorem fits_scatterElements {m : Mem} {cap : Nat} (h : m.fits cap = true) (w tx ty : Nat) (b : Block) (ks : List Nat)
    (hk : ∀ k ∈ ks, tileAddr w tx ty k < cap) : (scatterElements m w tx ty b ks).fits cap = true := by
  induction ks generalizing m with
  | nil => exact h
  | cons k ks ih =>
    exact ih (Mem.fits_write h (hk k List.mem_cons_self) _) fun j hj => hk j (List.mem_cons_of_mem _ hj)

theorem tileAddr_lt {s : State} (h : GeometryOk s) {tx ty k : Nat} (hx : tx < s.width.toNat / 8)
    (hy : ty < s.height.toNat / 8) (hk : k < 64) : tileAddr s.frameW tx ty k < s.cfg.frameCap := by
  have := yaddr_lt_frameLength (w := s.width.toNat) (h := s.height.toNat) h.1 h.2.1 (x := 8 * tx + k % 8) (y := 8 * ty + k / 8) (by omega) (by omega)
  exact Nat.lt_of_lt_of_le this h.2.2

theorem foldTiles_keeps (f : Block → Block) (s : State) (h : GeometryOk s) (ts : List (Nat × Nat))
    (hts : ∀ t ∈ ts, t.1 < s.width.toNat / 8 ∧ t.2 < s.height.toNat / 8)
    (hw : s.frame.wf = true) (hf : s.frame.fits s.cfg.frameCap = true) :
    (ts.foldl (State.transformTile f) s).frame.wf = true ∧
    (ts.foldl (State.transformTile f) s).frame.fits s.cfg.frameCap = true := by
  induction ts generalizing s with
  | nil => exact ⟨hw, hf⟩
  | cons t ts ih =>
    have ht := hts t List.mem_cons_self
    exact ih (State.transformTile f s t) h (fun q hq => hts q (List.mem_cons_of_mem _ hq))
      (wf_scatterElements hw _ _ _ _ _)
      (fits_scatterElements hf _ _ _ _ _ fun k hk => tileAddr_lt h ht.1 ht.2 (List.mem_range.1 hk))

theorem transformFrame_keeps (f : Block → Block) {s : State} (h : GeometryOk s) (hi : Inv s) : Inv (s.transformFrame f) := by
  rw [transformFrame_eq]
  have := foldTiles_keeps f s h (tileOrder s.tilesWide s.tilesHigh) (fun t ht => mem_tileOrder.1 ht) hi.2.2.1.2.2.2.1 hi.2.2.1.2.2.2.2
  exact inv_frame hi this.1 this.2 _

theorem inv_setFrameByte {s : State} (h : Inv s) {i : Nat} (hi : i < s.cfg.frameCap) (v : Byte) : Inv (s.setFrameByte i v) :=
  inv_frame h (Mem.wf_write h.2.2.1.2.2.2.1 i v) (Mem.fits_write h.2.2.1.2.2.2.2 hi v) s.blk

theorem inv_res {s : State} (h : Inv s) (v : Word) : Inv { s with res := v } := h

theorem inv_hvalid {s : State} (h : Inv s) : Inv s.invalidateTables := h

theorem inv_loaded {s : State} (h : Inv s) {bytes : List Byte} (hl : bytes.length ≤ s.cfg.obufCap) : Inv (s.produce bytes) := by
  refine ⟨h.1, h.2.1, ⟨h.2.2.1.1, ⟨Mem.wf_loaded _ _ _, Mem.fits_loaded hl _⟩, h.2.2.1.2.2⟩, h.2.2.2.1, h.2.2.2.2.1, h.2.2.2.2.2.1, ?_⟩
  have hc := Config.caps_of_wf h.1
  change (BitVec.ofNat 32 bytes.length).toNat ≤ s.cfg.obufCap
  rw [BitVec.toNat_ofNat]
  exact le_trans (Nat.mod_le _ _) hl

theorem inv_obufUnspecified {s : State} (h : Inv s) : Inv s.obufUnspecified :=
  ⟨h.1, h.2.1, ⟨h.2.2.1.1, ⟨Mem.wf_havoc h.2.2.1.2.1.1 _ _ _ _, Mem.fits_havoc h.2.2.1.2.1.2 (le_refl _) _ _⟩, h.2.2.1.2.2⟩, h.2.2.2.1, h.2.2.2.2.1, h.2.2.2.2.2.1, h.2.2.2.2.2.2⟩

theorem inv_frameUnspecified {s : State} (h : Inv s) (g : GeometryOk s) : Inv s.frameUnspecified :=
  ⟨h.1, h.2.1, ⟨h.2.2.1.1, h.2.2.1.2.1, h.2.2.1.2.2.1, ⟨Mem.wf_havoc h.2.2.1.2.2.2.1 _ _ _ _, Mem.fits_havoc h.2.2.1.2.2.2.2 g.2.2 _ _⟩⟩, h.2.2.2.1, h.2.2.2.2.1, h.2.2.2.2.2.1, h.2.2.2.2.2.2⟩

/-- What the writer's commands keep: a new `WBUF` and pointer that meet the writer's invariant, the reader detached. -/
theorem inv_wbuf {s : State} (h : Inv s) {m : Mem} {B : Word} {b : BitVec 3} (hm : m.wf = true) (hf : m.fits s.cfg.wbufCap = true)
   (hB : B.toNat + 1 ≤ s.cfg.wbufCap) (hz : ∀ k, b.toNat ≤ k → k < 8 → streamBit (m.read B.toNat) k = false)
   (hr : ∀ i, i ≤ B.toNat → m.hostRead i = some (m.read i)) :
   Inv (State.detachWbufReader { s with wbuf := m, bswByte := B, bswBit := b }) := by
  obtain ⟨h1, h2, h3, h4, h5, h6, h7⟩ := h
  refine ⟨h1, h2, ⟨h3.1, h3.2.1, ⟨hm, hf⟩, h3.2.2.2⟩, ⟨hB, hz, hr⟩, ⟨h5.1, fun hv => ?_⟩, h6, h7⟩
  have hv' : (s.bsrValid && s.bsrSrc != .wbuf) = true := hv
  simp at hv'
  obtain ⟨a, b', c⟩ := h5.2 hv'.1
  refine ⟨a, b', ?_⟩
  cases hs : s.bsrSrc with
  | ibuf => rw [hs] at c; simpa [hs] using c
  | wbuf => exact absurd hs hv'.2

end Sys2Proof.Machine
end

