-- ==== Sys2Proof/Laws/PerInstr.lean ====
section
/-! SUPPORT. One family of statements about the instruction as syntax, one lemma per constructor: its word is legal, has the
opcode in bits [31:24] and the operand bit in bit [0], and decodes to it (30_encoding.md R91, R92). -/

namespace Sys2Proof.Laws.Encoding

/-- The word of the instruction is legal, carries its opcode and its operand bit, and decodes to the instruction. -/
def Statement (i : Instr) : Prop :=
  i.wf = true ∧ opcodeField (encode i) = i.opcode ∧ bitField (encode i) = i.operandBit ∧ decode (encode i) = .ok i

theorem reset : Statement .reset := by unfold Statement; decide
theorem bswInit : Statement .bswInit := by unfold Statement; decide
theorem bswWrite (b : Bool) : Statement (.bswWrite b) := by unfold Statement; cases b <;> decide
theorem bsrInit (src : Source) : Statement (.bsrInit src) := by unfold Statement; cases src <;> decide
theorem bsrRead : Statement .bsrRead := by unfold Statement; decide
theorem blkLd : Statement .blkLd := by unfold Statement; decide
theorem blkSt : Statement .blkSt := by unfold Statement; decide
theorem dctFwd : Statement .dctFwd := by unfold Statement; decide
theorem dctInv : Statement .dctInv := by unfold Statement; decide
theorem frmFwd : Statement .frmFwd := by unfold Statement; decide
theorem frmInv : Statement .frmInv := by unfold Statement; decide
theorem getY : Statement .getY := by unfold Statement; decide
theorem getU : Statement .getU := by unfold Statement; decide
theorem getV : Statement .getV := by unfold Statement; decide
theorem setY : Statement .setY := by unfold Statement; decide
theorem setU : Statement .setU := by unfold Statement; decide
theorem setV : Statement .setV := by unfold Statement; decide
theorem hufBuild : Statement .hufBuild := by unfold Statement; decide
theorem hufEnc : Statement .hufEnc := by unfold Statement; decide
theorem hufDec : Statement .hufDec := by unfold Statement; decide
theorem pipeEnc : Statement .pipeEnc := by unfold Statement; decide
theorem pipeDec : Statement .pipeDec := by unfold Statement; decide

end Sys2Proof.Laws.Encoding
end

