-- ==== Sys2Proof/Laws/Scripts.lean ====
section
/-! SUPPORT. What scripts do: one action after another, a command of a block that is neither busy nor faulted, and the copy of
a byte list to `IBUF`. -/

namespace Sys2Proof.Machine

@[simp] theorem runScript_nil (s : State) : runScript [] s = .next s := rfl

theorem runScript_cons {a : HostAction} {rest : List HostAction} {s t : State} (h : hostStep a s = .next t) :
    runScript (a :: rest) s = runScript rest t := by rw [runScript, h]

theorem runScript_append {as bs : List HostAction} {s t : State} (h : runScript as s = .next t) :
    runScript (as ++ bs) s = runScript bs t := by
  induction as generalizing s with
  | nil => simp only [runScript_nil, Host.Outcome.next.injEq] at h; rw [h]; rfl
  | cons a as ih =>
    rw [List.cons_append, runScript]
    rw [runScript] at h
    cases ha : hostStep a s with
    | next u => rw [ha] at h; exact ih h
    | fault f => rw [ha] at h; simp at h
    | refused r => rw [ha] at h; simp at h

theorem hostStep_not_busy {s : State} (h : s.busy = false) (a : HostAction) : hostStep a s = performAction a s := by
  simp [hostStep, h]

/-- The words of commands decode to them. -/
theorem decode_encode_eq (i : Instr) : decode (encode i) = .ok i := by
  cases i with
  | bswWrite b => exact (Laws.Encoding.bswWrite b).2.2.2
  | bsrInit src => exact (Laws.Encoding.bsrInit src).2.2.2
  | _ => rfl

/-- A command issued to a block that is neither busy nor faulted executes. -/
theorem hostStep_cmdLine {s : State} (hb : s.busy = false) (hf : s.fault = false) (i : Instr) :
    hostStep (cmdLine i) s = exec i s := by
  rw [hostStep_not_busy hb, cmdLine, performAction, issue, hf, decode_encode_eq]
  rfl

/-- Writing a byte list to `IBUF` byte by byte. -/
theorem runScript_writes {s : State} (hb : s.busy = false) (bytes : List Byte) (i : Nat)
    (h : i + bytes.length ≤ s.cfg.ibufCap) :
    runScript ((bytes.zipIdx i).map fun p => HostAction.writeByte .ibuf p.2 p.1) s
      = .next { s with ibuf := s.ibuf.writeList i bytes } := by
  induction bytes generalizing s i with
  | nil => rfl
  | cons b bytes ih =>
    simp only [List.length_cons] at h
    rw [List.zipIdx_cons, List.map_cons]
    have hw : hostStep (.writeByte .ibuf i b) s = .next { s with ibuf := s.ibuf.write i b } := by
      rw [hostStep_not_busy hb, performAction, if_pos (show i < ByteSpace.size s.cfg .ibuf by simp only [ByteSpace.size]; omega)]
      rfl
    rw [runScript_cons hw]
    exact ih (s := { s with ibuf := s.ibuf.write i b }) hb (i + 1) (by dsimp only; omega)

/-- The copy of a byte list to `IBUF` leaves it in `IBUF[0..n)` and its length in `ILEN`. -/
theorem runScript_copyToInput {s : State} (hb : s.busy = false) (bytes : List Byte) (h : bytes.length ≤ s.cfg.ibufCap) :
    runScript (copyToInput bytes) s
      = .next { s with ibuf := s.ibuf.writeList 0 bytes, ilen := BitVec.ofNat 32 bytes.length } := by
  rw [copyToInput, runScript_append (runScript_writes hb bytes 0 (by omega))]
  exact runScript_cons (hostStep_not_busy (s := { s with ibuf := s.ibuf.writeList 0 bytes }) hb _)

end Sys2Proof.Machine
end

