-- ==== Sys2Proof/Tests/Slice0.lean ====
section
/-! SUPPORT. Tests: the well-formedness checks on ill-formed terms, the decoding of every command's word, small steps of each
command with results from spec/95_test_vectors.md and the worked examples of the rules, and for each statement of
Sys2Proof/Certificates/Slice0/Obligations.lean states that meet its hypotheses. -/

namespace Sys2Proof.Tests

open Sys2Proof.Machine

/- One theorem after another: the kernel's evaluations side by side would need too much memory. -/
set_option Elab.async false

/-! ### States for the tests -/

/-- A small configuration: `IBUF` and `OBUF` of 1024 and 324 bytes, `WBUF` of 2, `FRAME` of 192. -/
def small : Config := { Config.default with ibufCap := 1024, obufCap := 324, wbufCap := 2, frameCap := 192 }

/-- The reset state with every memory all zeros. -/
def clean : State :=
  { State.resetWith small with ibuf := ⟨[], []⟩, obuf := ⟨[], []⟩, wbuf := ⟨[], []⟩, frame := ⟨[], []⟩ }

/-- A frame of 8 by 8 pixels, one tile. -/
def tiny : State := { clean with width := 8#16, height := 8#16 }

/-- The frame of the rules' worked examples, 16 by 8 pixels (20_memory.md R69). -/
def wide : State := { clean with width := 16#16, height := 8#16 }

/-- A writer with seven bits of its first byte written (40_bitstream.md R122). -/
def seven : State := { clean with wbuf := ⟨[(0, 0xB2#8)], []⟩, bswBit := 7#3 }

/-- A writer that is full: the last byte's last bit is left (95_test_vectors.md V-BS-11). -/
def full : State := { clean with wbuf := ⟨[(0, 0xFF#8), (1, 0xFE#8)], []⟩, bswByte := 1#32, bswBit := 7#3 }

/-- A reader over the single byte `0xB2` (95_test_vectors.md V-BS-4). -/
def reader : State :=
  { clean with ibuf := ⟨[(0, 0xB2#8)], []⟩, ilen := 1#32, bsrValid := true, bsrLen := 1#32 }

/-- The reader when its byte is read. -/
def readOut : State := { reader with bsrByte := 1#32 }

/-- A block in the faulted state. -/
def faulted : State := clean.afterFault 0x13000000#32 2#4 0

/-- A state whose input is a byte list. -/
def holding (bytes : List Byte) (s : State) : State :=
  { s with ilen := BitVec.ofNat 32 bytes.length, ibuf := Mem.loaded bytes s.cfg.ibufCap 0 }

/-- "abracadabra". -/
def abracadabra : List Byte :=
  [0x61#8, 0x62#8, 0x72#8, 0x61#8, 0x63#8, 0x61#8, 0x64#8, 0x61#8, 0x62#8, 0x72#8, 0x61#8]

/-- The next state of an outcome, where it has one. -/
def nextOf (r : Result) : Option State :=
  match r with
  | .next t => some t
  | .fault _ => none
  | .refused _ => none

/-- Whether an outcome is a refusal, and which. -/
def refusalOf (r : Result) : Option Refusal :=
  match r with
  | .next _ => none
  | .fault _ => none
  | .refused x => some x

/-! ### Well-formedness: an ill-formed term for each check -/

theorem test_wf_default : Config.default.wf = true := by decide +kernel
theorem test_wf_small : small.wf = true := by decide +kernel
theorem test_wf_refuses_small_ibuf : Config.wf { small with ibufCap := 323 } = false := by decide +kernel
theorem test_wf_refuses_large_ibuf : Config.wf { small with ibufCap := 2 ^ 29 } = false := by decide +kernel
theorem test_wf_refuses_small_obuf : Config.wf { small with obufCap := 323 } = false := by decide +kernel
theorem test_wf_refuses_large_obuf : Config.wf { small with obufCap := 2 ^ 29 } = false := by decide +kernel
theorem test_wf_refuses_empty_wbuf : Config.wf { small with wbufCap := 0 } = false := by decide +kernel
theorem test_wf_refuses_large_wbuf : Config.wf { small with wbufCap := 2 ^ 29 } = false := by decide +kernel
theorem test_wf_refuses_large_frame : Config.wf { small with frameCap := 2 ^ 29 } = false := by decide +kernel
theorem test_wf_refuses_zero_divisor : Config.wf { small with qtab := small.qtab.set 5 0 } = false := by decide +kernel
theorem test_wf_refuses_large_divisor : Config.wf { small with qtab := small.qtab.set 63 256 } = false := by decide +kernel
theorem test_wf_refuses_index : HostAction.wf small (.readByte .wbuf 2) = false
    ∧ HostAction.wf small (.writeByte .blk 64 0#8) = false ∧ HostAction.wf small (.readWord .hlink 511) = false
    ∧ HostAction.wf small (.writeWord .hweight 511 0#32) = false ∧ HostAction.wf small (.readByte .hlen 255) = true := by
  decide
theorem test_wf_refuses_illegal_words : legalWord 0x00000000#32 = false ∧ legalWord 0xFFFFFFFF#32 = false
    ∧ legalWord 0x01000001#32 = false ∧ legalWord 0x11000002#32 = false ∧ legalWord 0x12800000#32 = false
    ∧ legalWord 0x37000000#32 = false := by decide
theorem test_wf_every_instr : ∀ b, (Instr.bswWrite b).wf = true := by decide

/-! ### Decoding: each word written out from 30_encoding.md R91, R92 -/

theorem test_decode_reset : decode 0b00000001_00000000_00000000_00000000#32 = .ok .reset := by decide
theorem test_decode_bswInit : decode 0b00010000_00000000_00000000_00000000#32 = .ok .bswInit := by decide
theorem test_decode_bswWrite : decode 0b00010001_00000000_00000000_00000000#32 = .ok (.bswWrite false)
    ∧ decode 0b00010001_00000000_00000000_00000001#32 = .ok (.bswWrite true) := by decide
theorem test_decode_bsrInit : decode 0b00010010_00000000_00000000_00000000#32 = .ok (.bsrInit .ibuf)
    ∧ decode 0b00010010_00000000_00000000_00000001#32 = .ok (.bsrInit .wbuf) := by decide
theorem test_decode_bsrRead : decode 0b00010011_00000000_00000000_00000000#32 = .ok .bsrRead := by decide
theorem test_decode_blkLd : decode 0b00100000_00000000_00000000_00000000#32 = .ok .blkLd := by decide
theorem test_decode_blkSt : decode 0b00100001_00000000_00000000_00000000#32 = .ok .blkSt := by decide
theorem test_decode_dctFwd : decode 0b00100010_00000000_00000000_00000000#32 = .ok .dctFwd := by decide
theorem test_decode_dctInv : decode 0b00100011_00000000_00000000_00000000#32 = .ok .dctInv := by decide
theorem test_decode_frmFwd : decode 0b00110000_00000000_00000000_00000000#32 = .ok .frmFwd := by decide
theorem test_decode_frmInv : decode 0b00110001_00000000_00000000_00000000#32 = .ok .frmInv := by decide
theorem test_decode_getY : decode 0b00110100_00000000_00000000_00000000#32 = .ok .getY := by decide
theorem test_decode_getU : decode 0b00110101_00000000_00000000_00000000#32 = .ok .getU := by decide
theorem test_decode_getV : decode 0b00110110_00000000_00000000_00000000#32 = .ok .getV := by decide
theorem test_decode_setY : decode 0b00111000_00000000_00000000_00000000#32 = .ok .setY := by decide
theorem test_decode_setU : decode 0b00111001_00000000_00000000_00000000#32 = .ok .setU := by decide
theorem test_decode_setV : decode 0b00111010_00000000_00000000_00000000#32 = .ok .setV := by decide
theorem test_decode_hufBuild : decode 0b01000000_00000000_00000000_00000000#32 = .ok .hufBuild := by decide
theorem test_decode_hufEnc : decode 0b01000001_00000000_00000000_00000000#32 = .ok .hufEnc := by decide
theorem test_decode_hufDec : decode 0b01000010_00000000_00000000_00000000#32 = .ok .hufDec := by decide
theorem test_decode_pipeEnc : decode 0b01010000_00000000_00000000_00000000#32 = .ok .pipeEnc := by decide
theorem test_decode_pipeDec : decode 0b01010001_00000000_00000000_00000000#32 = .ok .pipeDec := by decide
/-- 30_encoding.md R94: unassigned opcodes, and must-be-0 bits. -/
theorem test_decode_rejects : decode 0x14000000#32 = .error (.unassignedOpcode 0x14#8)
    ∧ decode 0x13000001#32 = .error (.mustBeZeroBitSet 0x13#8) ∧ decode 0x11000003#32 = .error (.mustBeZeroBitSet 0x11#8)
    ∧ decode 0x01800000#32 = .error (.mustBeZeroBitSet 0x01#8) := by decide
theorem test_decodeTableWord : decodeTableWord 32 0x12000001 = some (.bsrInit .wbuf)
    ∧ decodeTableWord 32 0 = none := by decide

/-! ### One step of each command -/

/-- V-BS-6, V-BS-5. -/
theorem test_bsrRead_faults : (nextOf (exec .bsrRead clean)).map (fun t => (t.status, t.err, t.errcmd)) =
      some (0x01#32, 2#4, 0x13000000#32)
    ∧ (nextOf (exec .bsrRead readOut)).map (fun t => (t.status, t.err, t.errinfo, t.res, t.bsrByte)) =
      some (0x05#32, 3#4, 8#32, 0#32, 1#32) := by decide +kernel
/-- V-BS-4: the bits of `0xB2` are 1, 0, 1, 1, 0, 0, 1, 0. -/
theorem test_bsrRead_bits : (nextOf (exec .bsrRead reader)).map (fun t => (t.res, t.bsrBit)) = some (1#32, 1#3)
    ∧ (nextOf (exec .bsrRead { reader with bsrBit := 6#3 })).map (fun t => (t.res, t.bsrBit)) = some (1#32, 7#3)
    ∧ (nextOf (exec .bsrRead { reader with bsrBit := 7#3 })).map (fun t => (t.res, t.bsrBit, t.bsrByte)) =
      some (0#32, 0#3, 1#32) := by decide +kernel
/-- 40_bitstream.md R123, the worked example; V-BS-8. -/
theorem test_bsrInit : (nextOf (exec (.bsrInit .ibuf) { clean with ilen := 327#32, a0 := 260#32 })).map
      (fun t => (t.bsrBase, t.bsrLen, t.bsrByte, t.bsrBit, t.status)) = some (260#32, 67#32, 0#32, 0#3, 0x04#32)
    ∧ (nextOf (exec (.bsrInit .ibuf) { clean with ilen := 4#32, a0 := 5#32 })).map
      (fun t => (t.err, t.errinfo, t.errcmd, t.bsrValid)) = some (5#4, 5#32, 0x12000000#32, false) := by decide +kernel
/-- V-BS-1's fourth bit: `101` then 1 gives `0xB0`. -/
theorem test_bswWrite : (nextOf (exec (.bswWrite true) { clean with wbuf := ⟨[(0, 0xA0#8)], []⟩, bswBit := 3#3 })).map
      (fun t => (t.wbuf.cells, t.bswByte, t.bswBit)) = some ([(0, 0xB0#8)], 0#32, 4#3) := by decide +kernel
/-- V-BS-2's eighth bit: the byte is complete and a zero byte grows; V-BS-11's sixteenth. -/
theorem test_bswWrite_grows_or_faults : (nextOf (exec (.bswWrite false) seven)).map
      (fun t => (t.wbuf.cells, t.bswByte, t.bswBit, t.bswBits, t.bswBytes)) = some ([(0, 0xB2#8)], 1#32, 0#3, 8, 1)
    ∧ (nextOf (exec (.bswWrite true) full)).map (fun t => (t.err, t.errinfo, t.errcmd, t.wbuf.cells)) =
      some (7#4, 15#32, 0x11000001#32, [(0, 0xFF#8), (1, 0xFE#8)]) := by decide +kernel
/-- V-BS-7: the writer detaches a reader of `WBUF`; 40_bitstream.md R121. -/
theorem test_bswInit : (nextOf (exec .bswInit { full with bsrValid := true, bsrSrc := .wbuf })).map
      (fun t => (t.status, t.bswByte, t.bswBit, t.wbuf.read 0)) = some (0x08#32, 0#32, 0#3, 0#8) := by decide +kernel
/-- 41_block_transform.md R158, the worked example. -/
theorem test_blkLd : (nextOf (exec .blkLd { wide with a0 := 1#32, frame := ⟨[(16, 1#8), (17, 2#8), (18, 3#8), (20, 4#8)], []⟩ })).map
      (fun t => (tableGet t.blk 0, tableGet t.blk 1, tableGet t.blk 2, tableGet t.blk 8)) = some (1#8, 2#8, 4#8, 3#8)
    ∧ (nextOf (exec .blkLd { tiny with a1 := 1#32 })).map (fun t => (t.err, t.errinfo)) = some (5#4, 1#32) := by
  decide +kernel
/-- 41_block_transform.md R159, the worked example. -/
theorem test_blkSt : (nextOf (exec .blkSt { wide with blk := tableSet wide.blk 9 0x55#8 })).map (·.frame.cells) =
    some [(3, 0x55#8)] := by decide +kernel
/-- V-DCT-4: a block of zeros. -/
theorem test_dctFwd : (nextOf (exec .dctFwd clean)).map (fun t => tableGet t.blk 0) = some 64#8 := by decide +kernel
/-- V-DCT-14: `BLK[0] = 129`, all others 128. -/
theorem test_dctInv :
    (nextOf (exec .dctInv { clean with blk := tableOf 64 fun k => if k = 0 then 129#8 else 128#8 })).map
      (fun t => tableGet t.blk 17) = some 130#8 := by decide +kernel
/-- V-DCT-4 under `NUM = REAL`. -/
theorem test_dctFwd_real : (nextOf (exec .dctFwd { clean with cfg := { small with num := .real } })).map
      (fun t => tableGet t.blk 0) = some 64#8 := by decide +kernel
/-- 41_block_transform.md R153, R154: the scalar vectors of `rnd` and `rebias`. -/
theorem test_rnd : F64.rnd ⟨false, 5, -1⟩ = 3 ∧ F64.rnd ⟨true, 5, -1⟩ = -3 ∧ F64.rnd ⟨true, 1, -1⟩ = -1
    ∧ F64.rnd ⟨true, 7, -4⟩ = 0 ∧ F64.rnd ⟨true, 0, 0⟩ = 0 := by decide +kernel
theorem test_rebias : [rebias 0, rebias (-64), rebias 127, rebias 128, rebias 130, rebias (-129)] =
    [128#8, 64#8, 255#8, 0#8, 2#8, 255#8] := by decide +kernel
/-- 42_frame.md R190, R191: a frame without a tile is left as it is; odd geometry faults. -/
theorem test_frmFwd_no_tile : (nextOf (exec .frmFwd { wide with height := 6#16 })).map (fun t => (t.frame, t.blk, t.fault)) =
      some (wide.frame, wide.blk, false)
    ∧ (nextOf (exec .frmFwd { wide with width := 7#16 })).map (fun t => (t.err, t.errinfo)) =
      some (6#4, 0x00080007#32) := by decide +kernel
/-- 42_frame.md R190, S6: a grey tile stays grey. -/
theorem test_frmFwd_grey : (nextOf (exec .frmFwd { tiny with frame := Mem.loaded (List.replicate 96 128#8) 96 0 })).map
      (fun t => (t.frame.slice 0 96, t.blk)) = some (List.replicate 96 128#8, tableOf 64 fun _ => 128#8) := by
  decide +kernel
theorem test_frmInv_no_tile : (nextOf (exec .frmInv { wide with height := 6#16 })).map (fun t => (t.frame, t.blk, t.fault)) =
      some (wide.frame, wide.blk, false)
    ∧ (nextOf (exec .frmInv { wide with height := 9#16 })).map (fun t => (t.err, t.errinfo)) =
      some (6#4, 0x00090010#32) := by decide +kernel
/-- 42_frame.md R183 to R185, the worked examples. -/
theorem test_get : [Instr.getY, .getU, .getV].map (fun i => (nextOf (exec i
      { wide with a0 := 5#32, a1 := 3#32, frame := ⟨[(43, 7#8), (138, 8#8), (170, 255#8)], []⟩ })).map (·.res)) =
    [some 7#32, some 8#32, some 255#32] := by decide +kernel
/-- 42_frame.md R181: `ERR_RANGE` for `x`, then for `y`. -/
theorem test_get_range : [Instr.getY, .getU, .getV].map (fun i => (nextOf (exec i
      { wide with a0 := 16#32, a1 := 8#32 })).map fun t => (t.err, t.errinfo)) = List.replicate 3 (some (5#4, 16#32))
    ∧ [Instr.getY, .getU, .getV].map (fun i => (nextOf (exec i { wide with a0 := 15#32, a1 := 8#32 })).map
      fun t => (t.err, t.errinfo)) = List.replicate 3 (some (5#4, 8#32)) := by decide +kernel
/-- 42_frame.md R186 to R188, the worked examples. -/
theorem test_set : (nextOf (exec .setY { wide with a1 := 1#32, a2 := 0x7F#32 })).map (·.frame.cells) = some [(2, 0x7F#8)]
    ∧ (nextOf (exec .setU { wide with a0 := 5#32, a1 := 3#32, a2 := 0x90#32 })).map (·.frame.cells) = some [(138, 0x90#8)]
    ∧ (nextOf (exec .setV { wide with a0 := 5#32, a1 := 3#32, a2 := 0x70#32 })).map (·.frame.cells) =
      some [(170, 0x70#8)] := by decide +kernel
theorem test_set_range : [Instr.setY, .setU, .setV].map (fun i => (nextOf (exec i { wide with a2 := 256#32 })).map
      fun t => (t.err, t.errinfo, t.frame)) = List.replicate 3 (some (5#4, 256#32, wide.frame)) := by decide +kernel
/-- 44_pipeline_system.md R246, the worked example. -/
theorem test_reset : (nextOf (exec .reset (readOut.afterFault 0x13000000#32 3#4 8))).map
      (fun t => (t.status, t.err, t.errinfo, t.errcmd, t.bsrByte)) = some (0#32, 0#4, 0#32, 0#32, 0#32)
    ∧ (nextOf (exec .reset readOut)).map (·.ibuf) = some readOut.ibuf := by decide +kernel
/-- V-HUF-4: "abracadabra". -/
theorem test_hufBuild : (nextOf (exec .hufBuild (holding abracadabra clean))).map
      (fun t => (t.hnbits, [0x61, 0x62, 0x72, 0x64, 0x63].map (tableGet t.hlen), tableGet t.hweight 510, t.status)) =
    some (24#32, [1#8, 3#8, 3#8, 3#8, 4#8], 11#32, 0x10#32) := by decide +kernel
/-- V-HUF-4: the payload's length and its data bytes. -/
theorem test_hufEnc : (nextOf (exec .hufEnc (holding abracadabra { clean with cfg := Config.default }))).map
      (fun t => (t.olen, t.obuf.slice 0 4, t.obuf.slice 324 3, t.obuf.hostRead 327)) =
    some (327#32, [0x00#8, 0x00#8, 0x00#8, 0x18#8], [0x6E#8, 0xB4#8, 0x6E#8], none) := by decide +kernel
/-- 43_huffman.md R201. -/
theorem test_huf_range : [Instr.hufBuild, .hufEnc, .hufDec, .pipeDec].map (fun i =>
      (nextOf (exec i { clean with ilen := 1025#32 })).map fun t => (t.err, t.errinfo)) =
    List.replicate 4 (some (5#4, 1025#32)) := by decide +kernel

/-! ### More steps -/

/-- A tree with every leaf at depth `n`, its leaves the bytes from `v` on in order. -/
def balanced : Nat → Nat → Tree
  | 0, v => .leaf (BitVec.ofNat 8 v)
  | n + 1, v => .node (balanced n v) (balanced n (v + 2 ^ n))

/-- A payload of `n` data bits whose tree is the balanced one, so that every byte is its own code (30_encoding.md R100). -/
def plain (n : Nat) (data : List Byte) : List Byte :=
  be32 n ++ ((List.range 256).map (BitVec.ofNat 8) ++ (pack (shape (balanced 8 0)) ++ data))

/-- A frame of 2 by 2 pixels, without a tile. -/
def dot : State := { clean with width := 2#16, height := 2#16 }

/-- Two bytes with eight-bit codes, and a third that is no part of the data bits. -/
theorem test_hufDec : (nextOf (exec .hufDec (holding (plain 16 [0x41#8, 0x0F#8, 0xFF#8]) clean))).map
      (fun t => (t.olen, t.obuf.slice 0 2, t.obuf.hostRead 2, t.fault)) = some (2#32, [0x41#8, 0x0F#8], none, false) := by
  decide +kernel
/-- 43_huffman.md R219 to R222: each sub-cause. -/
theorem test_hufDec_malformed : [List.replicate 323 0#8, List.replicate 324 0#8, plain 1 [], plain 1 [0#8]].map
      (fun p => (nextOf (exec .hufDec (holding p clean))).map fun t => (t.err, t.errinfo)) =
    [some (4#4, 1#32), some (4#4, 2#32), some (4#4, 3#32), some (4#4, 4#32)] := by decide +kernel
/-- 44_pipeline_system.md R244: a frame of the right length, and one byte too few. -/
theorem test_pipeDec : (nextOf (exec .pipeDec (holding (plain 48 [1#8, 2#8, 3#8, 4#8, 5#8, 6#8]) dot))).map
      (fun t => (t.frame.slice 0 6, t.fault)) = some ([1#8, 2#8, 3#8, 4#8, 5#8, 6#8], false)
    ∧ (nextOf (exec .pipeDec (holding (plain 40 [1#8, 2#8, 3#8, 4#8, 5#8]) dot))).map
      (fun t => (t.err, t.errinfo, t.frame.hostRead 0)) = some (4#4, 5#32, none) := by decide +kernel
/-- 43_huffman.md R211: a byte value that occurs alone has the code 1. -/
theorem zeros_code : codeOf (buildTree (List.replicate 6 0#8)) 0#8 = [true] := by decide +kernel
theorem zeros_bits : dataBitCount (buildTree (List.replicate 6 0#8)) (List.replicate 6 0#8) = 6 := by
  simp only [dataBitCount, List.map_replicate, zeros_code]
  decide
theorem empty_bits (t : Tree) : dataBitCount t [] = 0 := rfl
/-- 44_pipeline_system.md R241: six bytes with one-bit codes need a payload of 325 bytes. -/
theorem test_pipeEnc : (nextOf (exec .pipeEnc dot)).map (fun t => (t.err, t.errinfo)) = some (7#4, 325#32)
    ∧ (nextOf (exec .pipeEnc { dot with cfg := { small with obufCap := 325 } })).map (fun t => (t.fault, t.olen)) =
      some (false, 325#32) := by
  have hd : dot.pipeTransformed.dump = List.replicate 6 0#8 := by decide
  have hd' : (State.pipeTransformed { dot with cfg := { small with obufCap := 325 } }).dump = List.replicate 6 0#8 := by decide
  constructor
  · change (nextOf (encodeTo _ dot.pipeTransformed.dump dot.pipeTransformed)).map _ = _
    rw [hd, encodeTo, zeros_bits]
    rfl
  · change (nextOf (encodeTo _ (State.pipeTransformed { dot with cfg := { small with obufCap := 325 } }).dump
      (State.pipeTransformed { dot with cfg := { small with obufCap := 325 } }))).map _ = _
    rw [hd', encodeTo, zeros_bits]
    simp only [show ¬2 ^ 32 ≤ 6 by decide, if_false]
    rw [if_neg (by decide), nextOf, Option.map_some, State.produce]
    simp only [length_huffEncode, zeros_bits]
    rfl
/-- 10_state.md R21, R22, R27; 20_memory.md R65; 70_reset_and_hazards.md R301: the host's actions. -/
theorem test_host : (nextOf (step { reader with inbox := [.readReg 0] })).map (·.hostData) = some 0x04#32
    ∧ (nextOf (step { clean with inbox := [.writeReg 8 0x12345678#32] })).map (·.width) = some 0x5678#16
    ∧ (nextOf (step { clean with inbox := [.writeReg 7 1#32] })).map (·.res) = some 0#32
    ∧ refusalOf (step { clean with inbox := [.readByte .wbuf 2] }) = some (.byteIndexOutside .wbuf 2)
    ∧ refusalOf (step { clean with busy := true, inbox := [.writeReg 4 0#32] }) = some .hostWhileBusy
    ∧ (nextOf (step clean)).map (·.inbox) = some [] := by decide +kernel
theorem test_withFetchWord : (nextOf (step (State.withFetchWord reader 32 0x13000000))).map (·.res) = some 1#32
    ∧ (nextOf (step (State.withFetchWord reader 32 0x13000001))).map (fun t => (t.err, t.errcmd)) =
      some (1#4, 0x13000001#32) := by decide +kernel

/-! ### States that meet the hypotheses of the statements, clause by clause -/

theorem next_of_nextOf {r : Result} (h : (nextOf r).isSome = true) : ∃ t, r = .next t := by
  cases r with
  | next t => exact ⟨t, rfl⟩
  | fault f => cases h
  | refused x => cases h

/-- The invariant of a state whose `WBUF` holds no unspecified value, as one computation. -/
def invCheck (s : State) : Bool :=
  s.cfg.wf && !s.busy && s.ibuf.wf && s.ibuf.fits s.cfg.ibufCap && s.obuf.wf && s.obuf.fits s.cfg.obufCap && s.wbuf.wf
    && s.wbuf.fits s.cfg.wbufCap && s.frame.wf && s.frame.fits s.cfg.frameCap
    && decide (s.bswByte.toNat + 1 ≤ s.cfg.wbufCap)
    && (List.range 8).all (fun k => k < s.bswBit.toNat || !streamBit (s.wbuf.read s.bswByte.toNat) k)
    && decide (s.bsrValid = true → s.bsrByte.toNat ≤ s.bsrLen.toNat ∧ (s.bsrByte = s.bsrLen → s.bsrBit = 0#3)
      ∧ s.bsrBase.toNat + s.bsrLen.toNat ≤ if s.bsrSrc = .ibuf then s.cfg.ibufCap else s.bswBytes)
    && decide (s.fault = false → s.err = 0#4 ∧ s.errinfo = 0#32 ∧ s.errcmd = 0#32)
    && decide (s.fault = true → 1 ≤ s.err.toNat ∧ s.err.toNat ≤ 8) && decide (s.olen.toNat ≤ s.cfg.obufCap)
    && s.wbuf.free.isEmpty && decide (s.bsrByte.toNat ≤ Config.maxCap)

theorem inv_of_check {s : State} (h : invCheck s = true) : Inv s := by
  simp only [invCheck, Bool.and_eq_true, decide_eq_true_eq, Bool.not_eq_true', List.isEmpty_iff, List.all_eq_true, List.mem_range,
    Bool.or_eq_true] at h
  obtain ⟨⟨⟨⟨⟨⟨⟨⟨⟨⟨⟨⟨⟨⟨⟨⟨⟨h1, h2⟩, h3⟩, h4⟩, h5⟩, h6⟩, h7⟩, h8⟩, h9⟩, h10⟩, h11⟩, h12⟩, h13⟩, h14⟩, h15⟩, h16⟩, h17⟩, h18⟩ := h
  refine ⟨h1, h2, ⟨⟨h3, h4⟩, ⟨h5, h6⟩, ⟨h7, h8⟩, h9, h10⟩, ⟨h11, fun k a b => (h12 k b).resolve_left (by omega), fun i _ => ?_⟩, ⟨h18, fun hv => ?_⟩, ⟨h14, h15⟩, h16⟩
  · simp [Mem.hostRead, Mem.freeAt, h17]
  · obtain ⟨a, b, c⟩ := h13 hv
    refine ⟨a, b, ?_⟩
    cases hs : s.bsrSrc with
    | ibuf => simpa [hs] using c
    | wbuf => simpa [hs] using c

/-- The states of the tests that a reachable block could be in. -/
theorem witness_inv : Inv clean ∧ Inv tiny ∧ Inv wide ∧ Inv dot ∧ Inv seven ∧ Inv full ∧ Inv reader ∧ Inv readOut
    ∧ Inv faulted := by
  refine ⟨?_, ?_, ?_, ?_, ?_, ?_, ?_, ?_, ?_⟩ <;> exact inv_of_check (by decide +kernel)

theorem witness_IllegalWordsFault : (∀ i, decode 0x14000000#32 ≠ .ok i) ∧ (∀ i, decode 0x11000002#32 ≠ .ok i)
    ∧ clean.fault = false := by
  refine ⟨fun i h => ?_, fun i h => ?_, rfl⟩
  · rw [show decode 0x14000000#32 = .error (.unassignedOpcode 0x14#8) by decide] at h; cases h
  · rw [show decode 0x11000002#32 = .error (.mustBeZeroBitSet 0x11#8) by decide] at h; cases h
theorem witness_StepRunsDecodedCommand : clean.busy = false ∧ clean.fault = false
    ∧ decode 0x10000000#32 = .ok .bswInit
    ∧ (State.withFetchWord clean 32 0x10000000).inbox = .issue 0x10000000#32 :: []
    ∧ decode (BitVec.ofNat 32 0x51000000) = .ok .pipeDec ∧ 0x51000000 < 2 ^ 32 := by decide
theorem witness_StepTakesOldestHostAction : clean.inbox = [] ∧ { clean with inbox := [.powerOn] }.inbox = .powerOn :: []
    ∧ { clean with busy := true }.busy = true ∧ HostAction.readReg 1 ≠ .readReg 0 ∧ HostAction.readReg 1 ≠ .powerOn := by
  decide
theorem witness_FaultedBlockExecutesOnlyReset : faulted.fault = true ∧ (0x10000000#32 : Word) ≠ 0x01000000#32
    ∧ (∀ w, HostAction.writeReg 4 7#32 ≠ .issue w) ∧ HostAction.writeReg 4 7#32 ≠ .powerOn
    ∧ HostAction.writeReg 4 7#32 ≠ .readReg 0
    ∧ hostStep (.writeReg 4 7#32) faulted = .next { faulted with a0 := 7#32 }
    ∧ HostAction.issue 0x10000000#32 ≠ .issue 0x01000000#32 ∧ hostStep (.issue 0x10000000#32) faulted = .next faulted := by
  refine ⟨rfl, by decide, fun w h => (by cases h), by decide, by decide, rfl, by decide, rfl⟩
/-- A reader attached, and one detached with its pointer at the end of its range. -/
theorem witness_RegisterReads : Inv reader ∧ reader.bsrValid = true ∧ reader.hvalid = false
    ∧ Inv { reader with hvalid := true } ∧ 28 ≤ 28
    ∧ Inv { reader with bsrValid := false, bsrByte := 0x1FFFFFFF#32, bsrBit := 7#3 } :=
  ⟨witness_inv.2.2.2.2.2.2.1, rfl, rfl, witness_inv.2.2.2.2.2.2.1, le_refl _, inv_of_check (by decide +kernel)⟩
theorem witness_RegisterWrites : clean.busy = false := rfl
theorem witness_MemoryHostAccess : clean.busy = false ∧ 1023 < ByteSpace.size clean.cfg .ibuf
    ∧ 323 < ByteSpace.size clean.cfg .obuf ∧ 1 < ByteSpace.size clean.cfg .wbuf ∧ 191 < ByteSpace.size clean.cfg .frame
    ∧ 63 < ByteSpace.size clean.cfg .blk ∧ 255 < ByteSpace.size clean.cfg .hlen ∧ 510 < WordSpace.size .hlink
    ∧ ByteSpace.size clean.cfg .ibuf ≤ 1024 ∧ ByteSpace.size clean.cfg .blk ≤ 64 ∧ WordSpace.size .hweight ≤ 511
    ∧ seven.wbuf.hostRead 0 = some 0xB2#8 ∧ 0 ≤ seven.bswByte.toNat ∧ { clean with hvalid := true }.hvalid = true
    ∧ clean.hvalid = false := by
  decide
theorem witness_PowerOnState : 0 < State.reset.cfg.ibufCap ∧ 1 < State.reset.cfg.wbufCap := by decide
theorem witness_BswWriteAppendsBit : (Inv full ∧ full.bswBit.toNat = 7 ∧ full.cfg.wbufCap < full.bswByte.toNat + 2)
    ∧ (Inv seven ∧ seven.bswBit.toNat = 7 ∧ ¬seven.cfg.wbufCap < seven.bswByte.toNat + 2)
    ∧ Inv clean ∧ clean.bswBit.toNat < 7 :=
  ⟨⟨witness_inv.2.2.2.2.2.1, by decide⟩, ⟨witness_inv.2.2.2.2.1, by decide⟩, witness_inv.1, by decide⟩
theorem witness_BsrInitAttachesReader : (Inv { clean with ilen := 1025#32 } ∧ clean.cfg.ibufCap < (1025#32).toNat)
    ∧ (Inv { clean with ilen := 1024#32, a0 := 1025#32 } ∧ ¬clean.cfg.ibufCap < (1024#32).toNat
      ∧ (1024#32).toNat < (1025#32).toNat)
    ∧ (Inv { clean with ilen := 1024#32, a0 := 1024#32 } ∧ (1024#32).toNat ≤ (1024#32).toNat)
    ∧ (Inv { seven with a0 := 2#32 } ∧ 1 = seven.bswByte.toNat + (if 0 < seven.bswBit.toNat then 1 else 0)
      ∧ 1 < (2#32).toNat)
    ∧ (1#32).toNat ≤ 1 :=
  ⟨⟨witness_inv.1, by decide⟩, ⟨witness_inv.1, by decide⟩, ⟨witness_inv.1, by decide⟩,
    ⟨witness_inv.2.2.2.2.1, by decide⟩, by decide⟩
theorem witness_BsrReadReturnsNextBit : (Inv clean ∧ clean.bsrValid = false)
    ∧ (Inv readOut ∧ readOut.bsrValid = true ∧ readOut.bsrLen.toNat ≤ readOut.bsrByte.toNat)
    ∧ Inv reader ∧ reader.bsrValid = true ∧ reader.bsrByte.toNat < reader.bsrLen.toNat :=
  ⟨⟨witness_inv.1, by decide⟩, ⟨witness_inv.2.2.2.2.2.2.2.1, by decide⟩, witness_inv.2.2.2.2.2.2.1, by decide⟩
theorem witness_BitStreamStopsOutsideSpace : ({ clean with bswByte := 2#32 }.cfg.wbufCap ≤ (2#32).toNat
      ∧ ¬(clean.bswBit.toNat = 7 ∧ clean.cfg.wbufCap < (2#32).toNat + 2))
    ∧ reader.bsrValid = true ∧ { reader with bsrBase := 1024#32 }.bsrByte.toNat < reader.bsrLen.toNat
    ∧ reader.bsrSrc = .ibuf ∧ reader.cfg.ibufCap ≤ (1024#32).toNat + reader.bsrByte.toNat
    ∧ { reader with bsrSrc := .wbuf, bsrBase := 2#32 }.bsrSrc = .wbuf
    ∧ reader.cfg.wbufCap ≤ (2#32).toNat + reader.bsrByte.toNat := by decide
/-- Fifteen bits fill the two bytes of `WBUF` but for the last bit. -/
theorem witness_WriterLeavesPackedBits : Inv clean ∧ clean.fault = false
    ∧ (List.replicate 15 true).length ≤ 8 * clean.cfg.wbufCap - 1
    ∧ (pack (List.replicate 15 true))[1]? = some 0xFE#8 :=
  ⟨witness_inv.1, rfl, by decide, by decide⟩
theorem witness_BitRoundTrip : Inv clean ∧ clean.fault = false
    ∧ (List.replicate 15 true).length ≤ 8 * clean.cfg.wbufCap - 1 ∧ (List.replicate 15 true)[14]? = some true
    ∧ (List.replicate 15 true).length ≤ 15 ∧ 15 < 8 * full.bswBytes :=
  ⟨witness_inv.1, rfl, by decide, by decide, by decide, by decide⟩
theorem hufBuild_empty {s : State} (h : s.ilen = 0#32) : exec .hufBuild s = .next (s.exposeTables []) := by
  have hd : s.input = [] := by simp [State.input, h, Mem.slice]
  change withInput _ s _ = _
  rw [withInput_ok (by simp [InputOk, h]), hd, empty_bits]
  rfl
theorem hufEnc_empty {s : State} (h : s.ilen = 0#32) (hc : s.cfg.obufCap = 324) :
    exec .hufEnc s = .next (s.invalidateTables.produce (huffEncode [])) := by
  have hd : s.input = [] := by simp [State.input, h, Mem.slice]
  change withInput _ s _ = _
  rw [withInput_ok (by simp [InputOk, h]), hd, encodeTo, empty_bits, if_neg (by decide), if_neg]
  simp [hc, payloadLength, payloadHead, ceil8]
theorem witness_HuffmanCommandsUsePrivateStreams : (∃ t, exec .hufBuild clean = .next t ∧ t.fault = false)
    ∧ (∃ t, exec .hufEnc clean = .next t ∧ t.fault = false) ∧ (∃ t, exec .pipeEnc dot = .next t)
    ∧ (∃ t, exec .hufDec (holding (plain 8 [1#8]) clean) = .next t)
    ∧ ∃ t, exec .pipeDec (holding (plain 8 [1#8]) dot) = .next t := by
  refine ⟨⟨_, hufBuild_empty rfl, rfl⟩, ⟨_, hufEnc_empty rfl rfl, rfl⟩, next_of_nextOf ?_, next_of_nextOf ?_, next_of_nextOf ?_⟩
  · have := test_pipeEnc.1
    cases hn : nextOf (exec .pipeEnc dot) with
    | none => rw [hn] at this; cases this
    | some t => rfl
  · decide +kernel
  · decide +kernel

/-! Geometry, tiles and pixels -/

theorem witness_geometry : GeometryOk clean ∧ GeometryOk tiny ∧ GeometryOk wide ∧ GeometryOk dot
    ∧ ¬GeometryOk { wide with width := 15#16 } ∧ ¬GeometryOk { wide with height := 9#16 }
    ∧ ¬GeometryOk { wide with height := 10#16 } := by unfold GeometryOk; decide
theorem witness_BlkLdGathersTile : (GeometryOk wide ∧ TileOk { wide with a0 := 1#32 })
    ∧ (wide.width.toNat / 8 ≤ { wide with a0 := 2#32 }.a0.toNat)
    ∧ { wide with a0 := 1#32, a1 := 1#32 }.a0.toNat < wide.width.toNat / 8
    ∧ wide.height.toNat / 8 ≤ { wide with a0 := 1#32, a1 := 1#32 }.a1.toNat := by unfold GeometryOk TileOk; decide
theorem witness_BlkStScattersTile : GeometryOk wide ∧ TileOk { wide with a0 := 1#32 } ∧ ¬GeometryOk { wide with width := 15#16 }
    ∧ (∃ u v, exec .blkLd wide = .next u ∧ exec .blkSt u = .next v) := by
  refine ⟨by unfold GeometryOk; decide, by unfold TileOk; decide, by unfold GeometryOk; decide, _, _, rfl, rfl⟩
theorem witness_DctForwardRef64 : clean.cfg.num = .ref64 ∧ 7 < 8 := by decide
theorem witness_DctInverseRef64 : clean.cfg.num = .ref64 ∧ 7 < 8 := by decide
theorem witness_DctForwardReal : { clean with cfg := { small with num := .real } }.cfg.wf = true
    ∧ { clean with cfg := { small with num := .real } }.cfg.num = .real ∧ 7 < 8 := by decide +kernel
theorem witness_DctInverseReal : { clean with cfg := { small with num := .real } }.cfg.wf = true
    ∧ { clean with cfg := { small with num := .real } }.cfg.num = .real ∧ 7 < 8 := by decide +kernel
theorem witness_GreyBlockIsFixedPoint : clean.cfg.wf = true
    ∧ ∀ k, k < 64 → tableGet { clean with blk := tableOf 64 fun _ => 128#8 }.blk k = 128#8 := by decide +kernel
theorem witness_Binary64IsCorrectlyRounded : 0 < (⟨false, 1, 0⟩ : F64).mant ∧ (⟨true, 2 ^ 53, -3⟩ : F64).mant ≤ 2 ^ 53
    ∧ (⟨true, 2 ^ 53 - 1, -3⟩ : F64).mant < 2 ^ 53 ∧ (F64.ofInt 255).mant ≤ 2 ^ 53 ∧ 0 < (F64.ofInt 255).mant := by
  decide +kernel
theorem witness_CosineConstantsAreNearest : 7 < 8 ∧ 0 < 1 := by decide
theorem witness_GetReturnsSample : (GeometryOk wide ∧ PixelOk { wide with a0 := 15#32, a1 := 7#32 })
    ∧ wide.width.toNat ≤ { wide with a0 := 16#32 }.a0.toNat
    ∧ { wide with a0 := 15#32, a1 := 8#32 }.a0.toNat < wide.width.toNat
    ∧ wide.height.toNat ≤ { wide with a0 := 15#32, a1 := 8#32 }.a1.toNat ∧ ¬GeometryOk { wide with height := 7#16 } := by
  unfold GeometryOk PixelOk; decide
theorem witness_SetStoresSample : (GeometryOk wide ∧ PixelOk { wide with a0 := 15#32, a1 := 7#32 })
    ∧ 255 < { wide with a2 := 256#32 }.a2.toNat ∧ { wide with a2 := 255#32 }.a2.toNat ≤ 255 := by
  unfold GeometryOk PixelOk; decide
theorem witness_FrameAddressesPartition : 16 % 2 = 0 ∧ 8 % 2 = 0 ∧ 15 < 16 ∧ 7 < 8 ∧ 191 < frameLength 16 8 := by decide
theorem witness_SetThenGet : GeometryOk wide ∧ PixelOk { wide with a0 := 15#32, a1 := 7#32, a2 := 255#32 }
    ∧ { wide with a0 := 15#32, a1 := 7#32, a2 := 255#32 }.a2.toNat ≤ 255
    ∧ (∃ t, exec .setY { wide with a0 := 15#32, a1 := 7#32, a2 := 255#32 } = .next t)
    ∧ (∃ t, exec .setU { wide with a0 := 15#32, a1 := 7#32, a2 := 255#32 } = .next t)
    ∧ (∃ t, exec .setV { wide with a0 := 15#32, a1 := 7#32, a2 := 255#32 } = .next t)
    ∧ (14, 7) ≠ (15, 7) ∧ (13 / 2, 7 / 2) ≠ (15 / 2, 7 / 2) := by
  refine ⟨by unfold GeometryOk; decide, by unfold PixelOk; decide, by decide, ⟨_, rfl⟩, ⟨_, rfl⟩, ⟨_, rfl⟩, by decide, by decide⟩
theorem frm_next {s : State} (h : GeometryOk s) : exec .frmFwd s = .next (s.transformFrame (dctForward s.cfg))
    ∧ exec .frmInv s = .next (s.transformFrame (dctInverse s.cfg)) :=
  ⟨withGeometry_ok h _ _, withGeometry_ok h _ _⟩
theorem witness_FrameCommandsTransformEveryTile : (GeometryOk wide ∧ 1 < wide.width.toNat / 8 ∧ 0 < wide.height.toNat / 8)
    ∧ (GeometryOk dot ∧ dot.width.toNat / 8 = 0) ∧ ¬GeometryOk { wide with width := 15#16 } := by
  unfold GeometryOk; decide
theorem witness_FrameCommandsChangeOnlyTiles : (∃ t, exec .frmFwd wide = .next t) ∧ (∃ t, exec .frmInv wide = .next t)
    ∧ GeometryOk wide ∧ wide.width.toNat % 8 = 0 ∧ wide.height.toNat % 8 = 0 ∧ 15 < wide.width.toNat ∧ 7 < wide.height.toNat :=
  ⟨⟨_, (frm_next witness_geometry.2.2.1).1⟩, ⟨_, (frm_next witness_geometry.2.2.1).2⟩, witness_geometry.2.2.1, by decide⟩
theorem witness_FrameCommandEqualsBlockScript : GeometryOk wide ∧ wide.fault = false ∧ wide.busy = false :=
  ⟨witness_geometry.2.2.1, by decide⟩

/-! The Huffman coder -/

theorem witness_ExtractMinTakesFirstMinimum :
    extractMin ⟨0, 2, .leaf 0#8⟩ [⟨1, 1, .leaf 1#8⟩, ⟨2, 1, .leaf 2#8⟩] =
      (⟨1, 1, .leaf 1#8⟩, [⟨0, 2, .leaf 0#8⟩, ⟨2, 1, .leaf 2#8⟩]) := by decide
theorem witness_BuildMakesOneTreeOf256Leaves : ∃ e, (finishedBuild abracadabra).merges[254]? = some e := by
  have h := (finished_buildInv abracadabra).merges_length
  exact ⟨_, List.getElem?_eq_getElem (by omega)⟩
theorem witness_CodeTableProperties : (0#8 : Byte) ≠ 255#8 := by decide
theorem witness_ShapeCheckFindsTheTree : 324 ≤ (plain 0 []).length ∧ shapeCloses 1 (shapeBits (plain 0 [])) = true := by
  decide +kernel
theorem witness_PayloadLayout : dataBitCount (buildTree []) [] < 2 ^ 32
    ∧ dataBitCount (buildTree (List.replicate 6 0#8)) (List.replicate 6 0#8) < 2 ^ 32 := by
  rw [zeros_bits]; exact ⟨by rw [empty_bits]; decide, by decide⟩
theorem witness_HuffmanRoundTrip : dataBitCount (buildTree (List.replicate 6 0#8)) (List.replicate 6 0#8) < 2 ^ 32 :=
  witness_PayloadLayout.2
theorem witness_HufBuildExposesTables : clean.cfg.wf = true ∧ InputOk { clean with ilen := 1024#32 }
    ∧ ¬InputOk { clean with ilen := 1025#32 } := by unfold InputOk; decide +kernel
/-- The input of `holding`. -/
theorem input_holding (bytes : List Byte) (s : State) (h : bytes.length < 2 ^ 32) : (holding bytes s).input = bytes := by
  change Mem.slice (Mem.loaded bytes s.cfg.ibufCap 0) 0 (BitVec.ofNat 32 bytes.length).toNat = bytes
  rw [BitVec.toNat_ofNat, Nat.mod_eq_of_lt h]
  exact Mem.slice_loaded _ _ _
/-- No input fits just; six zeros do not. -/
theorem witness_HufEncWritesPayload : clean.cfg.wf = true ∧ ¬InputOk { clean with ilen := 1025#32 }
    ∧ (InputOk clean ∧ 324 + (dataBitCount (buildTree clean.input) clean.input + 7) / 8 ≤ clean.cfg.obufCap)
    ∧ InputOk (holding (List.replicate 6 0#8) clean)
    ∧ clean.cfg.obufCap < 324 + (dataBitCount (buildTree (holding (List.replicate 6 0#8) clean).input)
        (holding (List.replicate 6 0#8) clean).input + 7) / 8 := by
  rw [input_holding _ _ (by decide), zeros_bits, show clean.input = [] from rfl, empty_bits]
  unfold InputOk; decide +kernel
theorem describes_plain (n : Nat) (data : List Byte) (h : n < 2 ^ 32 := by decide) :
    Describes (plain n data) (balanced 8 0) ∧ unbe32 ((plain n data).take 4) = n
      ∧ (plain n data).drop 324 = data ∧ (plain n data).length = 324 + data.length := by
  have hb : (be32 n).length = 4 := rfl
  have hl : ((List.range 256).map (BitVec.ofNat 8)).length = 256 := by simp
  have hs : (pack (shape (balanced 8 0))).length = 64 := by decide +kernel
  refine ⟨⟨?_, ?_⟩, ?_, ?_, ?_⟩
  · rw [plain, List.drop_append, hb, List.drop_append, hl, List.drop_eq_nil_of_le (by simp [hb]),
      List.drop_eq_nil_of_le (by simp), List.nil_append, List.nil_append, Nat.sub_self, List.drop_zero, List.take_left' hs]
    decide +kernel
  · rw [plain, List.drop_left' hb, List.take_left' hl]
    decide +kernel
  · rw [plain, List.take_left' hb, unbe32_be32 h]
  · rw [plain, ← List.append_assoc, ← List.append_assoc, List.drop_left' (by simp [hb, hs])]
  · simp only [plain, List.length_append, hb, hl, hs]; omega
theorem no_tree_of_zeros (t : Tree) : ¬Describes (List.replicate 324 0#8) t := by
  intro h
  have h1 := count_shape t
  rw [h.1, show ((unpack ((List.drop 260 (List.replicate 324 0#8)).take 64)).take 511).count true = 0 by decide +kernel] at h1
  have := leaves_pos t
  omega
theorem decodesTo_plain {n : Nat} {data out : List Byte} (h : n < 2 ^ 32 := by decide)
    (hw : walk (balanced 8 0) (balanced 8 0) false ((unpack data).take n) = some out) :
    DecodesTo (balanced 8 0) (payloadBits (plain n data)) out := by
  rw [payloadBits, (describes_plain n data h).2.1, (describes_plain n data h).2.2.1]
  exact (walk_eq_some_iff (by decide +kernel) _ _).1 hw
theorem not_decodesTo_plain {n : Nat} {data : List Byte} (h : n < 2 ^ 32 := by decide)
    (hw : walk (balanced 8 0) (balanced 8 0) false ((unpack data).take n) = none) (out : List Byte) :
    ¬DecodesTo (balanced 8 0) (payloadBits (plain n data)) out := by
  rw [payloadBits, (describes_plain n data h).2.1, (describes_plain n data h).2.2.1]
  intro hd
  rw [(walk_eq_some_iff (by decide +kernel) _ _).2 hd] at hw
  cases hw
/-- The inputs of the clauses of `HUF_DEC` and `PIPE_DEC`: too short; no tree; one data byte missing; a code cut short; one
byte; and more bytes than `OBUF` holds. -/
theorem witness_HufDecDecodesPayload : clean.cfg.wf = true
    ∧ (InputOk { clean with ilen := 323#32 } ∧ (323#32).toNat < 324)
    ∧ (InputOk (holding (List.replicate 324 0#8) clean) ∧ ∀ T, ¬Describes (holding (List.replicate 324 0#8) clean).input T)
    ∧ (Describes (plain 1 []) (balanced 8 0) ∧ (plain 1 []).length < 324 + (1 + 7) / 8)
    ∧ (Describes (plain 1 [0#8]) (balanced 8 0) ∧ 324 + (1 + 7) / 8 ≤ (plain 1 [0#8]).length
      ∧ ∀ out, ¬DecodesTo (balanced 8 0) (payloadBits (plain 1 [0#8])) out)
    ∧ (Describes (plain 8 [0x41#8]) (balanced 8 0)
      ∧ DecodesTo (balanced 8 0) (payloadBits (plain 8 [0x41#8])) [0x41#8] ∧ [0x41#8].length ≤ clean.cfg.obufCap)
    ∧ Describes (plain 2600 (List.replicate 325 0#8)) (balanced 8 0)
      ∧ DecodesTo (balanced 8 0) (payloadBits (plain 2600 (List.replicate 325 0#8))) (List.replicate 325 0#8)
      ∧ clean.cfg.obufCap < (List.replicate 325 0#8).length ∧ (plain 2600 (List.replicate 325 0#8)).length ≤ 1024 := by
  refine ⟨by decide +kernel, by unfold InputOk; decide, ⟨by unfold InputOk; decide +kernel, fun T => ?_⟩,
    ⟨(describes_plain _ _).1, ?_⟩, ⟨(describes_plain _ _).1, ?_, not_decodesTo_plain (hw := by decide +kernel)⟩,
    ⟨(describes_plain _ _).1, decodesTo_plain (hw := by decide +kernel), by decide⟩,
    (describes_plain _ _).1, decodesTo_plain (hw := by decide +kernel), by decide +kernel, ?_⟩
  · rw [input_holding _ _ (by decide +kernel)]; exact no_tree_of_zeros T
  · rw [(describes_plain _ _).2.2.2]; decide
  · rw [(describes_plain _ _).2.2.2]; decide
  · rw [(describes_plain _ _).2.2.2]; decide +kernel
theorem input_plain : (holding (plain 8 [0x41#8]) clean).input = plain 8 [0x41#8]
    ∧ (holding (plain 8 [0x41#8]) clean).ilen.toNat = (plain 8 [0x41#8]).length := by
  have h : (plain 8 [0x41#8]).length < 2 ^ 32 := by rw [(describes_plain 8 [0x41#8]).2.2.2]; decide
  exact ⟨input_holding _ _ h, by change (BitVec.ofNat 32 _).toNat = _; rw [BitVec.toNat_ofNat, Nat.mod_eq_of_lt h]⟩
/-- The same block with an `OBUF` of 1024 bytes. -/
def roomy (s : State) : State := { s with cfg := { small with obufCap := 1024 } }
theorem witness_HuffmanScriptRoundTrip : Inv (roomy { clean with ilen := 6#32 }) ∧ (roomy clean).fault = false
    ∧ InputOk (roomy { clean with ilen := 6#32 }) ∧ (6#32).toNat ≤ (roomy clean).cfg.obufCap
    ∧ 324 + (dataBitCount (buildTree (roomy { clean with ilen := 6#32 }).input) (roomy { clean with ilen := 6#32 }).input + 7) / 8
      ≤ min (roomy clean).cfg.obufCap (roomy clean).cfg.ibufCap := by
  rw [show (roomy { clean with ilen := 6#32 }).input = List.replicate 6 0#8 by decide, zeros_bits]
  exact ⟨inv_of_check (by decide +kernel), rfl, by unfold InputOk; decide, by decide, by decide⟩

/-! The pipeline and the whole block -/

/-- A frame without a tile is left as it is. -/
theorem frmFwd_no_tile {s : State} (g : GeometryOk s) (h : s.tilesWide = 0) : exec .frmFwd s = .next s := by
  rw [(frm_next g).1, State.transformFrame, h, List.eq_nil_iff_forall_not_mem.2 fun t ht => Nat.not_lt_zero _ (mem_tileOrder.1 ht).1]
  rfl
/-- No pixel fits just; six zeros do not. -/
theorem witness_PipeEncEncodesFrame : clean.cfg.wf = true
    ∧ (GeometryOk clean ∧ exec .frmFwd clean = .next clean
      ∧ clean.frame.slice 0 (frameLength clean.width.toNat clean.height.toNat) = []
      ∧ 324 + (dataBitCount (buildTree []) [] + 7) / 8 ≤ clean.cfg.obufCap)
    ∧ GeometryOk dot ∧ exec .frmFwd dot = .next dot
    ∧ dot.frame.slice 0 (frameLength dot.width.toNat dot.height.toNat) = List.replicate 6 0#8
    ∧ dot.cfg.obufCap < 324 + (dataBitCount (buildTree (List.replicate 6 0#8)) (List.replicate 6 0#8) + 7) / 8 := by
  rw [zeros_bits, empty_bits]
  exact ⟨by decide +kernel, ⟨witness_geometry.1, frmFwd_no_tile witness_geometry.1 (by decide), by decide, by decide⟩,
    witness_geometry.2.2.2.1, frmFwd_no_tile witness_geometry.2.2.2.1 (by decide), by decide, by decide⟩
theorem witness_PipeEncEqualsScript : Inv dot ∧ dot.fault = false ∧ GeometryOk dot
    ∧ frameLength dot.width.toNat dot.height.toNat ≤ dot.cfg.ibufCap :=
  ⟨witness_inv.2.2.2.1, rfl, witness_geometry.2.2.2.1, by decide⟩
/-- The inputs of `witness_HufDecDecodesPayload` with a frame of six bytes: one decoded byte is too few, six are right. -/
theorem witness_PipeDecDecodesFrame : dot.cfg.wf = true
    ∧ (InputOk (holding (plain 48 (List.replicate 6 1#8)) dot) ∧ GeometryOk (holding (plain 48 (List.replicate 6 1#8)) dot))
    ∧ (DecodesTo (balanced 8 0) (payloadBits (plain 8 [0x41#8])) [0x41#8]
      ∧ [0x41#8].length ≠ frameLength dot.width.toNat dot.height.toNat)
    ∧ DecodesTo (balanced 8 0) (payloadBits (plain 48 (List.replicate 6 1#8))) (List.replicate 6 1#8)
    ∧ (List.replicate 6 1#8).length = frameLength dot.width.toNat dot.height.toNat :=
  ⟨by decide +kernel, ⟨by unfold InputOk; decide +kernel, by unfold GeometryOk; decide⟩,
    ⟨decodesTo_plain (hw := by decide +kernel), by decide⟩, decodesTo_plain (hw := by decide +kernel), by decide⟩
theorem witness_PipelineRoundTrip : Inv (roomy dot) ∧ (roomy dot).fault = false ∧ GeometryOk (roomy dot)
    ∧ exec .frmFwd (roomy dot) = .next (roomy dot)
    ∧ 324 + (dataBitCount (buildTree (roomy dot).dump) (roomy dot).dump + 7) / 8
      ≤ min (roomy dot).cfg.obufCap (roomy dot).cfg.ibufCap := by
  rw [show (roomy dot).dump = List.replicate 6 0#8 by decide, zeros_bits]
  exact ⟨inv_of_check (by decide +kernel), rfl, by unfold GeometryOk; decide, frmFwd_no_tile (by unfold GeometryOk; decide) (by decide), by decide⟩
theorem witness_CommandsKeepHostRegisters : (∃ t, exec .bswInit full = .next t) ∧ (∃ t, exec .reset full = .next t)
    ∧ Instr.bswInit ≠ .reset := ⟨⟨_, rfl⟩, ⟨_, rfl⟩, by decide⟩
/-- Each of the changes: a result, a length, the tables exposed and dropped, the reader attached and detached, a fault. -/
theorem witness_ResultRegistersHaveFewWriters :
    (∃ t, exec .bsrRead reader = .next t ∧ t.res ≠ reader.res) ∧ (∃ t, exec .hufEnc clean = .next t ∧ t.olen ≠ clean.olen)
    ∧ (∃ t, exec .hufBuild clean = .next t ∧ t.hvalid = true)
    ∧ (∃ t, exec .hufEnc { clean with hvalid := true } = .next t ∧ t.hvalid = false)
    ∧ (∃ t, exec .hufEnc { clean with hvalid := true, ilen := 1025#32 } = .next t ∧ t.hvalid = true)
    ∧ (∃ t, exec (.bsrInit .wbuf) clean = .next t ∧ clean.bsrValid = false ∧ t.bsrValid = true)
    ∧ (∃ t, exec .bswInit { clean with bsrValid := true, bsrSrc := .wbuf } = .next t ∧ t.bsrValid = false)
    ∧ ∃ t, exec .bsrRead clean = .next t ∧ clean.fault = false ∧ t.fault = true := by
  refine ⟨⟨_, rfl, by decide⟩, ⟨_, hufEnc_empty rfl rfl, ?_⟩, ⟨_, hufBuild_empty rfl, rfl⟩, ⟨_, hufEnc_empty rfl rfl, rfl⟩,
    ⟨_, rfl, rfl⟩, ⟨_, rfl, rfl, by decide⟩, ⟨_, rfl, by decide⟩, ⟨_, rfl, rfl, rfl⟩⟩
  change BitVec.ofNat 32 (huffEncode []).length ≠ 0#32
  rw [length_huffEncode, empty_bits]
  decide
theorem witness_FaultsAreThoseListed : (∃ t, exec .bsrRead clean = .next t ∧ clean.fault = false ∧ t.fault = true)
    ∧ ∃ t, exec .bsrRead reader = .next t ∧ reader.fault = false ∧ t.fault = false :=
  ⟨⟨_, rfl, rfl, rfl⟩, ⟨_, rfl, rfl, by decide⟩⟩
theorem witness_CommandsWriteOnlyTheirMemories : (∃ t, exec .bsrRead reader = .next t) ∧ (∃ t, exec .setY wide = .next t)
    ∧ (∃ t, exec .hufBuild clean = .next t) ∧ frameLength wide.width.toNat wide.height.toNat ≤ 192 :=
  ⟨⟨_, rfl⟩, ⟨_, rfl⟩, ⟨_, hufBuild_empty rfl⟩, by decide⟩
theorem witness_InvalidTablesAreUnobservable : clean.hvalid = false ∧ (∃ t, hostStep (.readReg 22) clean = .next t)
    ∧ ∃ t, hostStep (cmdLine .hufBuild) clean = .next t ∧ t.hvalid = true :=
  ⟨rfl, ⟨_, rfl⟩, _, (hostStep_cmdLine rfl rfl _).trans (hufBuild_empty rfl), rfl⟩
theorem witness_EveryCommandEnds : Inv clean ∧ clean.fault = false := ⟨witness_inv.1, rfl⟩
theorem witness_ResetMeetsInvariant : small.wf = true := test_wf_small
theorem witness_StepKeepsInvariant : Inv { clean with inbox := [.issue 0x10000000#32] }
    ∧ ByteSpace.size clean.cfg .wbuf ≤ 2 ∧ WordSpace.size .hlink ≤ 511 := ⟨witness_inv.1, by decide⟩

end Sys2Proof.Tests
end

section
/-! PROOFS. The binary64 arithmetic rounds correctly (00_scope.md R13). -/

namespace Sys2Proof.Machine
namespace F64

/-! ### Correct rounding (00_scope.md R13)

Between two neighbouring numbers of 53 bits lies no other, so the nearest number to `x` is decided by the side of their
midpoint on which `x` lies. -/

@[simp] theorem negate_negate (x : F64) : x.negate.negate = x := by simp [negate]

@[simp] theorem value_negate (x : F64) : x.negate.value = -x.value := by
  cases h : x.neg <;> simp [value, negate, h]

/-- `scaled` is the integer multiple of `2^e` that a number is. -/
theorem value_eq_scaled {x : F64} {e : ℤ} (h : e ≤ x.exp) : x.value = x.scaled e * 2 ^ e := by
  have hexp : (2 : ℚ) ^ x.exp = 2 ^ (x.exp - e).toNat * 2 ^ e := by
    rw [← zpow_natCast, ← zpow_add₀ two_ne_zero]; congr 1; omega
  cases hn : x.neg <;> simp [value, scaled, hn, hexp, mul_assoc]

theorem ofInt_value (n : ℤ) : (ofInt n).value = n := by
  by_cases h : n < 0
  · simp [value, ofInt, h, abs_of_neg h]
  · simp [value, ofInt, h, abs_of_nonneg (not_lt.1 h)]

theorem value_le (x : F64) : x.value ≤ x.mant * 2 ^ x.exp := by
  have hpos : (0 : ℚ) ≤ x.mant * 2 ^ x.exp := by positivity
  cases h : x.neg
  · simp [value, h]
  · simp only [value, h, if_true]; linarith

theorem value_of_not_neg (q : ℕ) (e : ℤ) : value ⟨false, q, e⟩ = q * 2 ^ e := by simp [value]

/-- No number of 53 bits lies strictly between two neighbours of 53 bits. -/
theorem value_le_or_succ_le {y : F64} (hy : y.mant < 2 ^ 53) {q : ℕ} (hq : 2 ^ 52 ≤ q) (e : ℤ) :
    y.value ≤ value ⟨false, q, e⟩ ∨ value ⟨false, q + 1, e⟩ ≤ y.value := by
  rw [value_of_not_neg, value_of_not_neg]
  rcases lt_or_ge y.exp e with h | h
  · left
    have hm : (y.mant : ℚ) ≤ 2 ^ 53 := by exact_mod_cast hy.le
    have hq' : (2 ^ 52 : ℚ) ≤ q := by exact_mod_cast hq
    calc y.value ≤ y.mant * 2 ^ y.exp := value_le y
      _ ≤ 2 ^ 53 * 2 ^ (e - 1) := by gcongr <;> [norm_num; omega]
      _ = 2 ^ 52 * 2 ^ e := by rw [zpow_sub_one₀ two_ne_zero]; ring
      _ ≤ q * 2 ^ e := by gcongr
  · rw [value_eq_scaled h]
    rcases le_or_gt (y.scaled e) q with hz | hz
    · left; gcongr; exact_mod_cast hz
    · right; gcongr; exact_mod_cast hz

theorem isNearest_of_value_eq {r : F64} {x : ℚ} (hm : r.mant ≤ 2 ^ 53) (h : r.value = x) : r.IsNearest x := by
  subst h
  refine ⟨hm, fun y _ => by simp, fun y _ hne hy => absurd ?_ hne⟩
  simpa [sub_eq_zero] using hy

theorem IsNearest.negate {r : F64} {x : ℚ} (h : r.IsNearest x) : r.negate.IsNearest (-x) := by
  obtain ⟨hm, hnear, htie⟩ := h
  have hflip (a b : ℚ) : |a - -b| = |-a - b| := by rw [← abs_neg]; ring_nf
  refine ⟨hm, fun y hy => ?_, fun y hy hne heq => ?_⟩
  · rw [value_negate, hflip, hflip y.value, neg_neg, ← value_negate]
    exact hnear y.negate hy
  · refine htie y.negate hy (fun h => hne ?_) ?_
    · rw [value_negate, ← h, value_negate, neg_neg]
    · rwa [value_negate, hflip, hflip (-r.value), neg_neg, ← value_negate] at heq

/-- The lower of two neighbours is nearest to a number up to their midpoint, and on the midpoint if it is even. -/
theorem isNearest_lower {r : F64} {x hi : ℚ} (hm : r.mant ≤ 2 ^ 53)
    (hgap : ∀ y : F64, y.mant < 2 ^ 53 → y.value ≤ r.value ∨ hi ≤ y.value)
    (hx : r.value ≤ x) (hmid : x - r.value ≤ hi - x) (heven : x - r.value = hi - x → r.mant % 2 = 0) :
    r.IsNearest x := by
  have hr : |r.value - x| = x - r.value := by rw [abs_sub_comm, abs_of_nonneg (by linarith)]
  refine ⟨hm, fun y hy => ?_, fun y hy hne heq => ?_⟩
  · rw [hr]
    rcases hgap y hy with h | h
    · rw [abs_sub_comm, abs_of_nonneg] <;> linarith
    · rw [abs_of_nonneg] <;> linarith
  · rw [hr] at heq
    rcases hgap y hy with h | h
    · rw [abs_sub_comm, abs_of_nonneg (by linarith)] at heq
      exact absurd (by linarith) hne
    · rw [abs_of_nonneg (by linarith)] at heq
      exact heven (by linarith)

/-- The upper of two neighbours, by negation the lower of their negatives. -/
theorem isNearest_upper {r : F64} {x lo : ℚ} (hm : r.mant ≤ 2 ^ 53)
    (hgap : ∀ y : F64, y.mant < 2 ^ 53 → y.value ≤ lo ∨ r.value ≤ y.value)
    (hx : x ≤ r.value) (hmid : r.value - x ≤ x - lo) (heven : r.value - x = x - lo → r.mant % 2 = 0) :
    r.IsNearest x := by
  have h : r.negate.IsNearest (-x) := by
    refine isNearest_lower (hi := -lo) hm (fun y hy => ?_) ?_ ?_ fun h => heven ?_
    · have := hgap y.negate hy
      rw [value_negate] at this ⊢
      rcases this with h | h
      · right; linarith
      · left; linarith
    all_goals rw [value_negate] at *; linarith
  simpa using h.negate

/-! ### The sticky bit -/

/-- `n` stands for `v` when it is rounded: it is `v`, or it is odd because the last of its 55 bits or more says that `v` lies
strictly between the even numbers beside it. -/
def StandsFor (n : ℕ) (v : ℚ) : Prop := v = n ∨ (2 ^ 54 ≤ n ∧ n % 2 = 1 ∧ (n : ℚ) - 1 < v ∧ v < n + 1)

/-- `n` and the number it stands for lie on the same side of every point at which a rounding is decided. -/
theorem StandsFor.same_side {n : ℕ} {v : ℚ} (h : StandsFor n v) {t : ℕ} (ht : 2 ^ 54 ≤ n → 2 ∣ t) :
    (t ≤ n → (t : ℚ) ≤ v) ∧ (n ≤ t → v ≤ t) ∧ (v = t → n = t) := by
  rcases h with rfl | ⟨hbig, hodd, hlo, hhi⟩
  · exact ⟨fun h => by exact_mod_cast h, fun h => by exact_mod_cast h, fun h => by exact_mod_cast h⟩
  · have hne := ht hbig
    refine ⟨fun h => ?_, fun h => ?_, ?_⟩
    · have : (t : ℚ) + 1 ≤ n := by exact_mod_cast (show t + 1 ≤ n by omega)
      linarith
    · have : (n : ℚ) + 1 ≤ t := by exact_mod_cast (show n + 1 ≤ t by omega)
      linarith
    · rintro rfl
      have h1 : n < t + 1 := by exact_mod_cast (show (n : ℚ) < t + 1 by linarith)
      have h2 : t < n + 1 := by exact_mod_cast hhi
      omega

/-! ### `round` -/

theorem round_true (n : ℕ) (e : ℤ) : round true n e = (round false n e).negate := by
  unfold round negate
  dsimp only
  split_ifs <;> rfl

/-- `round` keeps the 53 leading bits `q` of a longer mantissa and drops `k + 1` bits of value `r`, of which the first weighs
`2^k`. -/
theorem round_of_ge {n : ℕ} (h : 2 ^ 53 ≤ n) (e : ℤ) : ∃ k q r : ℕ,
    n = 2 * q * 2 ^ k + r ∧ r < 2 * 2 ^ k ∧ 2 ^ 52 ≤ q ∧ q < 2 ^ 53 ∧ (2 ^ 54 ≤ n → 1 ≤ k) ∧
      round false n e =
        if 2 ^ k < r ∨ (r = 2 ^ k ∧ q % 2 = 1) then ⟨false, q + 1, e + (k + 1 : ℕ)⟩ else ⟨false, q, e + (k + 1 : ℕ)⟩ := by
  have hn : n ≠ 0 := by omega
  have hlog : 53 ≤ n.log2 := (Nat.le_log2 hn).2 h
  have hle := Nat.log2_self_le hn
  have hlt := Nat.lt_log2_self (n := n)
  obtain ⟨k, hk⟩ : ∃ k, n.log2 = 53 + k := ⟨n.log2 - 53, by omega⟩
  have hd : 2 ^ (k + 1) = 2 * 2 ^ k := by ring
  rw [hk] at hle hlt
  refine ⟨k, n / 2 ^ (k + 1), n % 2 ^ (k + 1), ?_, ?_, ?_, ?_, fun hbig => ?_, ?_⟩
  · rw [mul_comm 2, mul_assoc, ← hd, mul_comm, Nat.div_add_mod]
  · rw [← hd]; exact Nat.mod_lt _ (by positivity)
  · rw [Nat.le_div_iff_mul_le (by positivity)]
    calc 2 ^ 52 * 2 ^ (k + 1) = 2 ^ (53 + k) := by ring
      _ ≤ n := hle
  · rw [Nat.div_lt_iff_lt_mul (by positivity)]
    calc n < 2 ^ (53 + k + 1) := hlt
      _ = 2 ^ 53 * 2 ^ (k + 1) := by ring
  · have := (Nat.le_log2 hn).2 hbig
    omega
  · rw [round, if_neg (by omega), show n.log2 - 52 = k + 1 by omega]
    rfl

theorem value_shifted (q k : ℕ) (e : ℤ) : value ⟨false, q, e + (k + 1 : ℕ)⟩ = (2 * q * 2 ^ k : ℕ) * 2 ^ e := by
  rw [value_of_not_neg, zpow_add₀ two_ne_zero, zpow_natCast]
  push_cast
  ring

/-- The kept bits, one unit up when the dropped ones weigh more than half a unit, or half a unit on an odd number, are the
nearer neighbour: what the mantissa stands for lies on the same side of the midpoint as the mantissa does. -/
theorem isNearest_round_false {n : ℕ} {v : ℚ} (h : StandsFor n v) (e : ℤ) : (round false n e).IsNearest (v * 2 ^ e) := by
  rcases lt_or_ge n (2 ^ 53) with hn | hn
  · obtain rfl | ⟨hbig, -⟩ := h
    · rw [round, if_pos hn]
      exact isNearest_of_value_eq hn.le (by simp [value])
    · omega
  obtain ⟨k, q, r, hqr, hr, hq, hq', hk, hround⟩ := round_of_ge hn e
  have side (m : ℕ) := h.same_side (t := m * 2 ^ k) fun hbig => (dvd_pow_self 2 (by have := hk hbig; omega)).mul_left m
  obtain ⟨hlower, -, -⟩ := side (2 * q)
  obtain ⟨hmid_le, hle_mid, hmid⟩ := side (2 * q + 1)
  obtain ⟨-, hupper, -⟩ := side (2 * (q + 1))
  have hgap (y : F64) (hy : y.mant < 2 ^ 53) := value_le_or_succ_le hy hq (e + (k + 1 : ℕ))
  have hlo := value_shifted q k e
  have hhi := value_shifted (q + 1) k e
  have hpos : (0 : ℚ) < 2 ^ e := by positivity
  generalize 2 ^ k = half, e + ((k + 1 : ℕ) : ℤ) = E at *
  have scaled_le {a b : ℚ} (hab : a ≤ b) : a * 2 ^ e ≤ b * 2 ^ e := mul_le_mul_of_nonneg_right hab hpos.le
  have hlo_le := scaled_le (hlower (by omega))
  have hle_hi := scaled_le (hupper (by linarith))
  have htie (heq : v * 2 ^ e = ((2 * q + 1) * half : ℕ) * 2 ^ e) : r = half := by
    have := hmid (mul_right_cancel₀ hpos.ne' heq)
    linarith
  push_cast at hlo hhi hlo_le hle_hi htie
  rw [hround]
  split_ifs with hup
  · have hmid_le := scaled_le (hmid_le (by rcases hup with hup | ⟨hup, -⟩ <;> linarith))
    push_cast at hmid_le
    refine isNearest_upper hq' hgap (by linarith) (by linarith) fun heq => ?_
    have := htie (by linarith)
    show (q + 1) % 2 = 0
    omega
  · have hle_mid := scaled_le (hle_mid (by linarith [show r ≤ half by omega]))
    push_cast at hle_mid
    refine isNearest_lower hq'.le hgap (by linarith) (by linarith) fun heq => ?_
    have := htie (by linarith)
    show q % 2 = 0
    omega

/-- `round` is correct: its result is the nearest number to what the mantissa stands for. -/
theorem isNearest_round {n : ℕ} {v : ℚ} (h : StandsFor n v) (neg : Bool) (e : ℤ) :
    (round neg n e).IsNearest ((if neg then -1 else 1) * v * 2 ^ e) := by
  cases neg with
  | false => simpa using isNearest_round_false h e
  | true => rw [round_true]; simpa using (isNearest_round_false h e).negate

/-! ### The operations -/

theorem mul_isNearest (a b : F64) : (mul a b).IsNearest (a.value * b.value) := by
  have hprod : a.value * b.value
      = (if a.neg != b.neg then -1 else 1) * ((a.mant * b.mant : ℕ) : ℚ) * 2 ^ (a.exp + b.exp) := by
    rw [value, value, zpow_add₀ two_ne_zero]
    cases a.neg <;> cases b.neg <;> push_cast <;> simp <;> ring
  rw [hprod]
  exact isNearest_round (.inl rfl) _ _

theorem add_isNearest (a b : F64) : (add a b).IsNearest (a.value + b.value) := by
  have hsum : a.value + b.value
      = (a.scaled (min a.exp b.exp) + b.scaled (min a.exp b.exp) : ℤ) * 2 ^ min a.exp b.exp := by
    rw [value_eq_scaled (min_le_left a.exp b.exp), value_eq_scaled (min_le_right a.exp b.exp)]
    push_cast
    ring
  rw [hsum, add]
  generalize a.scaled (min a.exp b.exp) + b.scaled (min a.exp b.exp) = m
  split_ifs with hm
  · exact isNearest_of_value_eq (Nat.zero_le _) (by simp [value, hm])
  · have habs : (m : ℚ) = (if decide (m < 0) then -1 else 1) * (m.natAbs : ℚ) := by
      rw [← ofInt_value m]; simp [value, ofInt]
    rw [habs]
    exact isNearest_round (.inl rfl) _ _

/-- The quotient to 110 further places with its last bit stands for the exact quotient. -/
theorem standsFor_quotient (m : ℕ) {k : ℕ} (hk : 0 < k) (hk' : k ≤ 2 ^ 53) :
    StandsFor (2 * (m * 2 ^ 110 / k) + if m * 2 ^ 110 % k = 0 then 0 else 1) (m / k * 2 ^ 111) := by
  have hkq : (0 : ℚ) < k := by exact_mod_cast hk
  set q := m * 2 ^ 110 / k
  set r := m * 2 ^ 110 % k with hr
  have hdiv : (m : ℚ) * 2 ^ 110 = k * q + r := by exact_mod_cast (Nat.div_add_mod _ _).symm
  have hv : (m / k * 2 ^ 111 : ℚ) = 2 * q + 2 * (r / k) := by
    rw [show (m / k * 2 ^ 111 : ℚ) = 2 * (m * 2 ^ 110) / k by ring, hdiv]; field_simp
  have hlt : (r / k : ℚ) < 1 := (div_lt_one hkq).2 (by exact_mod_cast Nat.mod_lt _ hk)
  rw [hv]
  by_cases h0 : r = 0
  · left; simp [h0]
  · have hrpos : (0 : ℚ) < r / k := div_pos (by exact_mod_cast Nat.pos_of_ne_zero h0) hkq
    have hm : 0 < m := Nat.pos_of_ne_zero fun h => h0 (by simp [hr, h])
    have hq : 2 ^ 57 ≤ q := (Nat.le_div_iff_mul_le hk).2 (by nlinarith)
    right
    rw [if_neg h0]
    refine ⟨by omega, by omega, ?_, ?_⟩ <;> push_cast <;> linarith

theorem div_isNearest (a : F64) {b : F64} (hb : 0 < b.mant) (hb' : b.mant ≤ 2 ^ 53) :
    (div a b).IsNearest (a.value / b.value) := by
  have hquot : a.value / b.value = (if a.neg != b.neg then -1 else 1) * (a.mant / b.mant * 2 ^ 111)
      * 2 ^ (a.exp - b.exp - 111) := by
    rw [value, value, zpow_sub₀ two_ne_zero, zpow_sub₀ two_ne_zero]
    cases a.neg <;> cases b.neg <;> simp <;> field_simp
  rw [hquot]
  exact isNearest_round (standsFor_quotient a.mant hb hb') _ _

end F64

/-- Settles O29: `round` is correct, and each operation rounds its exact result once. -/
theorem binary64IsCorrectlyRounded : Obligations.Binary64IsCorrectlyRounded :=
  ⟨F64.ofInt_value, F64.add_isNearest, F64.mul_isNearest, fun a _ => F64.div_isNearest a⟩

end Sys2Proof.Machine
end

section
/-! PROOFS. The power-on state meets the invariant (10_state.md R39, 00_scope.md R7). -/

namespace Sys2Proof.Machine

theorem Config.default_wf : Config.default.wf = true := by decide

/-- A memory that lists nothing and has one unspecified range is canonical. -/
theorem Mem.wf_of_range (r : FreeRange) : Mem.wf ⟨[], r.nonempty⟩ = true := by
  rw [Mem.wf_iff]
  refine ⟨List.Pairwise.nil, by simp, ?_, fun q hq => ?_⟩
  · unfold FreeRange.nonempty; split <;> simp
  · obtain ⟨rfl, h⟩ := mem_nonempty.1 hq; exact h

theorem Mem.fits_of_range (r : FreeRange) : Mem.fits ⟨[], r.nonempty⟩ r.hi = true := by
  rw [Mem.fits_iff]
  refine ⟨by simp, fun q hq => ?_⟩
  obtain ⟨rfl, -⟩ := mem_nonempty.1 hq
  exact le_refl _

theorem memoriesInv_resetWith (c : Config) : MemoriesInv (State.resetWith c) :=
  ⟨⟨Mem.wf_of_range _, Mem.fits_of_range _⟩, ⟨Mem.wf_of_range _, Mem.fits_of_range _⟩,
    ⟨Mem.wf_of_range _, Mem.fits_of_range _⟩, Mem.wf_of_range _, Mem.fits_of_range _⟩

/-- `WBUF[0]` is the one element of `WBUF` that power-on leaves specified, as 0. -/
theorem holdsAt_resetWith_wbuf (c : Config) : HoldsAt (State.resetWith c).wbuf 0 0#8 := by
  have hd : (State.resetWith c).wbuf.drawAt 0 = none := by
    change drawIn (FreeRange.nonempty ⟨1, c.wbufCap, 2, false⟩) 0 = none
    rw [drawIn, FreeRange.find_nonempty, if_neg (by simp [FreeRange.has_iff])]
    rfl
  have hr : (State.resetWith c).wbuf.read 0 = 0#8 := by rw [Mem.read_eq, hd]; rfl
  exact ⟨hr, by rw [hostRead_of_drawAt_none hd, hr]⟩

theorem writerInv_resetWith {c : Config} (h : 1 ≤ c.wbufCap) : WriterInv (State.resetWith c) := by
  obtain ⟨hr, hh⟩ := holdsAt_resetWith_wbuf c
  refine ⟨h, fun k _ _ => ?_, fun i hi => ?_⟩
  · change streamBit ((State.resetWith c).wbuf.read 0) k = false
    rw [hr, streamBit_zero]
  · obtain rfl : i = 0 := Nat.le_zero.1 hi
    rw [hh, hr]

theorem readerInv_resetWith (c : Config) : ReaderInv (State.resetWith c) :=
  ⟨Nat.zero_le _, fun h => Bool.noConfusion h⟩

theorem errorInv_resetWith (c : Config) : ErrorInv (State.resetWith c) :=
  ⟨fun _ => ⟨rfl, rfl, rfl⟩, fun h => Bool.noConfusion h⟩

theorem inv_resetWith {c : Config} (h : c.wf = true) : Inv (State.resetWith c) :=
  ⟨h, rfl, memoriesInv_resetWith c, writerInv_resetWith (Config.caps_of_wf h).2.2.1.1, readerInv_resetWith c,
    errorInv_resetWith c, Nat.zero_le _⟩

/-- Settles O59: part by part of the invariant; the one that turns on the reset values is the writer's, whose byte is the
specified 0 of `WBUF[0]`. -/
theorem resetMeetsInvariant : Obligations.ResetMeetsInvariant :=
  ⟨inv_resetWith Config.default_wf, fun _ => inv_resetWith⟩

end Sys2Proof.Machine
end

section
/-! PROOFS. Writing a bit list leaves its packing (00_scope.md R11, 40_bitstream.md R120 to R122). -/

namespace Sys2Proof.Machine

/-! ### `pack` -/

theorem getElem?_packBytes (n : ℕ) (bits : List Bool) (m : ℕ) :
    (packBytes n bits)[m]? = if m < n then some (byteOfBits (bits.drop (8 * m))) else none := by
  induction n generalizing bits m with
  | zero => simp [packBytes]
  | succ n ih =>
    cases m with
    | zero => simp [packBytes]
    | succ m => simp [packBytes, ih, List.drop_drop, Nat.mul_succ, Nat.add_comm]

/-- Stream bit `k` of byte `m` of a packing is bit `8m + k` of the list, 0 beyond its end (00_scope.md R11). -/
theorem streamBit_of_getElem?_pack {bits : List Bool} {m k : ℕ} {b : Byte} (hk : k < 8) (h : (pack bits)[m]? = some b) :
    streamBit b k = bits.getD (8 * m + k) false := by
  rw [pack, getElem?_packBytes] at h
  split at h
  · obtain rfl := Option.some.inj h
    rw [streamBit_byteOfBits _ hk, List.getD_eq_getElem?_getD, List.getD_eq_getElem?_getD, List.getElem?_drop]
  · simp at h

/-- A byte is its stream bits. -/
theorem eq_of_streamBit_eq {a b : Byte} (h : ∀ k, k < 8 → streamBit a k = streamBit b k) : a = b := by
  refine BitVec.eq_of_getLsbD_eq fun i hi => ?_
  have := h (7 - i) (by omega)
  rwa [streamBit, streamBit, show 7 - (7 - i) = i by omega] at this

theorem getD_concat (bits : List Bool) (b : Bool) (n : ℕ) :
    (bits ++ [b]).getD n false = if n = bits.length then b else bits.getD n false := by
  rw [List.getD_eq_getElem?_getD, List.getD_eq_getElem?_getD]
  rcases Nat.lt_trichotomy n bits.length with h | h | h
  · rw [List.getElem?_append_left h, if_neg h.ne]
  · simp [h]
  · rw [if_neg h.ne', List.getElem?_eq_none (by simpa using h), List.getElem?_eq_none h.le]

/-! ### The writer -/

/-- A written element is one that the host can read, and so is every other one that it could read before. -/
theorem Mem.hostRead_write_eq_some {m : Mem} {i j : ℕ} (b : Byte) (h : j ≠ i → m.hostRead j = some (m.read j)) :
    (m.write i b).hostRead j = some ((m.write i b).read j) := by
  by_cases hj : j = i
  · subst hj; simp
  · rw [m.hostRead_write_other b hj, m.read_write_other b hj, h hj]

/-- `t` is `s` but for the writer and whether a reader is attached. -/
def OnlyWriterDiffers (s t : State) : Prop :=
  ∃ m B b v, t = { s with wbuf := m, bswByte := B, bswBit := b, bsrValid := v }

/-- `t` is `s` with `bits` written to its fresh writer: the pointer stands after them, the bytes up to the one under it are
specified and hold them and then zeros, and nothing outside the writer has changed. -/
structure Wrote (s : State) (bits : List Bool) (t : State) : Prop where
  differs : OnlyWriterDiffers s t
  bswBits : t.bswBits = bits.length
  bit : ∀ i k, i ≤ t.bswByte.toNat → k < 8 → streamBit (t.wbuf.read i) k = bits.getD (8 * i + k) false
  hostRead : ∀ i, i ≤ t.bswByte.toNat → t.wbuf.hostRead i = some (t.wbuf.read i)

/-- `BSW_INIT` starts a writer with nothing written (40_bitstream.md R121). -/
theorem wrote_nil_freshWriter (s : State) : Wrote s [] s.freshWriter where
  differs := ⟨_, _, _, _, rfl⟩
  bswBits := rfl
  bit i k hi hk := by
    obtain rfl : i = 0 := Nat.le_zero.1 hi
    simp
  hostRead i hi := by
    obtain rfl : i = 0 := Nat.le_zero.1 hi
    simp

section
variable {s t : State} {bits : List Bool} (h : Wrote s bits t)
include h

/-- Detaching a reader leaves the writer. -/
theorem Wrote.detachWbufReader : Wrote s bits t.detachWbufReader where
  differs := by obtain ⟨_, _, _, _, rfl⟩ := h.differs; exact ⟨_, _, _, _, rfl⟩
  bswBits := h.bswBits
  bit := h.bit
  hostRead := h.hostRead

theorem Wrote.streamBit_storedBit (b : Bool) {i k : ℕ} (hi : i ≤ t.bswByte.toNat) (hk : k < 8) :
    streamBit ((t.storedBit b).read i) k = (bits ++ [b]).getD (8 * i + k) false := by
  have hlen : 8 * t.bswByte.toNat + t.bswBit.toNat = bits.length := h.bswBits
  have hbit : t.bswBit.toNat < 8 := t.bswBit.isLt
  rw [State.storedBit, Mem.read_write, getD_concat]
  by_cases hB : i = t.bswByte.toNat
  · subst hB
    rw [if_pos rfl, streamBit_storeStreamBit _ hbit _ hk, h.bit _ k hi hk]
    exact if_congr (by omega) rfl rfl
  · rw [if_neg hB, if_neg (by omega), h.bit i k hi hk]

theorem Wrote.hostRead_storedBit (b : Bool) {i : ℕ} (hi : i ≤ t.bswByte.toNat) :
    (t.storedBit b).hostRead i = some ((t.storedBit b).read i) :=
  Mem.hostRead_write_eq_some _ fun _ => h.hostRead i hi

/-- One bit more (40_bitstream.md R122), while the byte pointer does not wrap. -/
theorem Wrote.appendBit (hB : t.bswByte.toNat + 1 < 2 ^ 32) (b : Bool) : Wrote s (bits ++ [b]) (t.appendBit b) := by
  have hlen : 8 * t.bswByte.toNat + t.bswBit.toNat = bits.length := h.bswBits
  have hdiffers : OnlyWriterDiffers s (t.appendBit b) := by
    obtain ⟨_, _, _, _, rfl⟩ := h.differs
    rw [appendBit_fields]; exact ⟨_, _, _, _, rfl⟩
  unfold State.appendBit at hdiffers ⊢
  split at hdiffers
  · rename_i hbit
    rw [if_pos hbit]
    refine ⟨hdiffers, ?_, fun i k hi hk => h.streamBit_storedBit b hi hk, fun i hi => h.hostRead_storedBit b hi⟩
    have : (t.bswBit + 1#3).toNat = t.bswBit.toNat + 1 := by rw [BitVec.toNat_add]; simp; omega
    simp only [State.bswBits, this, List.length_append, List.length_singleton]
    omega
  · rename_i hbit
    have hnext : (t.bswByte + 1#32).toNat = t.bswByte.toNat + 1 := by rw [BitVec.toNat_add]; simp; omega
    have h7 : t.bswBit.toNat = 7 := by have := t.bswBit.isLt; omega
    rw [if_neg hbit]
    refine ⟨hdiffers, ?_, fun i k hi hk => ?_, fun i hi => ?_⟩
    · simp only [State.bswBits, hnext, List.length_append, List.length_singleton, BitVec.toNat_zero]
      omega
    all_goals simp only [hnext] at hi ⊢
    · rw [Mem.read_write]
      split
      · rw [streamBit_zero, List.getD_eq_default _ _ (by simp; omega)]
      · exact h.streamBit_storedBit b (by omega) hk
    · exact Mem.hostRead_write_eq_some _ fun hne => h.hostRead_storedBit b (by omega)

/-- The written bytes are the packing of the bits (40_bitstream.md R120). -/
theorem Wrote.holdsFrom_pack : HoldsFrom t.wbuf 0 (pack bits) := by
  have hlen : 8 * t.bswByte.toNat + t.bswBit.toNat = bits.length := h.bswBits
  intro m b hm
  have hlt : m < (bits.length + 7) / 8 := by simpa using (List.getElem?_eq_some_iff.1 hm).1
  have hle : m ≤ t.bswByte.toNat := by have := t.bswBit.isLt; omega
  have hread : t.wbuf.read m = b :=
    eq_of_streamBit_eq fun k hk => by rw [h.bit m k hle hk, streamBit_of_getElem?_pack hk hm]
  rw [Nat.zero_add]
  exact ⟨hread, by rw [h.hostRead m hle, hread]⟩

theorem Wrote.bswBytes_eq : t.bswBytes = (pack bits).length := by
  have hlen : 8 * t.bswByte.toNat + t.bswBit.toNat = bits.length := h.bswBits
  have hbit : t.bswBit.toNat < 8 := t.bswBit.isLt
  rw [length_pack, State.bswBytes]
  split <;> omega

end

/-! ### The script -/

/-- `BSW_WRITE` appends its bit while the capacity leaves room for another one after it (40_bitstream.md R122). -/
theorem exec_bswWrite_of_room {t : State} (h : t.bswBits + 1 ≤ 8 * t.cfg.wbufCap - 1) (b : Bool) :
    exec (.bswWrite b) t = .next (t.appendBit b).detachWbufReader := by
  unfold State.bswBits at h
  have hroom : ¬t.writerFull = true := by
    simp only [State.writerFull, Bool.and_eq_true, beq_iff_eq, decide_eq_true_eq]
    omega
  change execBswWrite b t = _
  rw [execBswWrite, if_neg hroom, withElement_ok (by simp only [ByteSpace.size]; omega)]

/-- Writing further bits to a writer that holds some, by induction on the bits left to write. -/
theorem runScript_bswWrites {s : State} (hs : Inv s) (hf : s.fault = false) (rest : List Bool) {t : State}
    {bits : List Bool} (h : Wrote s bits t) (hroom : bits.length + rest.length ≤ 8 * s.cfg.wbufCap - 1) :
    ∃ u, runScript (rest.map fun b => cmdLine (.bswWrite b)) t = .next u ∧ Wrote s (bits ++ rest) u := by
  induction rest generalizing t bits with
  | nil => exact ⟨t, rfl, by rwa [List.append_nil]⟩
  | cons b rest ih =>
    rw [List.length_cons] at hroom
    obtain ⟨hcfg, hbusy, hfault⟩ : t.cfg = s.cfg ∧ t.busy = s.busy ∧ t.fault = s.fault := by
      obtain ⟨_, _, _, _, rfl⟩ := h.differs; exact ⟨rfl, rfl, rfl⟩
    have hlen : 8 * t.bswByte.toNat + t.bswBit.toNat = bits.length := h.bswBits
    have hcap := (Config.caps_of_wf hs.1).2.2.1.2
    have hstep : hostStep (cmdLine (.bswWrite b)) t = .next (t.appendBit b).detachWbufReader := by
      rw [hostStep_cmdLine (hbusy.trans hs.2.1) (hfault.trans hf),
        exec_bswWrite_of_room (by rw [h.bswBits, hcfg]; omega)]
    obtain ⟨u, hrun, hu⟩ := ih (h.appendBit (by omega) b).detachWbufReader
      (by rw [List.length_append, List.length_singleton]; omega)
    exact ⟨u, by rw [List.map_cons, runScript_cons hstep, hrun], by simpa using hu⟩

/-- Settles O18: bit by bit, the writer holds the bits written so far (`Wrote`), which is their packing. -/
theorem writerLeavesPackedBits : Obligations.WriterLeavesPackedBits := by
  refine ⟨fun bits => ⟨length_pack bits, fun _ _ _ => streamBit_of_getElem?_pack⟩, fun s bits hs hf hroom => ?_⟩
  have hinit : hostStep (cmdLine .bswInit) s = .next s.freshWriter.detachWbufReader := hostStep_cmdLine hs.2.1 hf _
  obtain ⟨t, hrun, ht⟩ := runScript_bswWrites hs hf bits (wrote_nil_freshWriter s).detachWbufReader (by simpa using hroom)
  rw [List.nil_append] at ht
  refine ⟨t, by rw [runScript_cons hinit, hrun], ?_, ht.bswBits, ht.holdsFrom_pack, ht.bswBytes_eq⟩
  obtain ⟨_, _, _, _, rfl⟩ := ht.differs
  rfl

end Sys2Proof.Machine
end

section
/-! PROOFS. Every step keeps the invariant (10_state.md R26, R29, R30, 20_memory.md R60, R65). -/

namespace Sys2Proof.Machine

/-! ### The parts of the invariant -/

section
variable {s : State} (hs : Inv s)
include hs

theorem Inv.cfg_wf : s.cfg.wf = true := hs.1
theorem Inv.not_busy : s.busy = false := hs.2.1
theorem Inv.memories : MemoriesInv s := hs.2.2.1
theorem Inv.writer : WriterInv s := hs.2.2.2.1
theorem Inv.reader : ReaderInv s := hs.2.2.2.2.1

end

/-- The answer is a next state that meets the invariant, with the configuration of `s`. -/
def KeepsInv (s : State) (r : Result) : Prop := ∃ t, r = .next t ∧ Inv t ∧ t.cfg = s.cfg

theorem keepsInv_next {s t : State} (h : Inv t) (hc : t.cfg = s.cfg) : KeepsInv s (.next t) := ⟨t, rfl, h, hc⟩

/-! ### The writer after a reset -/

/-- A writer whose pointer stands at the first bit of a specified 0 meets its invariant (10_state.md R29, R39). -/
theorem writerInv_of_holdsAt_zero {s : State} (hB : s.bswByte = 0#32) (hb : s.bswBit = 0#3) (h : HoldsAt s.wbuf 0 0#8)
    (hcap : 1 ≤ s.cfg.wbufCap) : WriterInv s := by
  obtain ⟨hread, hhost⟩ := h
  rw [WriterInv, hB, hb]
  refine ⟨hcap, fun k _ _ => ?_, fun i hi => ?_⟩
  · rw [show (0#32).toNat = 0 from rfl, hread, streamBit_zero]
  · obtain rfl : i = 0 := Nat.le_zero.1 hi
    rw [hread, hhost]

/-- Power-on leaves `WBUF[0]` the specified 0 that it puts there (10_state.md R39). -/
theorem holdsAt_powerOnReset_wbuf (s : State) : HoldsAt s.powerOnReset.wbuf 0 0#8 :=
  (holdsAt_congr (sameAt_havoc ⟨[], []⟩ _ _ (by omega))).2 ⟨rfl, rfl⟩

/-! ### What a command is made of

The checks, the fault entry and the encoder's end keep the invariant, whatever command they are part of. -/

section
variable {s : State} (hs : Inv s) (cmd : Word)
include hs

theorem keepsInv_raise (c : ErrCode) (info : Nat) : KeepsInv s (raise cmd c info s) :=
  keepsInv_next (inv_raise hs cmd c info) rfl

/-- A check raises its fault or lets the rest of the command run; `h` has the form of `withGeometry_cases`. -/
theorem keepsInv_of_check {P Q : Prop} {r rest : Result} {cmd : Word} (c : ErrCode)
    (h : (P ∧ r = rest) ∨ (Q ∧ ∃ info, r = .next (s.afterFault cmd c.value info))) (hrest : P → KeepsInv s rest) :
    KeepsInv s r := by
  obtain ⟨hp, rfl⟩ | ⟨-, info, rfl⟩ := h
  · exact hrest hp
  · exact keepsInv_raise hs cmd c info

theorem keepsInv_withGeometry {rest : Result} (h : GeometryOk s → KeepsInv s rest) :
    KeepsInv s (withGeometry cmd s rest) := keepsInv_of_check hs .geom (withGeometry_cases cmd s rest) h

theorem keepsInv_withPixel {rest : Result} (h : PixelOk s → KeepsInv s rest) : KeepsInv s (withPixel cmd s rest) :=
  keepsInv_of_check hs .range (withPixel_cases cmd s rest) h

theorem keepsInv_withTile {rest : Result} (h : TileOk s → KeepsInv s rest) : KeepsInv s (withTile cmd s rest) :=
  keepsInv_of_check hs .range (withTile_cases cmd s rest) h

theorem keepsInv_withInput {rest : Result} (h : InputOk s → KeepsInv s rest) : KeepsInv s (withInput cmd s rest) :=
  keepsInv_of_check hs .range (withInput_cases cmd s rest) h

theorem keepsInv_withSample {rest : Result} (h : KeepsInv s rest) : KeepsInv s (withSample cmd s rest) :=
  keepsInv_of_check hs .range (withSample_cases cmd s rest) fun _ => h

theorem keepsInv_encodeTo (d : List Byte) : KeepsInv s (encodeTo cmd d s) := by
  unfold encodeTo
  simp only
  split
  · exact keepsInv_raise hs cmd _ _
  · split
    · exact keepsInv_raise hs cmd _ _
    · rename_i hfit
      exact keepsInv_next (inv_loaded hs (by rw [length_huffEncode]; omega)) rfl

end

/-! ### The bit-stream unit -/

section
variable {s : State} (hs : Inv s)
include hs

/-- The written bytes of the writer lie inside `WBUF` (10_state.md R29). -/
theorem bswBytes_le_of_inv : s.bswBytes ≤ s.cfg.wbufCap := by
  have hfit : s.bswByte.toNat + 1 ≤ s.cfg.wbufCap := hs.writer.1
  unfold State.bswBytes
  split <;> omega

/-- The buffer an attached reader has borrowed lies inside its space (10_state.md R30). -/
theorem readerEnd_le_of_inv (hv : s.bsrValid = true) :
    s.bsrBase.toNat + s.bsrLen.toNat ≤ (readerSpace s.bsrSrc).size s.cfg := by
  obtain ⟨-, -, hend⟩ := hs.reader.2 hv
  cases hsrc : s.bsrSrc with
  | ibuf => rwa [hsrc] at hend
  | wbuf => rw [hsrc] at hend; exact le_trans hend (bswBytes_le_of_inv hs)

/-- Every space a reader can be attached to is at most as large as the bound of every capacity (00_scope.md R7). -/
theorem readerSpace_size_le (src : Source) : (readerSpace src).size s.cfg ≤ Config.maxCap := by
  have hcaps := Config.caps_of_wf hs.cfg_wf
  cases src <;> simp only [readerSpace, ByteSpace.size, Config.maxCap] <;> omega

theorem inv_freshWriter : Inv s.freshWriter.detachWbufReader := by
  have ⟨_, _, ⟨hwf, hfits⟩, _⟩ := hs.memories
  have hcap := (Config.caps_of_wf hs.cfg_wf).2.2.1.1
  refine inv_wbuf hs (Mem.wf_write hwf 0 _) (Mem.fits_write hfits hcap _) hcap (fun k _ _ => ?_) fun i hi => ?_
  · simp
  · obtain rfl : i = 0 := Nat.le_zero.1 hi
    simp

/-- Storing a bit and moving the pointer keeps the writer's invariant: the bits after the stored one are the 0s that stood
there, and a byte grown is 0 (40_bitstream.md R122). -/
theorem inv_appendBit (hroom : s.writerFull = false) (b : Bool) : Inv (s.appendBit b).detachWbufReader := by
  have ⟨_, _, ⟨hwf, hfits⟩, _⟩ := hs.memories
  obtain ⟨hcap, hzero, hread⟩ := hs.writer
  have hbit : s.bswBit.toNat < 8 := s.bswBit.isLt
  have hwf' : (s.storedBit b).wf = true := Mem.wf_write hwf _ _
  have hfits' : (s.storedBit b).fits s.cfg.wbufCap = true := Mem.fits_write hfits hcap _
  have hread' : ∀ i, i ≤ s.bswByte.toNat → (s.storedBit b).hostRead i = some ((s.storedBit b).read i) :=
    fun i hi => Mem.hostRead_write_eq_some _ fun _ => hread i hi
  unfold State.appendBit
  split
  · rename_i hlt
    have hnext : (s.bswBit + 1#3).toNat = s.bswBit.toNat + 1 := by rw [BitVec.toNat_add]; simp; omega
    refine inv_wbuf hs hwf' hfits' hcap (fun k hk hk8 => ?_) hread'
    rw [State.storedBit, Mem.read_write_same, streamBit_storeStreamBit _ hbit _ hk8, if_neg (by omega),
      hzero k (by omega) hk8]
  · rename_i hge
    have hgrow : s.bswByte.toNat + 2 ≤ s.cfg.wbufCap := by
      have h7 : s.bswBit.toNat = 7 := by omega
      simpa [State.writerFull, h7] using hroom
    have hwcap := (Config.caps_of_wf hs.cfg_wf).2.2.1.2
    have hnext : (s.bswByte + 1#32).toNat = s.bswByte.toNat + 1 := by rw [BitVec.toNat_add]; simp; omega
    refine inv_wbuf hs (Mem.wf_write hwf' _ _) (Mem.fits_write hfits' (by omega) _) (by omega) (fun k _ _ => ?_)
      fun i hi => Mem.hostRead_write_eq_some _ fun hne => hread' i (by omega)
    rw [Mem.read_write_same, streamBit_zero]

theorem keepsInv_execBswWrite (b : Bool) : KeepsInv s (execBswWrite b s) := by
  unfold execBswWrite
  split
  · exact keepsInv_raise hs _ _ _
  · rename_i hroom
    rw [withElement_ok (show s.bswByte.toNat < s.cfg.wbufCap from hs.writer.1)]
    exact keepsInv_next (inv_appendBit hs (Bool.eq_false_iff.2 hroom) b) (by rw [appendBit_fields]; rfl)

/-- A reader attached to a part of its source meets the reader's invariant (40_bitstream.md R123). -/
theorem inv_attachReader {src : Source} {off : Nat} (hoff : off ≤ s.sourceTotal src)
    (hinput : src = .ibuf → s.ilen.toNat ≤ s.cfg.ibufCap) : Inv (s.attachReader src off (s.sourceTotal src)) := by
  obtain ⟨hcfg, hbusy, hmem, hwriter, -, herr, holen⟩ := hs
  refine ⟨hcfg, hbusy, hmem, hwriter, ⟨Nat.zero_le _, fun _ => ⟨Nat.zero_le _, fun _ => rfl, ?_⟩⟩, herr, holen⟩
  have hend : (BitVec.ofNat 32 off).toNat + (BitVec.ofNat 32 (s.sourceTotal src - off)).toNat ≤ s.sourceTotal src := by
    have h1 := Nat.mod_le off (2 ^ 32)
    have h2 := Nat.mod_le (s.sourceTotal src - off) (2 ^ 32)
    rw [BitVec.toNat_ofNat, BitVec.toNat_ofNat]
    omega
  cases src with
  | ibuf => exact le_trans hend (hinput rfl)
  | wbuf => exact hend

theorem keepsInv_execBsrInit (src : Source) : KeepsInv s (execBsrInit src s) := by
  unfold execBsrInit
  split
  · exact keepsInv_raise hs _ _ _
  · rename_i hlen
    split
    · exact keepsInv_raise hs _ _ _
    · rename_i hoff
      exact keepsInv_next (inv_attachReader hs (Nat.not_lt.1 hoff) fun h => Nat.not_lt.1 fun h' => hlen ⟨h, h'⟩) rfl

/-- A pointer inside the borrowed buffer moves by one bit to a place inside it or to its end (40_bitstream.md R125). -/
theorem inv_advanceReader (hv : s.bsrValid = true) (hlt : s.bsrByte.toNat < s.bsrLen.toNat) : Inv s.advanceReader := by
  have hmax := le_trans (readerEnd_le_of_inv hs hv) (readerSpace_size_le hs s.bsrSrc)
  obtain ⟨hcfg, hbusy, hmem, hwriter, ⟨hbound, hreader⟩, herr, holen⟩ := hs
  obtain ⟨hle, -, hend⟩ := hreader hv
  unfold State.advanceReader
  split
  · exact ⟨hcfg, hbusy, hmem, hwriter, ⟨hbound, fun _ => ⟨hle, fun heq => absurd (congrArg BitVec.toNat heq) hlt.ne, hend⟩⟩,
      herr, holen⟩
  · have hnext : (s.bsrByte + 1#32).toNat = s.bsrByte.toNat + 1 := by
      have := s.bsrLen.isLt
      rw [BitVec.toNat_add]; simp; omega
    refine ⟨hcfg, hbusy, hmem, hwriter, ⟨?_, fun _ => ⟨?_, fun _ => rfl, hend⟩⟩, herr, holen⟩
    · change (s.bsrByte + 1#32).toNat ≤ _; omega
    · change (s.bsrByte + 1#32).toNat ≤ s.bsrLen.toNat; omega

theorem keepsInv_execBsrRead : KeepsInv s (execBsrRead s) := by
  unfold execBsrRead
  split
  · exact keepsInv_raise hs _ _ _
  · rename_i hv
    have hv : s.bsrValid = true := by simpa using hv
    split
    · exact keepsInv_raise hs _ _ _
    · rename_i hlt
      have hend := readerEnd_le_of_inv hs hv
      rw [withElement_ok (by simp only [State.readerIndex]; omega)]
      exact keepsInv_next (inv_res (inv_advanceReader hs hv (by omega)) _) (by rw [advanceReader_fields])

end

/-! ### The frame, the coder and the pipeline -/

section
variable {s : State} (hs : Inv s)
include hs

theorem inv_blk (b : Block) : Inv { s with blk := b } := hs

theorem inv_exposeTables (d : List Byte) : Inv (s.exposeTables d) := hs

theorem inv_scatterTile (g : GeometryOk s) (p : TileOk s) (b : Block) :
    Inv (s.scatterTile s.tileCol s.tileRow b) := by
  obtain ⟨-, -, -, hwf, hfits⟩ := hs.memories
  exact inv_frame hs (wf_scatterElements hwf _ _ _ _ _)
    (fits_scatterElements hfits _ _ _ _ _ fun k hk => tileAddr_lt g p.1 p.2 (List.mem_range.1 hk)) s.blk

theorem keepsInv_transformFrame (g : GeometryOk s) (f : Block → Block) : KeepsInv s (.next (s.transformFrame f)) :=
  keepsInv_next (transformFrame_keeps f g hs) (by rw [transformFrame_eq])

/-- The frame loaded with as many bytes as it has is inside `FRAME` (44_pipeline_system.md R244). -/
theorem keepsInv_loadFrame (g : GeometryOk s) {bytes : List Byte} (hlen : bytes.length = s.flen) :
    KeepsInv s (.next (s.loadFrame bytes)) := by
  obtain ⟨-, -, -, hwf, hfits⟩ := hs.memories
  have hle : s.flen ≤ s.cfg.frameCap := g.2.2
  have hload := inv_frame hs (Mem.wf_writeList hwf 0 bytes) (Mem.fits_writeList hfits (by omega)) s.blk
  exact keepsInv_next (transformFrame_keeps _ (s := { s with frame := s.frame.writeList 0 bytes }) g hload)
    (by rw [loadFrame_fields])

/-- The `SET` commands: a byte of the frame written (42_frame.md R186 to R188). -/
theorem keepsInv_set {i : Nat} (hi : GeometryOk s → PixelOk s → i < s.flen) (cmd : Word) (v : Byte) :
    KeepsInv s (withGeometry cmd s <| withPixel cmd s <| withSample cmd s <| .next (s.setFrameByte i v)) :=
  keepsInv_withGeometry hs cmd fun g => keepsInv_withPixel hs cmd fun p => keepsInv_withSample hs cmd <|
    keepsInv_next (inv_setFrameByte hs (Nat.lt_of_lt_of_le (hi g p) g.2.2) v) rfl

/-- The `GET` commands (42_frame.md R183 to R185). -/
theorem keepsInv_get (cmd : Word) (v : Byte) :
    KeepsInv s (withGeometry cmd s <| withPixel cmd s <| .next (s.setRes v)) :=
  keepsInv_withGeometry hs cmd fun _ => keepsInv_withPixel hs cmd fun _ => keepsInv_next (inv_res hs _) rfl

theorem keepsInv_execHufBuild : KeepsInv s (execHufBuild s) := by
  refine keepsInv_withInput hs _ fun _ => ?_
  split
  · exact keepsInv_raise hs _ _ _
  · exact keepsInv_next (inv_exposeTables hs _) rfl

theorem keepsInv_decodeToObuf (out : Option (List Byte)) : KeepsInv s (decodeToObuf out s) := by
  unfold decodeToObuf
  cases out with
  | none => exact keepsInv_raise (inv_obufUnspecified hs) _ _ _
  | some bytes =>
    dsimp only
    split
    · exact keepsInv_raise (inv_obufUnspecified hs) _ _ _
    · exact keepsInv_next (inv_loaded hs (by omega)) rfl

theorem keepsInv_decodeToFrame (g : GeometryOk s) (out : Option (List Byte)) : KeepsInv s (decodeToFrame out s) := by
  unfold decodeToFrame
  cases out with
  | none => exact keepsInv_raise (inv_frameUnspecified hs g) _ _ _
  | some bytes =>
    dsimp only
    split
    · exact keepsInv_raise (inv_frameUnspecified hs g) _ _ _
    · rename_i hlen
      exact keepsInv_loadFrame hs g (not_not.1 hlen)

theorem keepsInv_execHufDec : KeepsInv s (execHufDec s) := by
  refine keepsInv_withInput hs _ fun _ => ?_
  split
  · exact keepsInv_raise (inv_hvalid hs) _ _ _
  · exact keepsInv_decodeToObuf (inv_hvalid hs) _

theorem keepsInv_execPipeEnc : KeepsInv s (execPipeEnc s) := by
  refine keepsInv_withGeometry hs _ fun g => ?_
  obtain ⟨t, ht, hinv, hcfg⟩ :=
    keepsInv_encodeTo (s := s.pipeTransformed) (transformFrame_keeps _ g (inv_hvalid hs)) (encode .pipeEnc)
      s.pipeTransformed.dump
  exact ⟨t, ht, hinv, hcfg.trans (by rw [pipeTransformed_fields])⟩

theorem keepsInv_execPipeDec : KeepsInv s (execPipeDec s) := by
  refine keepsInv_withInput hs _ fun _ => keepsInv_withGeometry hs _ fun g => ?_
  split
  · exact keepsInv_raise (inv_hvalid hs) _ _ _
  · exact keepsInv_decodeToFrame (inv_hvalid hs) g _

/-! ### Reset -/

theorem inv_commandReset : Inv s.commandReset := by
  have ⟨hibuf, hobuf, ⟨hwf, hfits⟩, hframe⟩ := hs.memories
  have hcap := (Config.caps_of_wf hs.cfg_wf).2.2.1.1
  refine ⟨hs.cfg_wf, rfl, ⟨hibuf, hobuf, ⟨Mem.wf_write hwf 0 _, Mem.fits_write hfits hcap _⟩, hframe⟩,
    writerInv_of_holdsAt_zero rfl rfl (holdsAt_write _ 0 _) hcap, readerInv_resetWith s.cfg, errorInv_resetWith s.cfg,
    Nat.zero_le _⟩

theorem inv_powerOnReset : Inv s.powerOnReset := by
  have hcap := (Config.caps_of_wf hs.cfg_wf).2.2.1.1
  have hmem : ∀ lo hi draw, Mem.wf (Mem.havoc ⟨[], []⟩ lo hi draw false) = true
      ∧ Mem.fits (Mem.havoc ⟨[], []⟩ lo hi draw false) hi = true :=
    fun lo hi draw => ⟨Mem.wf_havoc rfl lo hi draw false, Mem.fits_havoc rfl (le_refl hi) draw false⟩
  exact ⟨hs.cfg_wf, rfl, ⟨hmem _ _ _, hmem _ _ _, hmem _ _ _, hmem _ _ _⟩,
    writerInv_of_holdsAt_zero rfl rfl (holdsAt_powerOnReset_wbuf s) hcap, readerInv_resetWith s.cfg,
    errorInv_resetWith s.cfg, Nat.zero_le _⟩

end

/-! ### Every command -/

/-- From a state that meets the invariant every command ends in a state that meets it. -/
theorem exec_keepsInv {s : State} (hs : Inv s) (i : Instr) : KeepsInv s (exec i s) := by
  cases i with
  | reset => exact keepsInv_next (inv_commandReset hs) rfl
  | bswInit => exact keepsInv_next (inv_freshWriter hs) rfl
  | bswWrite b => exact keepsInv_execBswWrite hs b
  | bsrInit src => exact keepsInv_execBsrInit hs src
  | bsrRead => exact keepsInv_execBsrRead hs
  | blkLd =>
    exact keepsInv_withGeometry hs _ fun _ => keepsInv_withTile hs _ fun _ => keepsInv_next (inv_blk hs _) rfl
  | blkSt =>
    exact keepsInv_withGeometry hs _ fun g => keepsInv_withTile hs _ fun p =>
      keepsInv_next (inv_scatterTile hs g p _) rfl
  | dctFwd | dctInv => exact keepsInv_next (inv_blk hs _) rfl
  | frmFwd | frmInv => exact keepsInv_withGeometry hs _ fun g => keepsInv_transformFrame hs g _
  | getY | getU | getV => exact keepsInv_get hs _ _
  | setY => exact keepsInv_set hs (fun g p => yaddr_lt_frameLength g.1 g.2.1 p.1 p.2) _ _
  | setU => exact keepsInv_set hs (fun g p => uaddr_lt_frameLength g.1 g.2.1 p.1 p.2) _ _
  | setV => exact keepsInv_set hs (fun g p => vaddr_lt_frameLength g.1 g.2.1 p.1 p.2) _ _
  | hufBuild => exact keepsInv_execHufBuild hs
  | hufEnc => exact keepsInv_withInput hs _ fun _ => keepsInv_encodeTo (inv_hvalid hs) _ _
  | hufDec => exact keepsInv_execHufDec hs
  | pipeEnc => exact keepsInv_execPipeEnc hs
  | pipeDec => exact keepsInv_execPipeDec hs

/-! ### Every action of the host -/

theorem keepsInv_issue {s : State} (hs : Inv s) (w : Word) : KeepsInv s (issue w s) := by
  unfold issue
  split
  · split
    · exact exec_keepsInv hs .reset
    · exact keepsInv_next hs rfl
  · split
    · exact exec_keepsInv hs _
    · exact keepsInv_raise hs _ _ _

theorem keepsInv_writeReg {s : State} (hs : Inv s) (n : Nat) (v : Word) : KeepsInv s (.next (s.writeReg n v)) := by
  unfold State.writeReg
  split <;> exact keepsInv_next hs rfl

theorem keepsInv_deliver {s : State} (hs : Inv s) (v : Option Word) : KeepsInv s (.next (s.deliver v)) := by
  cases v <;> exact keepsInv_next hs rfl

theorem keepsInv_deliverByte {s : State} (hs : Inv s) (v : Option Byte) : KeepsInv s (.next (s.deliverByte v)) := by
  cases v <;> exact keepsInv_next hs rfl

theorem keepsInv_writeByteSpace {s : State} (hs : Inv s) {sp : ByteSpace} {i : Nat} (hi : i < sp.size s.cfg) (v : Byte) :
    KeepsInv s (.next (s.writeByteSpace sp i v)) := by
  have ⟨hcfg, hbusy, ⟨hibuf, hobuf, hwbuf, hframe⟩, hwriter, hreader, herr, holen⟩ := hs
  cases sp with
  | ibuf =>
    exact keepsInv_next ⟨hcfg, hbusy, ⟨⟨Mem.wf_write hibuf.1 i v, Mem.fits_write hibuf.2 hi v⟩, hobuf, hwbuf, hframe⟩,
      hwriter, hreader, herr, holen⟩ rfl
  | obuf =>
    exact keepsInv_next ⟨hcfg, hbusy, ⟨hibuf, ⟨Mem.wf_write hobuf.1 i v, Mem.fits_write hobuf.2 hi v⟩, hwbuf, hframe⟩,
      hwriter, hreader, herr, holen⟩ rfl
  | frame => exact keepsInv_next (inv_setFrameByte hs hi v) rfl
  | wbuf | blk | hlen => exact keepsInv_next hs rfl

/-- An action whose index is inside its space ends in a state that meets the invariant. -/
theorem keepsInv_performAction {s : State} (hs : Inv s) {a : HostAction} (ha : a.wf s.cfg = true) :
    KeepsInv s (performAction a s) := by
  cases a with
  | issue w => exact keepsInv_issue hs w
  | readReg n => exact keepsInv_deliver hs _
  | writeReg n v => exact keepsInv_writeReg hs n v
  | readByte sp i =>
    rw [performAction, if_pos (of_decide_eq_true ha)]; exact keepsInv_deliverByte hs _
  | writeByte sp i v =>
    rw [performAction, if_pos (of_decide_eq_true ha)]; exact keepsInv_writeByteSpace hs (of_decide_eq_true ha) v
  | readWord sp i =>
    rw [performAction, if_pos (of_decide_eq_true ha)]; exact keepsInv_deliver hs _
  | writeWord sp i v =>
    rw [performAction, if_pos (of_decide_eq_true ha)]; exact keepsInv_next hs rfl
  | powerOn => exact keepsInv_next (inv_powerOnReset hs) rfl

/-- An action whose index is outside its space is refused (20_memory.md R65). -/
theorem performAction_refuses_index {s : State} {a : HostAction} (ha : a.wf s.cfg = false) :
    (∃ sp i, performAction a s = .refused (.byteIndexOutside sp i) ∧ ByteSpace.size s.cfg sp ≤ i)
      ∨ ∃ sp i, performAction a s = .refused (.wordIndexOutside sp i) ∧ WordSpace.size sp ≤ i := by
  cases a with
  | issue w => cases ha
  | readReg n => cases ha
  | writeReg n v => cases ha
  | powerOn => cases ha
  | readByte sp i | writeByte sp i v =>
    have hi := of_decide_eq_false ha
    exact .inl ⟨sp, i, if_neg hi, Nat.not_lt.1 hi⟩
  | readWord sp i | writeWord sp i v =>
    have hi := of_decide_eq_false ha
    exact .inr ⟨sp, i, if_neg hi, Nat.not_lt.1 hi⟩

/-- Settles O60: an idle block keeps its state; otherwise the oldest action is either inside its space, and then every
command and every host access keeps the invariant, or outside it and refused. -/
theorem stepKeepsInvariant : Obligations.StepKeepsInvariant := by
  intro s hs
  unfold step
  cases hin : s.inbox with
  | nil => exact .inl ⟨s, rfl, hs, rfl⟩
  | cons a rest =>
    have hs' : Inv { s with inbox := rest } := hs
    dsimp only
    rw [hostStep_not_busy hs'.not_busy]
    cases ha : a.wf s.cfg with
    | true => exact .inl (keepsInv_performAction hs' ha)
    | false => exact .inr (performAction_refuses_index (s := { s with inbox := rest }) ha)

end Sys2Proof.Machine
end

section
/-! PROOFS. The host's reads and writes of registers and memory spaces, power-on, and the stop of the bit commands outside
their space (10_state.md R21 to R39, 20_memory.md R60, R65). -/

namespace Sys2Proof.Machine

/-! ### Reading registers -/

theorem hostStep_readReg {s : State} (hb : s.busy = false) (n : Nat) :
    hostStep (.readReg n) s = .next (s.deliver (s.readReg n)) := hostStep_not_busy hb _

theorem hostStep_readReg_of_eq_some {s : State} (hb : s.busy = false) {n : Nat} {w : Word} (h : s.readReg n = some w) :
    hostStep (.readReg n) s = .next { s with hostData := w } := by rw [hostStep_readReg hb, h]; rfl

/-- The registers whose value is always specified but `STATUS`, each with the number it stands for (10_state.md R22). -/
def registerTable (s : State) : List (Nat × Nat) :=
  [(1, s.err.toNat), (2, s.errinfo.toNat), (3, s.errcmd.toNat), (4, s.a0.toNat), (5, s.a1.toNat),
    (6, s.a2.toNat), (7, s.res.toNat), (8, s.width.toNat), (9, s.height.toNat), (10, s.ilen.toNat),
    (11, s.olen.toNat), (12, s.bswByte.toNat), (13, s.bswBit.toNat),
    (14, 8 * s.bswByte.toNat + s.bswBit.toNat), (15, (8 * s.bswByte.toNat + s.bswBit.toNat + 7) / 8),
    (16, s.bsrByte.toNat), (17, s.bsrBit.toNat), (18, 8 * s.bsrByte.toNat + s.bsrBit.toNat),
    (19, (8 * s.bsrByte.toNat + s.bsrBit.toNat + 7) / 8), (20, s.bsrBase.toNat), (21, s.bsrLen.toNat), (23, 0),
    (24, s.cfg.ibufCap), (25, s.cfg.obufCap), (26, s.cfg.wbufCap), (27, s.cfg.frameCap)]

/-- `BSW_BYTES` counts the bytes that hold `BSW_BITS` bits (10_state.md R29). -/
theorem bswBytes_eq_div (s : State) : s.bswBytes = (8 * s.bswByte.toNat + s.bswBit.toNat + 7) / 8 := by
  have hbit : s.bswBit.toNat < 8 := s.bswBit.isLt
  unfold State.bswBytes
  split <;> omega

theorem readReg_of_mem_registerTable {s : State} {p : Nat × Nat} (h : p ∈ registerTable s) :
    s.readReg p.1 = some (BitVec.ofNat 32 p.2) := by
  revert p
  simp only [registerTable, List.forall_mem_cons, List.not_mem_nil, false_implies, implies_true, and_true,
    BitVec.ofNat_toNat, BitVec.setWidth_eq, ← bswBytes_eq_div]
  repeat' apply And.intro
  all_goals rfl

/-- Every value of the table fits a register: the pointers because they are bounded by the capacities (10_state.md R29, R30). -/
theorem lt_of_mem_registerTable {s : State} (hs : Inv s) {p : Nat × Nat} (h : p ∈ registerTable s) : p.2 < 2 ^ 32 := by
  have hcaps := Config.caps_of_wf hs.cfg_wf
  have hwriter : s.bswByte.toNat + 1 ≤ s.cfg.wbufCap := hs.writer.1
  have hreader : s.bsrByte.toNat ≤ 2 ^ 29 - 1 := hs.reader.1
  revert p
  simp only [registerTable, List.forall_mem_cons, List.not_mem_nil, false_implies, implies_true, and_true]
  omega

theorem readReg_of_ge (s : State) {n : Nat} (h : 28 ≤ n) : s.readReg n = some 0#32 := by
  obtain ⟨k, rfl⟩ := Nat.exists_eq_add_of_le' h
  rfl

/-- `STATUS` bit by bit (10_state.md R25). -/
theorem status_bits (s : State) :
    s.status.toNat < 32 ∧ s.status.getLsbD 0 = s.fault ∧ s.status.getLsbD 1 = s.busy ∧ s.status.getLsbD 2 = s.bsrValid
      ∧ s.status.getLsbD 3 = (s.bsrSrc == .wbuf) ∧ s.status.getLsbD 4 = s.hvalid := by
  unfold State.status
  generalize (s.bsrSrc == .wbuf) = src
  generalize s.fault = fault, s.busy = busy, s.bsrValid = valid, s.hvalid = tables
  revert fault busy valid src tables
  decide

/-- Settles O8: the register table read entry by entry, with the bounds that let the derived values fit a register. -/
theorem registerReads : Obligations.RegisterReads := by
  intro s hs
  have hb : s.busy = false := hs.not_busy
  refine ⟨fun n v h => ?_, fun n hn => hostStep_readReg_of_eq_some hb (readReg_of_ge s hn), fun hv => ?_, fun hv => ?_, ?_⟩
  · refine ⟨BitVec.ofNat 32 v, ?_, hostStep_readReg_of_eq_some hb (readReg_of_mem_registerTable (p := (n, v)) h)⟩
    rw [BitVec.toNat_ofNat, Nat.mod_eq_of_lt (lt_of_mem_registerTable hs (p := (n, v)) h)]
  · exact hostStep_readReg_of_eq_some hb (if_pos hv)
  · rw [hostStep_readReg hb, show s.readReg 22 = none from if_neg (by simp [hv])]
    rfl
  · obtain ⟨hlt, hfault, hbusy, hvalid, hsrc, htables⟩ := status_bits s
    exact ⟨s.status, hostStep_readReg_of_eq_some hb rfl, hlt, hfault, hbusy.trans hb, hvalid, by rw [hsrc, beq_iff_eq], htables⟩

/-! ### Writing registers -/

/-- What a write of register `n` does to each of the six read-write registers (10_state.md R21, R22). -/
theorem writeReg_eq (s : State) (n : Nat) (v : Word) :
    s.writeReg n v =
      { s with
        a0 := if n = 4 then v else s.a0
        a1 := if n = 5 then v else s.a1
        a2 := if n = 6 then v else s.a2
        width := if n = 8 then v.setWidth 16 else s.width
        height := if n = 9 then v.setWidth 16 else s.height
        ilen := if n = 10 then v else s.ilen } := by
  unfold State.writeReg
  split
  case h_7 h4 h5 h6 h8 h9 h10 => rw [if_neg h4, if_neg h5, if_neg h6, if_neg h8, if_neg h9, if_neg h10]
  all_goals rfl

/-- Settles O9: by the equation of `writeReg`, the low 16 bits of a word being its value modulo `2^16`. -/
theorem registerWrites : Obligations.RegisterWrites := by
  intro s n v hb
  refine ⟨_, (hostStep_not_busy hb _).trans (congrArg Host.Outcome.next (writeReg_eq s n v)), rfl, rfl, rfl, rfl, rfl, ?_, ?_⟩
  all_goals exact apply_ite BitVec.toNat _ _ _

/-! ### Memory spaces -/

section
variable {s : State} (hb : s.busy = false)
include hb

theorem hostStep_readByte {sp : ByteSpace} {i : Nat} (hi : i < sp.size s.cfg) :
    hostStep (.readByte sp i) s = .next (s.deliverByte (s.readByteSpace sp i)) := by
  rw [hostStep_not_busy hb, performAction, if_pos hi]

theorem hostStep_writeByte {sp : ByteSpace} {i : Nat} (hi : i < sp.size s.cfg) (v : Byte) :
    hostStep (.writeByte sp i v) s = .next (s.writeByteSpace sp i v) := by
  rw [hostStep_not_busy hb, performAction, if_pos hi]

theorem hostStep_readWord {sp : WordSpace} {i : Nat} (hi : i < sp.size) :
    hostStep (.readWord sp i) s = .next (s.deliver (s.readWordSpace sp i)) := by
  rw [hostStep_not_busy hb, performAction, if_pos hi]

theorem hostStep_writeWord {sp : WordSpace} {i : Nat} (hi : i < sp.size) (v : Word) :
    hostStep (.writeWord sp i v) s = .next s := by
  rw [hostStep_not_busy hb, performAction, if_pos hi]

theorem hostStep_refuses_byteIndex {sp : ByteSpace} {i : Nat} (hi : sp.size s.cfg ≤ i) (v : Byte) :
    hostStep (.readByte sp i) s = .refused (.byteIndexOutside sp i)
      ∧ hostStep (.writeByte sp i v) s = .refused (.byteIndexOutside sp i) := by
  simp only [hostStep_not_busy hb, performAction, if_neg (Nat.not_lt.2 hi), and_self]

theorem hostStep_refuses_wordIndex {sp : WordSpace} {i : Nat} (hi : sp.size ≤ i) (v : Word) :
    hostStep (.readWord sp i) s = .refused (.wordIndexOutside sp i)
      ∧ hostStep (.writeWord sp i v) s = .refused (.wordIndexOutside sp i) := by
  simp only [hostStep_not_busy hb, performAction, if_neg (Nat.not_lt.2 hi), and_self]

end

/-- A read changes nothing but what the host has read and the number of draws. -/
theorem deliverByte_eq (s : State) (v : Option Byte) :
    s.deliverByte v = { s with hostData := (s.deliverByte v).hostData, draws := (s.deliverByte v).draws } := by
  cases v <;> rfl

/-- Where an element of a byte space is specified (10_state.md R34, 20_memory.md R60, R63). -/
theorem readByteSpace_eq_some {s : State} {sp : ByteSpace} {i : Nat} {b : Byte}
    (h : sp = .ibuf ∧ s.ibuf.hostRead i = some b ∨ sp = .obuf ∧ s.obuf.hostRead i = some b
      ∨ sp = .frame ∧ s.frame.hostRead i = some b ∨ sp = .blk ∧ tableGet s.blk i = b
      ∨ sp = .wbuf ∧ i ≤ s.bswByte.toNat ∧ s.wbuf.hostRead i = some b
      ∨ sp = .hlen ∧ s.hvalid = true ∧ tableGet s.hlen i = b) : s.readByteSpace sp i = some b := by
  obtain ⟨rfl, h⟩ | ⟨rfl, h⟩ | ⟨rfl, h⟩ | ⟨rfl, h⟩ | ⟨rfl, hi, h⟩ | ⟨rfl, hv, h⟩ := h
  · exact h
  · exact h
  · exact h
  · exact congrArg some h
  · exact (if_pos (Nat.lt_succ_of_le hi)).trans h
  · exact (if_pos hv).trans (congrArg some h)

/-- Settles O10: space by space, by what `Mem.write` and `tableSet` do to each element. -/
theorem memoryHostAccess : Obligations.MemoryHostAccess := by
  intro s hb
  refine ⟨fun sp i v hi => ⟨_, hostStep_writeByte hb hi v, ?_⟩, fun sp i v hi => hostStep_writeWord hb hi v,
    fun sp i hi => ⟨_, hostStep_readByte hb hi, deliverByte_eq s _, fun b h => ?_⟩, fun sp i hi hv => ?_,
    fun sp i hi hv => ?_, fun sp i v hi => hostStep_refuses_byteIndex hb hi v,
    fun sp i v hi => hostStep_refuses_wordIndex hb hi v⟩
  · cases sp with
    | ibuf | obuf | frame => simpa [State.writeByteSpace, holdsAt_write] using fun a => sameAt_write _ v
    | wbuf | hlen => simp [State.writeByteSpace]
    | blk => simpa [State.writeByteSpace] using fun k _ => tableGet_tableSet s.blk k v hi
  · rw [readByteSpace_eq_some h]
    exact ⟨BitVec.toNat_setWidth_of_le (by decide), rfl⟩
  · rw [hostStep_readWord hb hi]
    cases sp with
    | hweight => rw [show s.readWordSpace .hweight i = some (tableGet s.hweight i) from if_pos hv]; rfl
    | hlink => rw [show s.readWordSpace .hlink i = some (tableGet s.hlink i) from if_pos hv]; rfl
  · rw [hostStep_readWord hb hi, show s.readWordSpace sp i = none from if_neg (by simp [hv])]
    rfl

/-! ### Power-on -/

theorem registersReset_resetWith (c : Config) : RegistersReset (State.resetWith c) :=
  ⟨⟨rfl, rfl, rfl, rfl, rfl⟩, ⟨rfl, rfl, rfl⟩, ⟨rfl, rfl, rfl, rfl⟩, ⟨rfl, rfl, rfl, rfl⟩, ⟨rfl, rfl⟩,
    ⟨rfl, rfl, rfl, rfl⟩, rfl, fun _ hk => tableGet_tableOf _ hk⟩

/-- Power-on is performed whether the block is busy or not (log entry 6). -/
theorem hostStep_powerOn (s : State) : hostStep .powerOn s = .next s.powerOnReset := by
  simp [hostStep, allowedWhileBusy, performAction]

/-- Settles O11: the registers are those of `State.resetWith`, and each memory is one unspecified range of a draw of its
own. -/
theorem powerOnState : Obligations.PowerOnState := by
  refine ⟨⟨registersReset_resetWith _, holdsAt_resetWith_wbuf _, rfl, rfl⟩, fun s => ?_⟩
  have hdraw : ∀ {lo hi a : Nat} (draw : Nat), lo ≤ a → a < hi →
      HoldsAt (Mem.havoc ⟨[], []⟩ lo hi draw false) a (Config.freeByte draw a) := holdsAt_havoc ⟨[], []⟩
  exact ⟨s.powerOnReset, hostStep_powerOn s, registersReset_resetWith s.cfg, holdsAt_powerOnReset_wbuf s, rfl, rfl,
    fun a ha => hdraw _ (Nat.zero_le a) ha, fun a ha => hdraw _ (Nat.zero_le a) ha, fun a h0 ha => hdraw _ h0 ha,
    fun a ha => hdraw _ (Nat.zero_le a) ha, rfl⟩

/-! ### Outside the space of a bit command -/

/-- A reader's byte outside the space of its source stops the model (log entry 7). -/
theorem exec_bsrRead_outside {s : State} (hv : s.bsrValid = true) (hlt : s.bsrByte.toNat < s.bsrLen.toNat)
    (hout : (readerSpace s.bsrSrc).size s.cfg ≤ s.readerIndex) :
    exec .bsrRead s = .fault (.outsideSpace (readerSpace s.bsrSrc) s.readerIndex) := by
  change execBsrRead s = _
  rw [execBsrRead, hv, if_neg (by decide), if_neg (Nat.not_le.2 hlt), withElement_bad hout]

/-- Settles O17: once its own checks have passed, the command's access to the byte is what stops the model. -/
theorem bitStreamStopsOutsideSpace : Obligations.BitStreamStopsOutsideSpace := by
  refine ⟨fun s b hout hroom => ?_, fun s hv hlt => ⟨fun hsrc hout => ?_, fun hsrc hout => ?_⟩⟩
  · change execBswWrite b s = _
    rw [execBswWrite, if_neg (by simpa [State.writerFull] using hroom), withElement_bad hout]
  all_goals
    have := exec_bsrRead_outside hv hlt (by rw [hsrc]; exact hout)
    rwa [hsrc] at this

end Sys2Proof.Machine
end

section
/-! PROOFS. Which registers and flags a command may write (10_state.md R23 to R28, 43_huffman.md R204). -/

namespace Sys2Proof.Machine

/-! ### The host's registers -/

/-- `t` has the host's registers and `IBUF` of `s`, its configuration and its host port, and at least as many draws made. -/
structure KeepsHostRegisters (s t : State) : Prop where
  same : t = { t with
    ibuf := s.ibuf, cfg := s.cfg, inbox := s.inbox, hostData := s.hostData, a0 := s.a0, a1 := s.a1, a2 := s.a2,
    width := s.width, height := s.height, ilen := s.ilen, busy := s.busy }
  draws : s.draws ≤ t.draws

theorem Effect.keepsHostRegisters {i : Instr} {s t : State} (h : Effect i s t) (hi : i ≠ .reset) :
    KeepsHostRegisters s t := by
  cases h with
  | reset h => exact absurd h hi
  | bswWrite => rw [appendBit_fields]; exact ⟨rfl, Nat.le_refl _⟩
  | bsrRead => rw [advanceReader_fields]; exact ⟨rfl, Nat.le_refl _⟩
  | frm => rw [transformFrame_eq]; exact ⟨rfl, Nat.le_refl _⟩
  | pipeDec => rw [loadFrame_fields]; exact ⟨rfl, Nat.le_refl _⟩
  | pipeEncFault => rw [pipeTransformed_fields]; exact ⟨rfl, Nat.le_refl _⟩
  | pipeEnc => rw [pipeTransformed_fields]; exact ⟨rfl, Nat.le_succ _⟩
  | enc | decFault | pipeDecFault => exact ⟨rfl, Nat.le_succ _⟩
  | fault | bswInit | bsrInit | blk | blkSt | get | set | build | encFault => exact ⟨rfl, Nat.le_refl _⟩

/-- Settles O53: over the effects of the commands, `RESET` apart, which keeps the host port too. -/
theorem commandsKeepHostRegisters : Obligations.CommandsKeepHostRegisters := by
  intro i s t h
  by_cases hi : i = .reset
  · subst hi
    rw [← next_inj h]
    exact ⟨⟨rfl, rfl, rfl, rfl, Nat.le_refl _⟩, fun hne => absurd rfl hne⟩
  · obtain ⟨hsame, hdraws⟩ := (exec_effect h).keepsHostRegisters hi
    refine ⟨⟨?_, ?_, ?_, ?_, hdraws⟩, fun _ => ⟨?_, ?_, ?_, ?_, ?_, ?_, ?_⟩⟩ <;> rw [hsame]

/-! ### The result registers and flags -/

/-- The commands that build or parse a tree of their own and so clear `HVALID` (43_huffman.md R204). -/
abbrev coderCommands : List Instr := [.hufEnc, .hufDec, .pipeEnc, .pipeDec]

/-- `t` is `s` after a fault of the range of the input or of the geometry, with nothing else changed. -/
def FirstCheckFault (s t : State) : Prop :=
  t.fault = true ∧ (t.err = 5#4 ∨ t.err = 6#4)
    ∧ t = { s with fault := true, err := t.err, errinfo := t.errinfo, errcmd := t.errcmd }

/-- How a command other than `RESET` may change `RES`, `OLEN`, `HVALID` and the reader's flags. -/
structure ResultChange (i : Instr) (s t : State) : Prop where
  res : t.res = s.res ∨ i ∈ [.bsrRead, .getY, .getU, .getV] ∧ t.fault = s.fault
  olen : t.olen = s.olen ∨ i ∈ [.hufEnc, .hufDec, .pipeEnc] ∧ t.fault = s.fault
  hvalid : t.hvalid = s.hvalid ∧ (i ∈ coderCommands → FirstCheckFault s t) ∨ i = .hufBuild ∧ t.hvalid = true
    ∨ i ∈ coderCommands ∧ t.hvalid = false
  reader : t.bsrValid = s.bsrValid ∧ t.bsrSrc = s.bsrSrc ∨ (∃ src, i = .bsrInit src) ∧ t.bsrValid = true
    ∨ (i = .bswInit ∨ ∃ b, i = .bswWrite b) ∧ t.bsrValid = (s.bsrValid && s.bsrSrc != .wbuf) ∧ t.bsrSrc = s.bsrSrc

section
variable {i : Instr} {s t : State}

/-- A command that is none of the writers of these registers. -/
theorem ResultChange.of_kept (hi : i ∉ coderCommands) (hres : t.res = s.res) (holen : t.olen = s.olen)
    (hhvalid : t.hvalid = s.hvalid) (hvalid : t.bsrValid = s.bsrValid) (hsrc : t.bsrSrc = s.bsrSrc) :
    ResultChange i s t :=
  ⟨.inl hres, .inl holen, .inl ⟨hhvalid, fun h => absurd h hi⟩, .inl ⟨hvalid, hsrc⟩⟩

/-- A coder command past its first checks, which has cleared `HVALID`. -/
theorem ResultChange.of_coder (hi : i ∈ coderCommands) (hres : t.res = s.res)
    (holen : t.olen = s.olen ∨ i ∈ [.hufEnc, .hufDec, .pipeEnc] ∧ t.fault = s.fault) (hhvalid : t.hvalid = false)
    (hvalid : t.bsrValid = s.bsrValid) (hsrc : t.bsrSrc = s.bsrSrc) : ResultChange i s t :=
  ⟨.inl hres, holen, .inr (.inr ⟨hi, hhvalid⟩), .inl ⟨hvalid, hsrc⟩⟩

theorem Effect.resultChange (h : Effect i s t) (hi : i ≠ .reset) : ResultChange i s t := by
  cases h with
  | fault c info _ hcoder =>
    exact ⟨.inl rfl, .inl rfl, .inl ⟨rfl, fun hi => ⟨rfl, hcoder hi, rfl⟩⟩, .inl ⟨rfl, rfl⟩⟩
  | reset h => exact absurd h hi
  | bswInit h => exact ⟨.inl rfl, .inl rfl, .inl ⟨rfl, by simp [h]⟩, .inr (.inr ⟨.inl h, rfl, rfl⟩)⟩
  | bswWrite b h =>
    rw [appendBit_fields]
    exact ⟨.inl rfl, .inl rfl, .inl ⟨rfl, by simp [h]⟩, .inr (.inr ⟨.inr ⟨b, h⟩, rfl, rfl⟩)⟩
  | bsrInit src h => exact ⟨.inl rfl, .inl rfl, .inl ⟨rfl, by simp [h]⟩, .inr (.inl ⟨⟨src, h⟩, rfl⟩)⟩
  | bsrRead h =>
    rw [advanceReader_fields]
    exact ⟨.inr ⟨by simp [h], rfl⟩, .inl rfl, .inl ⟨rfl, by simp [h]⟩, .inl ⟨rfl, rfl⟩⟩
  | get h =>
    have hn : i ∉ coderCommands := (by decide : ∀ j ∈ [.getY, .getU, .getV], j ∉ coderCommands) i h
    exact ⟨.inr ⟨List.mem_cons_of_mem _ h, rfl⟩, .inl rfl, .inl ⟨rfl, fun hi => absurd hi hn⟩, .inl ⟨rfl, rfl⟩⟩
  | blk h =>
    exact .of_kept ((by decide : ∀ j ∈ [.blkLd, .dctFwd, .dctInv], j ∉ coderCommands) i h) rfl rfl rfl rfl rfl
  | blkSt h => exact .of_kept (by simp [h]) rfl rfl rfl rfl rfl
  | frm h =>
    rw [transformFrame_eq]
    exact .of_kept ((by decide : ∀ j ∈ [.frmFwd, .frmInv], j ∉ coderCommands) i h) rfl rfl rfl rfl rfl
  | set h =>
    exact .of_kept ((by decide : ∀ j ∈ [.setY, .setU, .setV], j ∉ coderCommands) i h) rfl rfl rfl rfl rfl
  | build h => exact ⟨.inl rfl, .inl rfl, .inr (.inl ⟨h, rfl⟩), .inl ⟨rfl, rfl⟩⟩
  | enc h => exact .of_coder (by simp; tauto) rfl (.inr ⟨by simp; tauto, rfl⟩) rfl rfl rfl
  | encFault h => exact .of_coder (by simp; tauto) rfl (.inl rfl) rfl rfl rfl
  | decFault h => exact .of_coder (by simp [h]) rfl (.inl rfl) rfl rfl rfl
  | pipeEnc h => rw [pipeTransformed_fields]; exact .of_coder (by simp [h]) rfl (.inr ⟨by simp [h], rfl⟩) rfl rfl rfl
  | pipeEncFault h => rw [pipeTransformed_fields]; exact .of_coder (by simp [h]) rfl (.inl rfl) rfl rfl rfl
  | pipeDecFault h => exact .of_coder (by simp [h]) rfl (.inl rfl) rfl rfl rfl
  | pipeDec h => rw [loadFrame_fields]; exact .of_coder (by simp [h]) rfl (.inl rfl) rfl rfl rfl

end

/-- Settles O54: each clause is read off what `ResultChange` allows. -/
theorem resultRegistersHaveFewWriters : Obligations.ResultRegistersHaveFewWriters := by
  intro i s t hi h
  obtain ⟨hres, holen, hhvalid, hreader⟩ := (exec_effect h).resultChange hi
  refine ⟨fun hn => hres.resolve_right fun h => hn h.1, fun hn => holen.resolve_right fun h => hn h.1,
    fun hs ht => ?_, fun hc ht => ?_, fun hs ht => ?_, fun hs ht => ?_, fun hs ht => ?_, fun hn => ?_, fun hs ht => ?_⟩
  · obtain ⟨heq, -⟩ | ⟨rfl, -⟩ | ⟨-, hf⟩ := hhvalid
    · simp [heq, hs] at ht
    · rfl
    · simp [hf] at ht
  · obtain ⟨-, hfault⟩ | ⟨rfl, -⟩ | ⟨-, hf⟩ := hhvalid
    · exact hfault hc
    · simp at hc
    · simp [hf] at ht
  · obtain ⟨heq, -⟩ | ⟨-, htrue⟩ | ⟨hc, -⟩ := hhvalid
    · simp [heq, hs] at ht
    · simp [htrue] at ht
    · exact hc
  · obtain ⟨heq, -⟩ | ⟨hinit, -⟩ | ⟨-, heq, -⟩ := hreader
    · simp [heq, hs] at ht
    · exact hinit
    · simp [heq, hs] at ht
  · obtain ⟨heq, -⟩ | ⟨-, htrue⟩ | ⟨hwriter, heq, -⟩ := hreader
    · simp [heq, hs] at ht
    · simp [htrue] at ht
    · exact ⟨by simpa [heq, hs] using ht, hwriter⟩
  · obtain ⟨-, hsrc⟩ | ⟨⟨src, rfl⟩, -⟩ | ⟨-, -, hsrc⟩ := hreader
    · exact hsrc
    · exact absurd rfl (hn src)
    · exact hsrc
  · have hne : t.fault ≠ s.fault := by simp [hs, ht]
    exact ⟨hres.resolve_right fun h => hne h.2, holen.resolve_right fun h => hne h.2⟩

end Sys2Proof.Machine
end

section
/-! PROOFS. While `HVALID` = 0 the contents of the table spaces and of `HNBITS` cannot be observed (10_state.md R31, R34). -/

namespace Sys2Proof.Machine

/-! ### Two runs that differ in the tables -/

/-- The contents of the table spaces and of `HNBITS`. -/
structure Tables where
  hweight : Vector Word 511
  hlink : Vector Word 511
  hlen : Vector Byte 256
  hnbits : Word

/-- The state with other contents of the tables. -/
def State.withTables (s : State) (T : Tables) : State :=
  { s with hweight := T.hweight, hlink := T.hlink, hlen := T.hlen, hnbits := T.hnbits }

/-- The answer with other contents of the tables in its next state. -/
def resultWithTables (T : Tables) : Result → Result
  | .next t => .next (t.withTables T)
  | .fault f => .fault f
  | .refused r => .refused r

/-- What `f` answers neither depends on the tables nor changes them. -/
def TableBlind (f : State → Result) : Prop := ∀ s T, f (s.withTables T) = resultWithTables T (f s)

/-! ### What a command is made of -/

theorem TableBlind.next {u : State → State} (hu : ∀ s T, u (s.withTables T) = (u s).withTables T) :
    TableBlind fun s => .next (u s) := fun s T => congrArg Host.Outcome.next (hu s T)

theorem TableBlind.raise (cmd : Word) (c : ErrCode) {info : State → Nat} {u : State → State}
    (hinfo : ∀ s T, info (s.withTables T) = info s) (hu : ∀ s T, u (s.withTables T) = (u s).withTables T) :
    TableBlind fun s => raise cmd c (info s) (u s) := fun s T => by
  change Machine.raise cmd c (info (s.withTables T)) (u (s.withTables T)) = _
  rw [hinfo, hu]
  rfl

theorem TableBlind.ite {p : State → Prop} [∀ s, Decidable (p s)] {f g : State → Result}
    (hp : ∀ s T, p (s.withTables T) ↔ p s) (hf : TableBlind f) (hg : TableBlind g) :
    TableBlind fun s => if p s then f s else g s := fun s T => by
  change (if p (s.withTables T) then f (s.withTables T) else g (s.withTables T)) = _
  rw [hf, hg, apply_ite (resultWithTables T)]
  exact if_congr (hp s T) rfl rfl

section
variable {f : State → Result} (h : TableBlind f) (cmd : Word)
include h

theorem TableBlind.withGeometry : TableBlind fun s => withGeometry cmd s (f s) :=
  .ite (fun _ _ => Iff.rfl) (.raise cmd .geom (fun _ _ => rfl) fun _ _ => rfl) h

theorem TableBlind.withInput : TableBlind fun s => withInput cmd s (f s) :=
  .ite (fun _ _ => Iff.rfl) (.raise cmd .range (fun _ _ => rfl) fun _ _ => rfl) h

theorem TableBlind.withSample : TableBlind fun s => withSample cmd s (f s) :=
  .ite (fun _ _ => Iff.rfl) (.raise cmd .range (fun _ _ => rfl) fun _ _ => rfl) h

theorem TableBlind.withPixel : TableBlind fun s => withPixel cmd s (f s) :=
  .ite (fun _ _ => Iff.rfl) (.raise cmd .range (fun _ _ => rfl) fun _ _ => rfl)
    (.ite (fun _ _ => Iff.rfl) (.raise cmd .range (fun _ _ => rfl) fun _ _ => rfl) h)

theorem TableBlind.withTile : TableBlind fun s => withTile cmd s (f s) :=
  .ite (fun _ _ => Iff.rfl) (.raise cmd .range (fun _ _ => rfl) fun _ _ => rfl)
    (.ite (fun _ _ => Iff.rfl) (.raise cmd .range (fun _ _ => rfl) fun _ _ => rfl) h)

end

/-! ### The updates -/

theorem appendBit_withTables (b : Bool) (s : State) (T : Tables) :
    (s.withTables T).appendBit b = (s.appendBit b).withTables T := by
  rw [State.appendBit, State.appendBit, apply_ite (State.withTables · T)]
  rfl

theorem advanceReader_withTables (s : State) (T : Tables) :
    (s.withTables T).advanceReader = s.advanceReader.withTables T := by
  rw [State.advanceReader, State.advanceReader, apply_ite (State.withTables · T)]
  rfl

theorem foldTiles_withTables (f : Block → Block) (ts : List (Nat × Nat)) (s : State) (T : Tables) :
    ts.foldl (State.transformTile f) (s.withTables T) = (ts.foldl (State.transformTile f) s).withTables T := by
  induction ts generalizing s with
  | nil => rfl
  | cons t ts ih => exact ih (State.transformTile f s t)

theorem transformFrame_withTables (f : Block → Block) (s : State) (T : Tables) :
    (s.withTables T).transformFrame f = (s.transformFrame f).withTables T := foldTiles_withTables f _ s T

theorem encodeTo_blind (cmd : Word) (d : List Byte) : TableBlind (encodeTo cmd d) :=
  .ite (fun _ _ => Iff.rfl) (.raise cmd .overflow (fun _ _ => rfl) fun _ _ => rfl)
    (.ite (fun _ _ => Iff.rfl) (.raise cmd .capacity (fun _ _ => rfl) fun _ _ => rfl) (.next fun _ _ => rfl))

theorem decodeToObuf_blind (out : Option (List Byte)) : TableBlind (decodeToObuf out) := by
  cases out with
  | none => exact .raise _ _ (fun _ _ => rfl) fun _ _ => rfl
  | some bytes =>
    exact .ite (fun _ _ => Iff.rfl) (.raise _ _ (fun _ _ => rfl) fun _ _ => rfl) (.next fun _ _ => rfl)

theorem decodeToFrame_blind (out : Option (List Byte)) : TableBlind (decodeToFrame out) := by
  cases out with
  | none => exact .raise _ _ (fun _ _ => rfl) fun _ _ => rfl
  | some bytes =>
    exact .ite (fun _ _ => Iff.rfl) (.raise _ _ (fun _ _ => rfl) fun _ _ => rfl)
      (.next fun s T => transformFrame_withTables _ { s with frame := s.frame.writeList 0 bytes } T)

/-! ### The commands -/

theorem execBswWrite_blind (b : Bool) : TableBlind (execBswWrite b) :=
  .ite (fun _ _ => Iff.rfl) (.raise _ _ (fun _ _ => rfl) fun _ _ => rfl)
    (.ite (g := fun s => .fault (.outsideSpace .wbuf s.bswByte.toNat)) (fun _ _ => Iff.rfl)
      (.next fun s T => congrArg State.detachWbufReader (appendBit_withTables b s T)) fun _ _ => rfl)

theorem execBsrInit_blind (src : Source) : TableBlind (execBsrInit src) := by
  refine .ite (fun _ _ => Iff.rfl) (.raise _ _ (fun _ _ => rfl) fun _ _ => rfl) ?_
  cases src <;>
    exact .ite (fun _ _ => Iff.rfl) (.raise _ _ (fun _ _ => rfl) fun _ _ => rfl) (.next fun _ _ => rfl)

theorem execBsrRead_blind : TableBlind execBsrRead := by
  refine .ite (fun _ _ => Iff.rfl) (.raise _ _ (info := fun _ => 0) (fun _ _ => rfl) fun _ _ => rfl)
    (.ite (fun _ _ => Iff.rfl) (.raise _ _ (fun _ _ => rfl) fun _ _ => rfl) ?_)
  refine .ite (g := fun s => .fault (.outsideSpace (readerSpace s.bsrSrc) s.readerIndex)) (fun _ _ => Iff.rfl)
    (.next fun s T => ?_) fun _ _ => rfl
  rw [advanceReader_withTables]
  rfl

theorem execHufDec_blind : TableBlind execHufDec := by
  refine TableBlind.withInput (fun s T => ?_) _
  rw [show (s.withTables T).input = s.input from rfl]
  cases decodeHead s.input with
  | error c => rfl
  | ok t => exact decodeToObuf_blind _ s.invalidateTables T

theorem execPipeEnc_blind : TableBlind execPipeEnc := by
  refine TableBlind.withGeometry (fun s T => ?_) _
  have h : (s.withTables T).pipeTransformed = s.pipeTransformed.withTables T :=
    transformFrame_withTables _ s.invalidateTables T
  rw [h]
  exact encodeTo_blind _ s.pipeTransformed.dump s.pipeTransformed T

theorem execPipeDec_blind : TableBlind execPipeDec := by
  refine TableBlind.withInput (TableBlind.withGeometry (fun s T => ?_) _) _
  rw [show (s.withTables T).input = s.input from rfl]
  cases decodeHead s.input with
  | error c => rfl
  | ok t => exact decodeToFrame_blind _ s.invalidateTables T

/-- Every command but the two that write the tables. -/
theorem exec_blind {i : Instr} (hreset : i ≠ .reset) (hbuild : i ≠ .hufBuild) : TableBlind (exec i) := by
  cases i with
  | reset => exact absurd rfl hreset
  | hufBuild => exact absurd rfl hbuild
  | bswWrite b => exact execBswWrite_blind b
  | bsrInit src => exact execBsrInit_blind src
  | bsrRead => exact execBsrRead_blind
  | bswInit | dctFwd | dctInv => exact .next fun _ _ => rfl
  | blkLd | blkSt => exact .withGeometry (.withTile (.next fun _ _ => rfl) _) _
  | frmFwd => exact .withGeometry (.next fun s T => transformFrame_withTables (dctForward s.cfg) s T) _
  | frmInv => exact .withGeometry (.next fun s T => transformFrame_withTables (dctInverse s.cfg) s T) _
  | getY | getU | getV => exact .withGeometry (.withPixel (.next fun _ _ => rfl) _) _
  | setY | setU | setV => exact .withGeometry (.withPixel (.withSample (.next fun _ _ => rfl) _) _) _
  | hufEnc => exact .withInput (fun s T => encodeTo_blind _ s.input s.invalidateTables T) _
  | hufDec => exact execHufDec_blind
  | pipeEnc => exact execPipeEnc_blind
  | pipeDec => exact execPipeDec_blind

/-! ### Every action -/

/-- While `HVALID` = 0 a next state that `f` gives is the same whatever the tables hold, or else differs in the tables alone
and leaves `HVALID` 0. -/
def TablesUnseen (f : State → Result) : Prop :=
  ∀ s t T, s.hvalid = false → f s = .next t →
    f (s.withTables T) = .next t ∨ t.hvalid = false ∧ f (s.withTables T) = .next (t.withTables T)

theorem TableBlind.tablesUnseen {f : State → Result} (hf : TableBlind f)
    (hkeep : ∀ s t, s.hvalid = false → f s = .next t → t.hvalid = false) : TablesUnseen f :=
  fun s t T hs h => .inr ⟨hkeep s t hs h, by rw [hf, h]; rfl⟩

/-- An update that is blind to the tables while `HVALID` = 0, and keeps `HVALID`. -/
theorem tablesUnseen_next {u : State → State}
    (hu : ∀ s T, s.hvalid = false → u (s.withTables T) = (u s).withTables T) (hkeep : ∀ s, (u s).hvalid = s.hvalid) :
    TablesUnseen fun s => .next (u s) := fun s t T hs h => by
  obtain rfl := next_inj h
  exact .inr ⟨(hkeep s).trans hs, congrArg Host.Outcome.next (hu s T hs)⟩

theorem tablesUnseen_refused {r : Refusal} : TablesUnseen fun _ => .refused r := fun _ _ _ _ h => by cases h

theorem TablesUnseen.ite {p : State → Prop} [∀ s, Decidable (p s)] {f g : State → Result}
    (hp : ∀ s T, p (s.withTables T) ↔ p s) (hf : TablesUnseen f) (hg : TablesUnseen g) :
    TablesUnseen fun s => if p s then f s else g s := fun s t T hs h => by
  by_cases hps : p s
  · simp only [hps, (hp s T).2 hps, if_true] at h ⊢
    exact hf s t T hs h
  · have hpt : ¬p (s.withTables T) := fun h' => hps ((hp s T).1 h')
    simp only [hps, hpt, if_false] at h ⊢
    exact hg s t T hs h

/-- `HUF_BUILD` writes every table when its checks pass. -/
theorem execHufBuild_tablesUnseen : TablesUnseen execHufBuild := by
  refine .ite (fun _ _ => Iff.rfl) ?_ (.ite (fun _ _ => Iff.rfl) ?_ fun s t T _ h => .inl h)
  all_goals exact tablesUnseen_next (u := fun s => s.recordFault _ _ _) (fun _ _ _ => rfl) fun _ => rfl

theorem exec_tablesUnseen (i : Instr) : TablesUnseen (exec i) := by
  by_cases hreset : i = .reset
  · subst hreset; exact fun s t T _ h => .inl h
  · by_cases hbuild : i = .hufBuild
    · subst hbuild; exact execHufBuild_tablesUnseen
    · refine (exec_blind hreset hbuild).tablesUnseen fun s t hs h => Bool.eq_false_iff.2 fun ht => hbuild ?_
      obtain ⟨-, -, honly, -⟩ := resultRegistersHaveFewWriters i s t hreset h
      exact honly hs ht

theorem issue_tablesUnseen (w : Word) : TablesUnseen (issue w) := by
  refine .ite (fun _ _ => Iff.rfl) (.ite (fun _ _ => Iff.rfl) (exec_tablesUnseen .reset) ?_) ?_
  · exact tablesUnseen_next (u := id) (fun _ _ _ => rfl) fun _ => rfl
  · cases decode w with
    | ok i => exact exec_tablesUnseen i
    | error e => exact tablesUnseen_next (u := fun s => s.recordFault w .illegal 0) (fun _ _ _ => rfl) fun _ => rfl

theorem readReg_withTables {s : State} (hs : s.hvalid = false) (T : Tables) (n : Nat) :
    (s.withTables T).readReg n = s.readReg n := by
  unfold State.readReg
  simp only [show (s.withTables T).hvalid = false from hs, hs, Bool.false_eq_true, if_false]
  rfl

theorem readByteSpace_withTables {s : State} (hs : s.hvalid = false) (T : Tables) (sp : ByteSpace) (i : Nat) :
    (s.withTables T).readByteSpace sp i = s.readByteSpace sp i := by
  cases sp with
  | hlen => simp [State.readByteSpace, State.withTables, hs]
  | _ => rfl

theorem readWordSpace_withTables {s : State} (hs : s.hvalid = false) (T : Tables) (sp : WordSpace) (i : Nat) :
    (s.withTables T).readWordSpace sp i = s.readWordSpace sp i := by
  simp [State.readWordSpace, State.withTables, hs]

theorem deliver_withTables (v : Option Word) (s : State) (T : Tables) :
    (s.withTables T).deliver v = (s.deliver v).withTables T := by cases v <;> rfl

theorem deliverByte_withTables (v : Option Byte) (s : State) (T : Tables) :
    (s.withTables T).deliverByte v = (s.deliverByte v).withTables T := by cases v <;> rfl

theorem deliver_hvalid (v : Option Word) (s : State) : (s.deliver v).hvalid = s.hvalid := by cases v <;> rfl

theorem performAction_tablesUnseen (a : HostAction) : TablesUnseen (performAction a) := by
  cases a with
  | issue w => exact issue_tablesUnseen w
  | readReg n =>
    refine tablesUnseen_next (fun s T hs => ?_) fun s => deliver_hvalid _ s
    rw [readReg_withTables hs, deliver_withTables]
  | writeReg n v =>
    refine tablesUnseen_next (fun s T _ => ?_) fun s => by rw [writeReg_eq]
    rw [writeReg_eq, writeReg_eq]; rfl
  | readByte sp i =>
    refine .ite (fun _ _ => Iff.rfl) (tablesUnseen_next (fun s T hs => ?_) fun s => ?_) tablesUnseen_refused
    · rw [readByteSpace_withTables hs, deliverByte_withTables]
    · rw [deliverByte_eq]
  | writeByte sp i v =>
    refine .ite (fun _ _ => Iff.rfl) ?_ tablesUnseen_refused
    cases sp <;> exact tablesUnseen_next (fun _ _ _ => rfl) fun _ => rfl
  | readWord sp i =>
    refine .ite (p := fun _ => i < sp.size) (fun _ _ => Iff.rfl)
      (tablesUnseen_next (fun s T hs => ?_) fun s => deliver_hvalid _ s) tablesUnseen_refused
    rw [readWordSpace_withTables hs, deliver_withTables]
  | writeWord sp i v =>
    exact .ite (p := fun _ => i < sp.size) (fun _ _ => Iff.rfl)
      (tablesUnseen_next (u := id) (fun _ _ _ => rfl) fun _ => rfl) tablesUnseen_refused
  | powerOn => exact fun s t T _ h => .inl h

theorem hostStep_tablesUnseen (a : HostAction) : TablesUnseen (hostStep a) :=
  .ite (fun _ _ => Iff.rfl) tablesUnseen_refused (performAction_tablesUnseen a)

/-- Settles O57: no action sees the tables while `HVALID` = 0, and only what writes all of them sets it. -/
theorem invalidTablesAreUnobservable : Obligations.InvalidTablesAreUnobservable := by
  intro a s t hw hl hn n hs h
  obtain hsame | ⟨ht, hdiff⟩ := hostStep_tablesUnseen a s t ⟨hw, hl, hn, n⟩ hs h
  · exact ⟨t, hsame, rfl, fun _ => rfl⟩
  · exact ⟨_, hdiff, rfl, fun htrue => Bool.noConfusion (ht.symm.trans htrue)⟩

end Sys2Proof.Machine
end

section
/-! PROOFS. The addresses of a frame's samples (20_memory.md R66 to R69). -/

namespace Sys2Proof.Machine

/-- Every position of every group is a pixel of the frame (20_memory.md R67). -/
theorem exists_pixel {w h g r : Nat} (hg : g < groupCount w h) (hr : r < 4) :
    ∃ x y, x < w ∧ y < h ∧ groupIndex w x y = g ∧ subPixel x y = r := by
  have hg' : g < h / 2 * (w / 2) := Nat.mul_comm .. ▸ hg
  have hcol : g % (w / 2) < w / 2 := Nat.mod_lt _ (Nat.pos_of_mul_pos_left (Nat.zero_lt_of_lt hg'))
  have hrow : g / (w / 2) < h / 2 := Nat.div_lt_of_lt_mul (Nat.mul_comm .. ▸ hg')
  have hx : (2 * (g % (w / 2)) + r % 2) / 2 = g % (w / 2) := by omega
  have hy : (2 * (g / (w / 2)) + r / 2) / 2 = g / (w / 2) := by omega
  refine ⟨2 * (g % (w / 2)) + r % 2, 2 * (g / (w / 2)) + r / 2, by omega, by omega, ?_, ?_⟩
  · rw [groupIndex, hx, hy, Nat.div_add_mod']
  · rw [subPixel]
    omega

/-- Every byte of the frame is a sample (20_memory.md R69). -/
theorem exists_sample_of_lt_frameLength {w h a : Nat} (ha : a < frameLength w h) :
    ∃ x y, x < w ∧ y < h ∧ (a = yaddr w x y ∨ a = uaddr w h x y ∨ a = vaddr w h x y) := by
  rw [frameLength] at ha
  simp only [yaddr, uaddr, vaddr]
  by_cases hluma : a < 4 * groupCount w h
  · obtain ⟨x, y, hx, hy, hg, hr⟩ := exists_pixel (w := w) (h := h) (g := a / 4) (r := a % 4) (by omega) (by omega)
    exact ⟨x, y, hx, hy, .inl (by omega)⟩
  by_cases hcb : a < 5 * groupCount w h
  · obtain ⟨x, y, hx, hy, hg, -⟩ := exists_pixel (w := w) (h := h) (g := a - 4 * groupCount w h) (r := 0)
      (by omega) (by omega)
    exact ⟨x, y, hx, hy, .inr (.inl (by omega))⟩
  · obtain ⟨x, y, hx, hy, hg, -⟩ := exists_pixel (w := w) (h := h) (g := a - 5 * groupCount w h) (r := 0)
      (by omega) (by omega)
    exact ⟨x, y, hx, hy, .inr (.inr (by omega))⟩

/-- Settles O33: the plane addresses are a group index, injective and below the number of groups, moved to the plane's
region. -/
theorem frameAddressesPartition : Obligations.FrameAddressesPartition := by
  intro w h hw hh
  refine ⟨fun x y hx hy => ?_, fun x y x' y' hx _ hx' _ => ⟨yaddr_inj hw hx hx', fun hu => ?_, fun hv => ?_⟩,
    fun a => exists_sample_of_lt_frameLength⟩
  · have hg := groupIndex_lt hw hh hx hy
    refine ⟨yaddr_lt hw hh hx hy, Nat.le_add_right _ _, ?_, Nat.le_add_right _ _, vaddr_lt_frameLength hw hh hx hy⟩
    rw [uaddr]
    omega
  · exact groupIndex_inj hw hx hx' (Nat.add_left_cancel hu)
  · exact groupIndex_inj hw hx hx' (Nat.add_left_cancel hv)

end Sys2Proof.Machine
end

section
/-! PROOFS. Which memories a command may write (20_memory.md R60, R64). -/

namespace Sys2Proof.Machine

/-! ### What an update of `FRAME` keeps beyond `FLEN` -/

/-- `FRAME` at and beyond `FLEN` of `s` is in `t` as it was (20_memory.md R64). -/
def FrameTailKept (s t : State) : Prop := ∀ a, s.flen ≤ a → SameAt t.frame s.frame a

section
variable {s : State} (g : GeometryOk s)
include g

/-- A whole tile lies inside the frame. -/
theorem tileAddr_lt_flen {tx ty k : Nat} (hx : tx < s.tilesWide) (hy : ty < s.tilesHigh) (hk : k < 64) :
    tileAddr s.frameW tx ty k < s.flen := by
  obtain ⟨hw, hh, -⟩ := g
  rw [State.tilesWide] at hx
  rw [State.tilesHigh] at hy
  exact yaddr_lt_frameLength hw hh (by omega) (by omega)

theorem frameTailKept_scatterTile {tx ty : Nat} (hx : tx < s.tilesWide) (hy : ty < s.tilesHigh) (b : Block) :
    FrameTailKept s (s.scatterTile tx ty b) := fun _ ha =>
  sameAt_scatterElements _ _ _ _ _ _ fun _ hk =>
    (Nat.lt_of_lt_of_le (tileAddr_lt_flen g hx hy (List.mem_range.1 hk)) ha).ne'

theorem frameTailKept_transformFrame (f : Block → Block) : FrameTailKept s (s.transformFrame f) := fun _ ha =>
  sameAt_foldTiles f _ s fun _ ht _ hk => by
    obtain ⟨hx, hy⟩ := mem_tileOrder.1 ht
    exact (Nat.lt_of_lt_of_le (tileAddr_lt_flen g hx hy hk) ha).ne'

theorem frameTailKept_loadFrame {bytes : List Byte} (hlen : bytes.length = s.flen) :
    FrameTailKept s (s.loadFrame bytes) := fun a ha =>
  (frameTailKept_transformFrame (s := { s with frame := s.frame.writeList 0 bytes }) g _ a ha).trans
    (sameAt_writeList _ _ (by omega))

end

theorem frameTailKept_setFrameByte {s : State} {i : Nat} (hi : i < s.flen) (v : Byte) :
    FrameTailKept s (s.setFrameByte i v) := fun _ ha => sameAt_write _ v (Nat.lt_of_lt_of_le hi ha).ne'

theorem frameTailKept_frameUnspecified (s : State) : FrameTailKept s s.frameUnspecified := fun _ ha =>
  sameAt_havoc _ _ _ fun h => Nat.not_lt.2 ha h.2

/-! ### The memories a command may write -/

/-- The commands that write `FRAME` (20_memory.md R60). -/
abbrev frameWriters : List Instr := [.setY, .setU, .setV, .blkSt, .frmFwd, .frmInv, .pipeEnc, .pipeDec]

/-- The commands that write `BLK` (20_memory.md R60). -/
abbrev blockWriters : List Instr := [.blkLd, .dctFwd, .dctInv, .frmFwd, .frmInv, .pipeEnc, .pipeDec, .reset]

/-- The storage of the tables and `HNBITS` is in `t` as in `s`. -/
def TablesKept (s t : State) : Prop :=
  t.hweight = s.hweight ∧ t.hlink = s.hlink ∧ t.hlen = s.hlen ∧ t.hnbits = s.hnbits

/-- How a command may change the memories other than `IBUF`: each as it was, or the command one of its writers. -/
structure MemoryChange (i : Instr) (s t : State) : Prop where
  obuf : t.obuf = s.obuf ∨ i ∈ [.hufEnc, .hufDec, .pipeEnc]
  wbuf : t.wbuf = s.wbuf ∨ i = .bswInit ∨ (∃ b, i = .bswWrite b) ∨ i = .reset
  frame : t.frame = s.frame ∨ i ∈ frameWriters ∧ FrameTailKept s t
  blk : t.blk = s.blk ∨ i ∈ blockWriters
  tables : TablesKept s t ∨ i ∈ [.hufBuild, .reset]

theorem MemoryChange.frameTailKept {i : Instr} {s t : State} (h : MemoryChange i s t) : FrameTailKept s t := by
  obtain hsame | ⟨-, htail⟩ := h.frame
  · exact fun a _ => hsame ▸ SameAt.refl _ a
  · exact htail

theorem Effect.memoryChange {i : Instr} {s t : State} (h : Effect i s t) : MemoryChange i s t := by
  have htables : TablesKept s s := ⟨rfl, rfl, rfl, rfl⟩
  cases h with
  | fault | bsrInit | get | encFault => exact ⟨.inl rfl, .inl rfl, .inl rfl, .inl rfl, .inl htables⟩
  | bsrRead => rw [advanceReader_fields]; exact ⟨.inl rfl, .inl rfl, .inl rfl, .inl rfl, .inl htables⟩
  | reset h => exact ⟨.inl rfl, .inr (.inr (.inr h)), .inl rfl, .inr (by simp [h]), .inr (by simp [h])⟩
  | bswInit h => exact ⟨.inl rfl, .inr (.inl h), .inl rfl, .inl rfl, .inl htables⟩
  | bswWrite b h =>
    rw [appendBit_fields]
    exact ⟨.inl rfl, .inr (.inr (.inl ⟨b, h⟩)), .inl rfl, .inl rfl, .inl htables⟩
  | blk h =>
    have hi : i ∈ blockWriters := (by decide : ∀ j ∈ [.blkLd, .dctFwd, .dctInv], j ∈ blockWriters) i h
    exact ⟨.inl rfl, .inl rfl, .inl rfl, .inr hi, .inl htables⟩
  | blkSt h g p =>
    exact ⟨.inl rfl, .inl rfl, .inr ⟨by simp [h], frameTailKept_scatterTile g p.1 p.2 _⟩, .inl rfl, .inl htables⟩
  | frm h g f =>
    have hi : i ∈ frameWriters ∧ i ∈ blockWriters :=
      (by decide : ∀ j ∈ [.frmFwd, .frmInv], j ∈ frameWriters ∧ j ∈ blockWriters) i h
    have htail := frameTailKept_transformFrame g f
    rw [transformFrame_eq] at htail ⊢
    exact ⟨.inl rfl, .inl rfl, .inr ⟨hi.1, htail⟩, .inr hi.2, .inl htables⟩
  | set h a b ha =>
    have hi : i ∈ frameWriters := (by decide : ∀ j ∈ [.setY, .setU, .setV], j ∈ frameWriters) i h
    exact ⟨.inl rfl, .inl rfl, .inr ⟨hi, frameTailKept_setFrameByte ha b⟩, .inl rfl, .inl htables⟩
  | build h => exact ⟨.inl rfl, .inl rfl, .inl rfl, .inl rfl, .inr (by simp [h])⟩
  | enc h => exact ⟨.inr (by obtain rfl | rfl := h <;> simp), .inl rfl, .inl rfl, .inl rfl, .inl htables⟩
  | decFault h => exact ⟨.inr (by simp [h]), .inl rfl, .inl rfl, .inl rfl, .inl htables⟩
  | pipeEnc h g | pipeEncFault h g =>
    have htail : FrameTailKept s s.pipeTransformed := frameTailKept_transformFrame (s := s.invalidateTables) g _
    rw [pipeTransformed_fields] at htail ⊢
    exact ⟨.inr (by simp [h]), .inl rfl, .inr ⟨by simp [h], htail⟩, .inr (by simp [h]), .inl htables⟩
  | pipeDecFault h =>
    have htail := frameTailKept_frameUnspecified s.invalidateTables
    exact ⟨.inl rfl, .inl rfl, .inr ⟨by simp [h], htail⟩, .inl rfl, .inl htables⟩
  | pipeDec h g d hd =>
    have htail : FrameTailKept s (s.invalidateTables.loadFrame d) :=
      frameTailKept_loadFrame (s := s.invalidateTables) g hd
    rw [loadFrame_fields] at htail ⊢
    exact ⟨.inl rfl, .inl rfl, .inr ⟨by simp [h], htail⟩, .inr (by simp [h]), .inl htables⟩

/-- Settles O56: each clause is read off what `MemoryChange` allows. -/
theorem commandsWriteOnlyTheirMemories : Obligations.CommandsWriteOnlyTheirMemories := by
  intro i s t h
  have hchange := (exec_effect h).memoryChange
  refine ⟨hchange.obuf.resolve_right, fun hinit hwrite hreset => hchange.wbuf.resolve_right ?_,
    fun hi => hchange.frame.resolve_right fun hw => hi hw.1, hchange.frameTailKept, hchange.blk.resolve_right,
    hchange.tables.resolve_right⟩
  rintro (hi | ⟨b, hi⟩ | hi)
  · exact hinit hi
  · exact hwrite b hi
  · exact hreset hi

end Sys2Proof.Machine
end

section
/-! PROOFS. Which host action a step takes, and which a busy block refuses (20_memory.md R77, 60_exceptions.md R271,
70_reset_and_hazards.md R301). -/

namespace Sys2Proof.Machine

theorem step_of_inbox_nil {s : State} (h : s.inbox = []) : step s = .next s := by rw [step, h]

theorem step_of_inbox_cons {s : State} {a : HostAction} {rest : List HostAction} (h : s.inbox = a :: rest) :
    step s = hostStep a { s with inbox := rest } := by rw [step, h]

/-- What a busy block performs (70_reset_and_hazards.md R301; `powerOn` is the platform's, log entry 10). -/
theorem allowedWhileBusy_iff (a : HostAction) : allowedWhileBusy a = true ↔ a = .readReg 0 ∨ a = .powerOn := by
  cases a <;> simp [allowedWhileBusy]

theorem hostStep_refuses_while_busy {s : State} {a : HostAction} (hb : s.busy = true) (ha : allowedWhileBusy a = false) :
    hostStep a s = .refused .hostWhileBusy := by
  rw [hostStep, hb, ha]
  rfl

/-- Settles O6: the two forms of the queue, and the guard of `hostStep`. -/
theorem stepTakesOldestHostAction : Obligations.StepTakesOldestHostAction := by
  refine ⟨fun s => step_of_inbox_nil, fun s a rest => step_of_inbox_cons, fun s a hb hread hpower => ?_⟩
  have hdenied : ¬allowedWhileBusy a = true := by simp [allowedWhileBusy_iff, hread, hpower]
  exact hostStep_refuses_while_busy hb (Bool.eq_false_of_not_eq_true hdenied)

end Sys2Proof.Machine
end

section
/-! PROOFS. The decoder and the encoder of command words are inverse, and both follow the opcode map
(30_encoding.md R91 to R94). -/

namespace Sys2Proof

/-! ### A decoded word is the command's word -/

/-- A word is its three fields (30_encoding.md R91). -/
theorem fields_append (w : Word) : opcodeField w ++ (zeroField w ++ BitVec.ofBool (bitField w)) = w := by
  refine BitVec.eq_of_getLsbD_eq fun k hk => ?_
  simp only [opcodeField, zeroField, bitField, BitVec.getLsbD_append, BitVec.getLsbD_extractLsb', BitVec.getLsbD_ofBool]
  obtain rfl | hlow | hhigh : k = 0 ∨ 1 ≤ k ∧ k < 24 ∨ 24 ≤ k := by omega
  · simp
  · simp [show k < 24 by omega, show ¬k < 1 by omega, show 1 + (k - 1) = k by omega, show k - 1 < 23 by omega]
  · simp [show ¬k < 24 by omega, show 24 + (k - 24) = k by omega, show k - 24 < 8 by omega]

theorem encode_eq_of_fields {w : Word} {i : Instr} (hop : opcodeField w = i.opcode) (hzero : zeroField w = 0#23)
    (hbit : bitField w = i.operandBit) : encode i = w := by
  rw [← fields_append w, hop, hzero, hbit, encode]

theorem encode_eq_of_formatZ {w : Word} {i j : Instr} (h : formatZ w i = .ok j)
    (hop : (opcodeField w).toNat = i.opcode.toNat) (hi : i.operandBit = false) : encode j = w := by
  rw [formatZ] at h
  split at h
  case isTrue hw =>
    obtain rfl := Except.ok.inj h
    exact encode_eq_of_fields (BitVec.eq_of_toNat_eq hop) hw.1 (hw.2.trans hi.symm)
  case isFalse => cases h

theorem encode_eq_of_formatBit {w : Word} {f : Bool → Instr} {j : Instr} (h : formatBit w f = .ok j)
    (hop : ∀ b, (opcodeField w).toNat = (f b).opcode.toNat) (hf : ∀ b, (f b).operandBit = b) : encode j = w := by
  rw [formatBit] at h
  split at h
  case isTrue hw =>
    obtain rfl := Except.ok.inj h
    exact encode_eq_of_fields (BitVec.eq_of_toNat_eq (hop _)) hw (hf _).symm
  case isFalse => cases h

@[simp] theorem Source.toBit_ofBit (b : Bool) : (Source.ofBit b).toBit = b := by cases b <;> rfl

theorem encode_eq_of_decode {w : Word} {i : Instr} (h : decode w = .ok i) : encode i = w := by
  unfold decode at h
  split at h
  case h_3 hop => exact encode_eq_of_formatBit h (fun _ => hop) fun _ => rfl
  case h_4 hop => exact encode_eq_of_formatBit h (fun _ => hop) Source.toBit_ofBit
  case h_23 => cases h
  all_goals next hop => exact encode_eq_of_formatZ h hop rfl

/-- Settles O2: the word's three fields are those of the command it decodes to, and every command's word decodes to it. -/
theorem decodeInvertsEncode : Obligations.DecodeInvertsEncode := fun _ i =>
  ⟨encode_eq_of_decode, fun h => h ▸ Machine.decode_encode_eq i⟩

/-! ### The row of a command -/

/-- The row of the opcode map that a command's word selects (30_encoding.md R92). -/
def Instr.row (i : Instr) : OpcodeRow :=
  match i with
  | .bswWrite _ | .bsrInit _ => .bit0 i.mnemonic (i.opcode ++ 0#24)
  | _ => .z i.mnemonic (i.opcode ++ 0#24)

/-- The command's immediate, where it has one, is the bit (30_encoding.md R93). -/
def Instr.immediateIs (i : Instr) (bit : Bool) : Bool :=
  match i with
  | .bswWrite b => b == bit
  | .bsrInit src => src.toBit == bit
  | _ => true

theorem immediateIs_iff (i : Instr) (bit : Bool) : i.immediateIs bit = true ↔
    (∀ b, i = .bswWrite b → b = bit) ∧ ∀ src, i = .bsrInit src → src = if bit then .wbuf else .ibuf := by
  cases i with
  | bswWrite b => simp [Instr.immediateIs]
  | bsrInit src => cases src <;> cases bit <;> simp [Instr.immediateIs, Source.toBit]
  | _ => simp [Instr.immediateIs]

theorem row_mem_opcodeMap (i : Instr) : i.row ∈ opcodeMap := by
  cases i with
  | bswWrite b => exact (by decide : (Instr.bswWrite false).row ∈ opcodeMap)
  | bsrInit src => exact (by decide : (Instr.bsrInit .ibuf).row ∈ opcodeMap)
  | _ => decide

@[simp] theorem mnemonic_row (i : Instr) : i.row.mnemonic = i.mnemonic := by
  cases i <;> rfl

/-- No two rows have the same mnemonic. -/
theorem nodup_mnemonics : (opcodeMap.map (·.mnemonic)).Nodup := by decide

theorem eq_row_of_mnemonic_eq {r : OpcodeRow} {i : Instr} (hr : r ∈ opcodeMap) (h : r.mnemonic = i.mnemonic) :
    r = i.row :=
  List.inj_on_of_nodup_map nodup_mnemonics hr (row_mem_opcodeMap i) (h.trans (mnemonic_row i).symm)

/-- The operand bit of a word stands beside the row's pattern. -/
theorem getLsbD_opcode_append (op : BitVec 8) (b : Bool) (k : Nat) :
    (op ++ (0#23 ++ BitVec.ofBool b)).getLsbD k = if k = 0 then b else (op ++ 0#24).getLsbD k := by
  simp only [BitVec.getLsbD_append, BitVec.getLsbD_ofBool, BitVec.getLsbD_zero]
  by_cases hk : k = 0
  · simp [hk]
  · simp [hk, show ¬k < 1 by omega]

/-- A pattern that has no bit outside its mask is matched bit by bit (30_encoding.md R92). -/
theorem and_mask_eq_iff {w mask pattern : Word} (hp : pattern &&& mask = pattern) :
    w &&& mask = pattern ↔ ∀ k, k < 32 → mask.getLsbD k = true → w.getLsbD k = pattern.getLsbD k := by
  constructor
  · rintro rfl k - hk
    simp [hk]
  · intro h
    rw [← hp]
    refine BitVec.eq_of_getLsbD_eq fun k hk => ?_
    rw [BitVec.getLsbD_and, BitVec.getLsbD_and]
    cases hm : mask.getLsbD k
    · simp
    · simp [h k hk hm]

theorem getLsbD_bit0_mask : ∀ k, k < 32 → (0xFFFFFFFE#32).getLsbD k = decide (k ≠ 0) := by decide

theorem opcode_append_and_mask (op : BitVec 8) : (op ++ 0#24) &&& 0xFFFFFFFE#32 = op ++ 0#24 := by
  revert op; decide

/-- A word is the row's pattern beside the operand exactly when it selects the row and has the operand as its bit 0. -/
theorem opcode_append_eq_iff (op : BitVec 8) (b : Bool) (w : Word) :
    op ++ (0#23 ++ BitVec.ofBool b) = w ↔ w &&& 0xFFFFFFFE#32 = op ++ 0#24 ∧ b = w.getLsbD 0 := by
  rw [and_mask_eq_iff (opcode_append_and_mask op)]
  constructor
  · rintro rfl
    refine ⟨fun k hk hm => ?_, by rw [getLsbD_opcode_append, if_pos rfl]⟩
    have h0 : k ≠ 0 := by simpa [getLsbD_bit0_mask k hk] using hm
    rw [getLsbD_opcode_append, if_neg h0]
  · rintro ⟨hw, rfl⟩
    refine BitVec.eq_of_getLsbD_eq fun k hk => ?_
    rw [getLsbD_opcode_append]
    split
    case isTrue h0 => rw [h0]
    case isFalse h0 => exact (hw k hk (by simpa [getLsbD_bit0_mask k hk] using h0)).symm

/-- A command's word is the one that selects its row and has its immediate in bit 0. -/
theorem encode_eq_iff_row {i : Instr} {w : Word} :
    encode i = w ↔ w &&& i.row.mask = i.row.pattern ∧ i.immediateIs (w.getLsbD 0) := by
  cases i with
  | bswWrite b =>
    rw [encode, Instr.operandBit, opcode_append_eq_iff]
    simp [Instr.immediateIs, Instr.row, OpcodeRow.bit0]
  | bsrInit src =>
    rw [encode, Instr.operandBit, opcode_append_eq_iff]
    simp [Instr.immediateIs, Instr.row, OpcodeRow.bit0]
  | _ =>
    have hmask : w &&& 0xFFFFFFFF#32 = w := BitVec.and_allOnes
    simp only [Instr.immediateIs, Instr.row, OpcodeRow.z, hmask, and_true]
    exact eq_comm

/-- Settles O3: the one row with the command's mnemonic is the command's row, and its word is the one that selects it with
its immediate in bit 0. -/
theorem decodeFollowsOpcodeMap : Obligations.DecodeFollowsOpcodeMap := fun w i => by
  rw [decodeInvertsEncode w i, encode_eq_iff_row, immediateIs_iff]
  constructor
  · rintro ⟨hw, himm⟩
    exact ⟨i.row, row_mem_opcodeMap i, mnemonic_row i, hw, himm⟩
  · rintro ⟨r, hr, hm, hw, himm⟩
    obtain rfl := eq_row_of_mnemonic_eq hr hm
    exact ⟨hw, himm⟩

/-! ### The legal words -/

/-- Every command, one element for each row and operand of the opcode map (30_encoding.md R92). -/
def commands : List Instr :=
  [.reset, .bswInit, .bswWrite false, .bswWrite true, .bsrInit .ibuf, .bsrInit .wbuf, .bsrRead, .blkLd, .blkSt, .dctFwd,
    .dctInv, .frmFwd, .frmInv, .getY, .getU, .getV, .setY, .setU, .setV, .hufBuild, .hufEnc, .hufDec, .pipeEnc, .pipeDec]

theorem mem_commands (i : Instr) : i ∈ commands := by
  cases i with
  | bswWrite b => cases b <;> decide
  | bsrInit src => cases src <;> decide
  | _ => decide

theorem mem_map_encode_iff (w : Word) : w ∈ commands.map encode ↔ ∃ i, decode w = .ok i := by
  simp only [List.mem_map, mem_commands, true_and, decodeInvertsEncode w]

/-- Every row of the opcode map is a command's, for each operand. -/
theorem exists_row_eq : ∀ r ∈ opcodeMap, ∀ bit : Bool, ∃ i ∈ commands, i.row = r ∧ i.immediateIs bit := by decide

/-- A word is legal exactly when it selects a row (30_encoding.md R94). -/
theorem exists_decode_iff_selects (w : Word) : (∃ i, decode w = .ok i) ↔ ∃ r ∈ opcodeMap, w &&& r.mask = r.pattern := by
  simp only [decodeInvertsEncode w, encode_eq_iff_row]
  constructor
  · rintro ⟨i, hw, -⟩
    exact ⟨i.row, row_mem_opcodeMap i, hw⟩
  · rintro ⟨r, hr, hw⟩
    obtain ⟨i, -, rfl, himm⟩ := exists_row_eq r hr (w.getLsbD 0)
    exact ⟨i, hw, himm⟩

theorem pattern_and_mask : ∀ r ∈ opcodeMap, r.pattern &&& r.mask = r.pattern := by decide

theorem opcodeField_mask : ∀ r ∈ opcodeMap, opcodeField r.mask = BitVec.allOnes 8 := by decide

/-- The opcode is among the fixed bits of every row. -/
theorem opcodeField_eq_of_selects {w : Word} {r : OpcodeRow} (hr : r ∈ opcodeMap) (h : w &&& r.mask = r.pattern) :
    opcodeField w = opcodeField r.pattern := by
  rw [← h, opcodeField, opcodeField, BitVec.extractLsb'_and, ← opcodeField, ← opcodeField, opcodeField_mask r hr,
    BitVec.and_allOnes]

theorem exists_decode_iff_fields (w : Word) : (∃ i, decode w = .ok i) ↔
    ∃ r ∈ opcodeMap, opcodeField w = opcodeField r.pattern ∧ ∀ k, k < 32 → r.mask.getLsbD k = true →
      w.getLsbD k = r.pattern.getLsbD k := by
  rw [exists_decode_iff_selects]
  refine exists_congr fun r => and_congr_right fun hr => ?_
  rw [← and_mask_eq_iff (pattern_and_mask r hr)]
  exact ⟨fun h => ⟨opcodeField_eq_of_selects hr h, h⟩, And.right⟩

theorem ne_ok_of_decode_error {w : Word} {e : DecodeError} (h : decode w = .error e) (i : Instr) : decode w ≠ .ok i := by
  simp [h]

/-- An illegal word issued to a block that is not faulted raises `ERR_ILLEGAL` (60_exceptions.md R262). -/
theorem issue_illegal {w : Word} {s : Machine.State} (h : ∀ i, decode w ≠ .ok i) (hs : s.fault = false) :
    Machine.issue w s = .next (s.afterFault w 1#4 0) := by
  rw [Machine.issue, hs]
  cases hd : decode w with
  | ok i => exact absurd hd (h i)
  | error e => rfl

/-- Settles O4: the legal words are the 24 words of `commands`, and they are the words that select a row. -/
theorem illegalWordsFault : Obligations.IllegalWordsFault := by
  have hzeros : decode 0x00000000#32 = .error (.unassignedOpcode 0x00#8) := by decide
  have hones : decode 0xFFFFFFFF#32 = .error (.unassignedOpcode 0xFF#8) := by decide
  exact ⟨⟨commands.map encode, rfl, by decide, mem_map_encode_iff⟩, exists_decode_iff_fields, fun w s => issue_illegal,
    ne_ok_of_decode_error hzeros, ne_ok_of_decode_error hones⟩

/-- Settles O1: the decoder evaluates on each of the ten words. -/
theorem decodesSpecWords : Obligations.DecodesSpecWords := by
  unfold Obligations.DecodesSpecWords
  decide

end Sys2Proof
end

section
/-! PROOFS. A step that issues a legal word runs its command (30_encoding.md R90, 20_memory.md R77). -/

namespace Sys2Proof.Machine

theorem step_issue {s : State} {w : Word} {i : Instr} {rest : List HostAction} (hb : s.busy = false)
    (hf : s.fault = false) (hd : decode w = .ok i) (hi : s.inbox = .issue w :: rest) :
    step s = exec i { s with inbox := rest } := by
  obtain rfl := encode_eq_of_decode hd
  rw [step_of_inbox_cons hi]
  exact hostStep_cmdLine (s := { s with inbox := rest }) hb hf i

/-- Settles O5: a word that decodes to a command is that command's word, which a script line issues. -/
theorem stepRunsDecodedCommand : Obligations.StepRunsDecodedCommand := by
  refine ⟨fun s w i rest => step_issue, fun s w i hf hd hw => ?_⟩
  have hinbox : (s.withFetchWord 32 w).inbox = .issue (BitVec.ofNat 32 w) :: s.inbox := by
    rw [State.withFetchWord, Nat.mod_eq_of_lt hw]
  exact step_issue (s := s.withFetchWord 32 w) rfl hf hd hinbox

end Sys2Proof.Machine
end

section
/-! PROOFS. The layout of a payload (30_encoding.md R100 to R105, 43_huffman.md R216). -/

namespace Sys2Proof.Machine

theorem take_length_unpack_pack (bits : List Bool) : (unpack (pack bits)).take bits.length = bits := by
  simpa using take_unpack_pack bits []

/-- Bits of a packing beyond the packed list are 0 (00_scope.md R11). -/
theorem eq_false_of_getElem?_unpack_pack {bits : List Bool} {k : Nat} {b : Bool} (hk : bits.length ≤ k)
    (h : (unpack (pack bits))[k]? = some b) : b = false := by
  have hlt : k < 8 * ((bits.length + 7) / 8) := by simpa using (List.getElem?_eq_some_iff.1 h).1
  rw [getElem?_unpack_pack bits hlt, List.getD_eq_default _ _ hk] at h
  exact (Option.some.inj h).symm

/-! ### The regions of a payload, each at its offset -/

theorem length_pack_shape_buildTree (d : List Byte) : (pack (shape (buildTree d))).length = 64 := by
  rw [length_pack, length_shape_buildTree]

theorem take_huffEncode (d : List Byte) : (huffEncode d).take 4 = be32 (dataBitCount (buildTree d) d) := by
  rw [huffEncode, List.append_assoc, List.append_assoc, List.take_left' (length_be32 _)]

theorem drop_four_huffEncode (d : List Byte) : (huffEncode d).drop 4 =
    leaves (buildTree d) ++ (pack (shape (buildTree d)) ++ pack (dataBits (buildTree d) d)) := by
  rw [huffEncode, List.append_assoc, List.append_assoc, List.drop_left' (length_be32 _)]

theorem drop_260_huffEncode (d : List Byte) :
    (huffEncode d).drop 260 = pack (shape (buildTree d)) ++ pack (dataBits (buildTree d) d) := by
  rw [show 260 = 4 + 256 from rfl, ← List.drop_drop, drop_four_huffEncode, List.drop_left' (length_leaves_buildTree d)]

theorem drop_324_huffEncode (d : List Byte) : (huffEncode d).drop 324 = pack (dataBits (buildTree d) d) := by
  rw [show 324 = 260 + 64 from rfl, ← List.drop_drop, drop_260_huffEncode,
    List.drop_left' (length_pack_shape_buildTree d)]

theorem describes_huffEncode (d : List Byte) : Describes (huffEncode d) (buildTree d) := by
  have hshape := take_length_unpack_pack (shape (buildTree d))
  rw [length_shape_buildTree] at hshape
  rw [Describes, drop_260_huffEncode, drop_four_huffEncode, List.take_left' (length_pack_shape_buildTree d),
    List.take_left' (length_leaves_buildTree d)]
  exact ⟨hshape.symm, rfl⟩

theorem declaredCount_huffEncode {d : List Byte} (h : dataBitCount (buildTree d) d < 2 ^ 32) :
    unbe32 ((huffEncode d).take 4) = dataBitCount (buildTree d) d := by
  rw [take_huffEncode, unbe32_be32 h]

theorem payloadBits_huffEncode {d : List Byte} (h : dataBitCount (buildTree d) d < 2 ^ 32) :
    payloadBits (huffEncode d) = dataBits (buildTree d) d := by
  have hdata := take_length_unpack_pack (dataBits (buildTree d) d)
  rw [length_dataBits] at hdata
  rw [payloadBits, declaredCount_huffEncode h, drop_324_huffEncode, hdata]

/-- The bit after the 511 tree-shape bits is 0 (30_encoding.md R103). -/
theorem shape_padding_huffEncode (d : List Byte) : (unpack ((huffEncode d).drop 260))[511]? = some false := by
  have hshape := length_shape_buildTree d
  rw [drop_260_huffEncode, unpack_append,
    List.getElem?_append_left (by rw [length_unpack, length_pack_shape_buildTree]; decide),
    getElem?_unpack_pack _ (by rw [hshape]; decide), List.getD_eq_default _ _ hshape.le]

theorem data_padding_huffEncode (d : List Byte) {k : Nat} {b : Bool} (hk : dataBitCount (buildTree d) d ≤ k)
    (h : (unpack ((huffEncode d).drop 324))[k]? = some b) : b = false := by
  rw [drop_324_huffEncode] at h
  exact eq_false_of_getElem?_unpack_pack (by rwa [length_dataBits]) h

/-- Settles O43: the payload is its regions one after another, and each has a fixed length but the last. -/
theorem payloadLayout : Obligations.PayloadLayout := fun d h =>
  ⟨length_huffEncode d, declaredCount_huffEncode h, describes_huffEncode d, length_shape_buildTree d,
    (count_shape _).trans (length_leaves_buildTree d), length_leaves_buildTree d, payloadBits_huffEncode h,
    length_dataBits _ d, shape_padding_huffEncode d, fun _ _ => data_padding_huffEncode d⟩

end Sys2Proof.Machine
end

section
/-! PROOFS. The four commands of the bit-stream unit, each with its faults and its frame, the commands that leave the unit
alone, and the bit round trip (40_bitstream.md R121 to R127). -/

namespace Sys2Proof.Machine

/-! ### Bits and pointers -/

/-- Stream bit `k` of a byte as a digit of the byte's number (00_scope.md R10). -/
theorem toNat_streamBit (b : Byte) (k : Nat) : (streamBit b k).toNat = b.toNat / 2 ^ (7 - k) % 2 :=
  Nat.toNat_testBit b.toNat (7 - k)

/-- A bit zero-extended to a register (10_state.md R24). -/
def bitWord (b : Bool) : Word := (BitVec.ofBool b).setWidth 32

theorem bitWord_eq_ite (b : Bool) : bitWord b = if b then 1#32 else 0#32 := by cases b <;> rfl

theorem toNat_bitWord (b : Bool) : (bitWord b).toNat = b.toNat := by cases b <;> rfl

/-- A pointer that has room moves on by one. -/
theorem toNat_add_one_of_lt {n : Nat} {x : BitVec n} (h : x.toNat + 1 < 2 ^ n) : (x + 1#n).toNat = x.toNat + 1 := by
  have hone : (1#n).toNat = 1 := Nat.mod_eq_of_lt (by omega)
  rw [BitVec.toNat_add_of_lt (by rwa [hone]), hone]

/-- A bit pointer that is not below the last bit of its byte stands on it. -/
theorem bitPointer_eq_seven {x : BitVec 3} (h : ¬x.toNat < 7) : x.toNat = 7 := by
  have hlt : x.toNat < 8 := x.isLt
  omega

/-! ### The writer -/

/-- After a command of the writer a reader is attached when it was and is not a reader of `WBUF` (40_bitstream.md R124). -/
theorem detachWbufReader_bsrValid_iff (s : State) :
    s.detachWbufReader.bsrValid = true ↔ s.bsrValid = true ∧ s.bsrSrc = .ibuf := by
  rw [State.detachWbufReader_bsrValid, Bool.and_eq_true]
  cases s.bsrSrc <;> simp

/-- Settles O13: the fields of `freshWriter`, and that only `WBUF[0]` is written and populated. -/
theorem bswInitStartsFreshStream : Obligations.BswInitStartsFreshStream := by
  refine ⟨rfl, fun s => ⟨s.freshWriter.detachWbufReader, rfl, rfl, detachWbufReader_bsrValid_iff _,
    holdsAt_write s.wbuf 0 _, fun a ha => sameAt_write s.wbuf _ ha, rfl, rfl, fun a ha => ?_⟩⟩
  have hbeyond : ¬a < s.freshWriter.detachWbufReader.bswByte.toNat + 1 := Nat.not_lt.2 ha
  exact if_neg hbeyond

theorem writerFull_iff (s : State) :
    s.writerFull = true ↔ s.bswBit.toNat = 7 ∧ s.cfg.wbufCap < s.bswByte.toNat + 2 := by
  simp [State.writerFull]

theorem raises_bswWrite_of_full {s : State} (h : s.writerFull = true) (b : Bool) :
    Raises (.bswWrite b) s 7#4 s.bswBits := by
  change execBswWrite b s = _
  rw [execBswWrite, if_pos h]
  rfl

theorem exec_bswWrite_of_not_full {s : State} (h : ¬s.writerFull = true) (hfit : s.bswByte.toNat < s.cfg.wbufCap)
    (b : Bool) : exec (.bswWrite b) s = .next (s.appendBit b).detachWbufReader := by
  change execBswWrite b s = _
  rw [execBswWrite, if_neg h, withElement_ok (sp := .wbuf) hfit]

theorem sameAt_storedBit (s : State) (b : Bool) {a : Nat} (h : a ≠ s.bswByte.toNat) :
    SameAt (s.storedBit b) s.wbuf a := sameAt_write s.wbuf _ h

section
variable {s : State} (hnext : s.bswByte.toNat + 1 < 2 ^ 32) (b : Bool)
include hnext

theorem bswBits_appendBit : (s.appendBit b).bswBits = s.bswBits + 1 := by
  unfold State.appendBit State.bswBits
  split
  · rename_i hlt
    rw [toNat_add_one_of_lt (Nat.succ_lt_succ hlt), Nat.add_assoc]
  · rename_i hge
    rw [toNat_add_one_of_lt hnext, bitPointer_eq_seven hge, BitVec.toNat_zero]
    omega

/-- Appending a bit stores it, and beside that writes at most the byte it grows. -/
theorem sameAt_appendBit {a : Nat} (ha : s.bswBit.toNat = 7 → a ≠ s.bswByte.toNat + 1) :
    SameAt (s.appendBit b).wbuf (s.storedBit b) a := by
  unfold State.appendBit
  split
  · exact SameAt.refl _ a
  · rename_i hge
    exact sameAt_write _ _ (by rw [toNat_add_one_of_lt hnext]; exact ha (bitPointer_eq_seven hge))

/-- A completed byte is followed by a zero byte (40_bitstream.md R122). -/
theorem holdsAt_appendBit_grown (h : s.bswBit.toNat = 7) :
    HoldsAt (s.appendBit b).wbuf (s.bswByte.toNat + 1) 0#8 := by
  rw [State.appendBit, if_neg (by omega), ← toNat_add_one_of_lt hnext]
  exact holdsAt_write _ _ _

end

/-- Settles O14: what `storedBit` and the grown byte do to each element of `WBUF`, the byte pointer having room by the
invariant. -/
theorem bswWriteAppendsBit : Obligations.BswWriteAppendsBit := by
  refine fun s b => ⟨by cases b <;> rfl, fun hs =>
    ⟨fun h => raises_bswWrite_of_full ((writerFull_iff s).2 h) b, fun h => ?_⟩⟩
  have hfit : s.bswByte.toNat + 1 ≤ s.cfg.wbufCap := hs.writer.1
  have hcap := (Config.caps_of_wf hs.cfg_wf).2.2.1.2
  have hnext : s.bswByte.toNat + 1 < 2 ^ 32 := by omega
  have hbyte := sameAt_appendBit hnext b (a := s.bswByte.toNat) fun _ => by omega
  have hfull := mt (writerFull_iff s).1 h
  refine ⟨_, exec_bswWrite_of_not_full hfull hfit b, ?_, ?_, fun k hk => ?_, ?_, bswBits_appendBit hnext b,
    fun hlt a ha => ?_, fun h7 => ⟨holdsAt_appendBit_grown hnext b h7, fun a ha hgrown => ?_⟩⟩
  · rw [appendBit_fields]; rfl
  · rw [detachWbufReader_bsrValid_iff, appendBit_fields]
  · rw [State.detachWbufReader_wbuf, hbyte.1, State.storedBit, Mem.read_write_same]
    exact streamBit_storeStreamBit _ s.bswBit.isLt b hk
  · rw [State.detachWbufReader_wbuf, hbyte.1, hbyte.2, State.storedBit, Mem.hostRead_write_same, Mem.read_write_same]
  · exact (sameAt_appendBit hnext b fun h7 => absurd h7 hlt.ne).trans (sameAt_storedBit s b ha)
  · exact (sameAt_appendBit hnext b fun _ => hgrown).trans (sameAt_storedBit s b ha)

/-! ### Attaching a reader -/

theorem raises_bsrInit_of_input_too_long {s : State} (h : s.cfg.ibufCap < s.ilen.toNat) :
    Raises (.bsrInit .ibuf) s 5#4 s.ilen.toNat := by
  change execBsrInit .ibuf s = _
  rw [execBsrInit, if_pos ⟨rfl, h⟩]
  rfl

section
variable {s : State} {src : Source} (hin : ¬(src = .ibuf ∧ s.cfg.ibufCap < s.ilen.toNat))
include hin

theorem raises_bsrInit_of_offset_beyond (h : s.sourceTotal src < s.a0.toNat) :
    Raises (.bsrInit src) s 5#4 s.a0.toNat := by
  change execBsrInit src s = _
  exact (if_neg hin).trans (if_pos h)

theorem exec_bsrInit_of_offset_le (h : s.a0.toNat ≤ s.sourceTotal src) :
    exec (.bsrInit src) s = .next (s.attachReader src s.a0.toNat (s.sourceTotal src)) := by
  change execBsrInit src s = _
  exact (if_neg hin).trans (if_neg (Nat.not_lt.2 h))

end

/-- What a reader may borrow fits a register (10_state.md R28, R29). -/
theorem sourceTotal_lt {s : State} (hs : Inv s) (src : Source) : s.sourceTotal src < 2 ^ 32 := by
  cases src with
  | ibuf => exact s.ilen.isLt
  | wbuf =>
    have hcap := (Config.caps_of_wf hs.cfg_wf).2.2.1.2
    have hle := bswBytes_le_of_inv hs
    rw [State.sourceTotal]
    omega

/-- Settles O15: the two checks in order, and the fields of `attachReader`. -/
theorem bsrInitAttachesReader : Obligations.BsrInitAttachesReader := by
  refine fun s src => ⟨by cases src <;> rfl, fun hs => ⟨fun hsrc h => ?_, fun hin total htotal => ?_⟩⟩
  · subst hsrc
    exact raises_bsrInit_of_input_too_long h
  · obtain rfl : total = s.sourceTotal src := by rw [htotal]; cases src <;> rfl
    refine ⟨raises_bsrInit_of_offset_beyond hin, fun hoff => ⟨_, exec_bsrInit_of_offset_le hin hoff, ?_, ?_⟩⟩
    · simp [State.attachReader]
    · have hlt := sourceTotal_lt hs src
      rw [State.attachReader_bsrLen, BitVec.toNat_ofNat, Nat.mod_eq_of_lt (by omega)]

/-! ### Reading a bit -/

theorem raises_bsrRead_of_detached {s : State} (h : s.bsrValid = false) : Raises .bsrRead s 2#4 0 := by
  change execBsrRead s = _
  rw [execBsrRead, h]
  rfl

theorem raises_bsrRead_of_exhausted {s : State} (hv : s.bsrValid = true) (h : s.bsrLen.toNat ≤ s.bsrByte.toNat) :
    Raises .bsrRead s 3#4 s.bsrBits := by
  change execBsrRead s = _
  rw [execBsrRead, hv, if_neg (by decide), if_pos h]
  rfl

theorem exec_bsrRead_of_within {s : State} (hv : s.bsrValid = true) (hlt : s.bsrByte.toNat < s.bsrLen.toNat)
    (hfit : s.readerIndex < (readerSpace s.bsrSrc).size s.cfg) :
    exec .bsrRead s = .next { s.advanceReader with res := bitWord s.readerBit } := by
  change execBsrRead s = _
  rw [execBsrRead, hv, if_neg (by decide), if_neg (Nat.not_le.2 hlt), withElement_ok hfit]
  rfl

theorem bsrBits_advanceReader {s : State} (hlt : s.bsrByte.toNat < s.bsrLen.toNat) :
    s.advanceReader.bsrBits = s.bsrBits + 1 := by
  have hnext : s.bsrByte.toNat + 1 < 2 ^ 32 := Nat.lt_of_le_of_lt hlt s.bsrLen.isLt
  unfold State.advanceReader State.bsrBits
  split
  · rename_i hbit
    rw [toNat_add_one_of_lt (Nat.succ_lt_succ hbit), Nat.add_assoc]
  · rename_i hbit
    rw [toNat_add_one_of_lt hnext, bitPointer_eq_seven hbit, BitVec.toNat_zero]
    omega

/-- Settles O16: an attached reader whose pointer is in its buffer reads inside its space, by the invariant. -/
theorem bsrReadReturnsNextBit : Obligations.BsrReadReturnsNextBit := by
  refine ⟨rfl, fun s hs => ⟨raises_bsrRead_of_detached, raises_bsrRead_of_exhausted, fun hv hlt => ?_⟩⟩
  have hend := readerEnd_le_of_inv hs hv
  refine ⟨_, exec_bsrRead_of_within hv hlt (by rw [State.readerIndex]; omega), ?_, ?_, bsrBits_advanceReader hlt⟩
  · rw [advanceReader_fields]
  · rw [toNat_bitWord, State.readerBit, toNat_streamBit]
    cases s.bsrSrc <;> rfl

/-! ### The round trip -/

/-- Bit `n` of the buffer a reader has borrowed (40_bitstream.md R120). -/
def State.borrowedBit (s : State) (n : Nat) : Bool :=
  streamBit ((s.sourceMem s.bsrSrc).read (s.bsrBase.toNat + n / 8)) (n % 8)

theorem readerBit_eq_borrowedBit (s : State) : s.readerBit = s.borrowedBit s.bsrBits := by
  have hbit : s.bsrBit.toNat < 8 := s.bsrBit.isLt
  rw [State.borrowedBit, State.bsrBits, Nat.mul_add_div (by decide), Nat.div_eq_of_lt hbit, Nat.mul_add_mod,
    Nat.mod_eq_of_lt hbit]
  rfl

/-- A block that is neither busy nor faulted, with a reader at the start of a borrowed buffer that lies in its space. -/
structure FreshReader (r : State) : Prop where
  not_busy : r.busy = false
  not_faulted : r.fault = false
  valid : r.bsrValid = true
  start : r.bsrBits = 0
  fits : r.bsrBase.toNat + r.bsrLen.toNat ≤ (readerSpace r.bsrSrc).size r.cfg

/-- `t` is `r` after `n` reads from the start of its borrowed buffer: only `RES` and the pointer differ, and `RES` holds the
bit read last. -/
structure HasRead (r : State) (n : Nat) (t : State) : Prop where
  differs : t = { r with res := t.res, bsrByte := t.bsrByte, bsrBit := t.bsrBit }
  bsrBits : t.bsrBits = n
  res : ∀ m, n = m + 1 → t.res = bitWord (r.borrowedBit m)

section
variable {r : State} (hr : FreshReader r)
include hr

/-- A command issued after some reads executes. -/
theorem FreshReader.hostStep_cmdLine {t : State} {n : Nat} (h : HasRead r n t) (i : Instr) :
    hostStep (cmdLine i) t = exec i t :=
  Machine.hostStep_cmdLine (by rw [h.differs]; exact hr.not_busy) (by rw [h.differs]; exact hr.not_faulted) i

/-- One read more, while the pointer is in the borrowed buffer. -/
theorem HasRead.exec_bsrRead {t : State} {n : Nat} (h : HasRead r n t) (hn : n < 8 * r.bsrLen.toNat) :
    ∃ u, exec .bsrRead t = .next u ∧ HasRead r (n + 1) u := by
  obtain ⟨hdiffers, hbits, -⟩ := h
  have hpointer : 8 * t.bsrByte.toNat + t.bsrBit.toNat = n := hbits
  have hlt : t.bsrByte.toNat < r.bsrLen.toNat := by omega
  have hlt' : t.bsrByte.toNat < t.bsrLen.toNat := by rwa [hdiffers]
  have hindex : t.readerIndex < (readerSpace t.bsrSrc).size t.cfg := by
    have hfits := hr.fits
    rw [hdiffers]
    change r.bsrBase.toNat + t.bsrByte.toNat < (readerSpace r.bsrSrc).size r.cfg
    omega
  have hbit : t.readerBit = r.borrowedBit n := by
    rw [readerBit_eq_borrowedBit, hbits, hdiffers]
    rfl
  refine ⟨_, exec_bsrRead_of_within (by rw [hdiffers]; exact hr.valid) hlt' hindex, ?_, ?_, fun m hm => ?_⟩
  · rw [advanceReader_fields, hdiffers]
  · exact (bsrBits_advanceReader hlt').trans (by rw [hbits])
  · obtain rfl : n = m := Nat.succ.inj hm
    exact congrArg bitWord hbit

/-- Reading from the start of the borrowed buffer, by induction on the number of reads. -/
theorem FreshReader.runScript_bsrReads {n : Nat} (hn : n ≤ 8 * r.bsrLen.toNat) :
    ∃ t, runScript (List.replicate n (cmdLine .bsrRead)) r = .next t ∧ HasRead r n t := by
  induction n with
  | zero => exact ⟨r, rfl, rfl, hr.start, fun _ hm => nomatch hm⟩
  | succ n ih =>
    obtain ⟨t, hrun, ht⟩ := ih (Nat.le_of_succ_le hn)
    obtain ⟨u, hexec, hu⟩ := ht.exec_bsrRead hr hn
    have hstep := (hr.hostStep_cmdLine ht .bsrRead).trans hexec
    exact ⟨u, by rw [List.replicate_succ', runScript_append hrun, runScript_cons hstep, runScript_nil], hu⟩

/-- The read after the last bit of the borrowed buffer raises `ERR_EXHAUSTED` (40_bitstream.md R125). -/
theorem FreshReader.runScript_bsrReads_exhausted :
    ∃ t, runScript (List.replicate (8 * r.bsrLen.toNat + 1) (cmdLine .bsrRead)) r = .next t ∧ t.fault = true
      ∧ t.err = 3#4 := by
  obtain ⟨t, hrun, ht⟩ := hr.runScript_bsrReads (le_refl _)
  have hpointer : 8 * t.bsrByte.toNat + t.bsrBit.toNat = 8 * r.bsrLen.toNat := ht.bsrBits
  have hbit : t.bsrBit.toNat < 8 := t.bsrBit.isLt
  have hend : r.bsrLen.toNat ≤ t.bsrByte.toNat := by omega
  have hraise : Raises .bsrRead t 3#4 t.bsrBits :=
    raises_bsrRead_of_exhausted (by rw [ht.differs]; exact hr.valid) (by rwa [ht.differs])
  have hstep := (hr.hostStep_cmdLine ht .bsrRead).trans hraise
  exact ⟨_, by rw [List.replicate_succ', runScript_append hrun, runScript_cons hstep, runScript_nil], rfl, rfl⟩

end

/-- `t` with a reader attached to the whole of its written bytes (40_bitstream.md R126). -/
def State.rereadWriter (t : State) : State := ({ t with a0 := 0#32 } : State).attachReader .wbuf 0 t.bswBytes

theorem runScript_rereadWriter {t : State} (hb : t.busy = false) (hf : t.fault = false) :
    runScript [.writeReg 4 0#32, cmdLine (.bsrInit .wbuf)] t = .next t.rereadWriter := by
  have hwrite : hostStep (.writeReg 4 0#32) t = .next { t with a0 := 0#32 } := hostStep_not_busy hb _
  have hinit : hostStep (cmdLine (.bsrInit .wbuf)) { t with a0 := 0#32 } = .next t.rereadWriter := by
    rw [hostStep_cmdLine (s := { t with a0 := 0#32 }) hb hf]
    exact exec_bsrInit_of_offset_le (s := { t with a0 := 0#32 }) (fun h => nomatch h.1) (Nat.zero_le _)
  rw [runScript_cons hwrite, runScript_cons hinit, runScript_nil]

/-- The bits of the written bytes are the bits written, then zeros. -/
theorem Wrote.borrowedBit_rereadWriter {s t : State} {bits : List Bool} (h : Wrote s bits t) {n : Nat}
    (hn : n < 8 * t.bswBytes) : t.rereadWriter.borrowedBit n = bits.getD n false := by
  have hbyte : n / 8 ≤ t.bswByte.toNat := by
    unfold State.bswBytes at hn
    split at hn <;> omega
  have hbit := h.bit (n / 8) (n % 8) hbyte (Nat.mod_lt n (by decide))
  rw [Nat.div_add_mod] at hbit
  rw [← hbit, State.borrowedBit, State.rereadWriter, State.attachReader_bsrBase, BitVec.toNat_zero, Nat.zero_add]
  rfl

/-- The bits of a list that fits are written to a fresh writer (40_bitstream.md R121, R122). -/
theorem runScript_freshWrites {s : State} (hs : Inv s) (hf : s.fault = false) {bits : List Bool}
    (hroom : bits.length ≤ 8 * s.cfg.wbufCap - 1) :
    ∃ w, runScript (cmdLine .bswInit :: bits.map fun b => cmdLine (.bswWrite b)) s = .next w ∧ Wrote s bits w := by
  have hinit : hostStep (cmdLine .bswInit) s = .next s.freshWriter.detachWbufReader := hostStep_cmdLine hs.not_busy hf _
  obtain ⟨w, hrun, hw⟩ := runScript_bswWrites hs hf bits (wrote_nil_freshWriter s).detachWbufReader (by simpa using hroom)
  exact ⟨w, by rw [runScript_cons hinit, hrun], hw⟩

theorem toNat_bsrLen_rereadWriter {t : State} (h : t.bswBytes < 2 ^ 32) : t.rereadWriter.bsrLen.toNat = t.bswBytes := by
  rw [State.rereadWriter, State.attachReader_bsrLen, BitVec.toNat_ofNat, Nat.sub_zero, Nat.mod_eq_of_lt h]

/-- Settles O19: the writer holds the bits (`Wrote`), and each read returns the next of them (`HasRead`). -/
theorem bitRoundTrip : Obligations.BitRoundTrip := by
  intro s bits hs hf hroom
  obtain ⟨w, hrun, hw⟩ := runScript_freshWrites hs hf hroom
  obtain ⟨hcfg, hbusy, hfault⟩ : w.cfg = s.cfg ∧ w.busy = false ∧ w.fault = false := by
    obtain ⟨_, _, _, _, rfl⟩ := hw.differs
    exact ⟨rfl, hs.not_busy, hf⟩
  have hcount : w.bswBytes = (bits.length + 7) / 8 := by rw [hw.bswBytes_eq, length_pack]
  have hcap := (Config.caps_of_wf hs.cfg_wf).2.2.1
  have hlen : w.rereadWriter.bsrLen.toNat = w.bswBytes := toNat_bsrLen_rereadWriter (by omega)
  have hr : FreshReader w.rereadWriter := by
    refine ⟨hbusy, hfault, rfl, rfl, ?_⟩
    have hbytes : w.bswBytes ≤ w.cfg.wbufCap := by rw [hcfg]; omega
    rw [hlen]
    exact le_trans (Nat.zero_add _).le hbytes
  have hread : ∀ n, n < 8 * w.bswBytes → ∃ t,
      runScript (List.replicate (n + 1) (cmdLine .bsrRead)) w.rereadWriter = .next t ∧ t.fault = false
        ∧ t.res = if bits.getD n false then 1#32 else 0#32 := by
    intro n hn
    obtain ⟨t, ht, hdiffers, -, hres⟩ := hr.runScript_bsrReads (n := n + 1) (by rw [hlen]; exact hn)
    exact ⟨t, ht, by rw [hdiffers]; exact hfault, by rw [hres n rfl, hw.borrowedBit_rereadWriter hn, bitWord_eq_ite]⟩
  refine ⟨w, w.rereadWriter, hrun, hfault, hw.bswBits, runScript_rereadWriter hbusy hfault, hfault,
    fun n b hb => ?_, fun n hn hlt => ?_, ?_⟩
  · have hn : n < bits.length := (List.getElem?_eq_some_iff.1 hb).1
    have := hread n (by omega)
    rwa [List.getD_eq_getElem?_getD, hb] at this
  · have := hread n hlt
    rwa [List.getD_eq_default _ _ hn] at this
  · have := hr.runScript_bsrReads_exhausted
    rwa [hlen] at this

/-! ### Commands that leave the unit alone -/

/-- The commands that use the host-visible writer or reader, `RESET` among them. -/
def usesHostStreams : Instr → Bool
  | .reset | .bswInit | .bswWrite _ | .bsrInit _ | .bsrRead => true
  | _ => false

/-- `t` has the writer and the reader of `s`. -/
def KeepsHostStreams (s t : State) : Prop :=
  t = { t with
    wbuf := s.wbuf, bswByte := s.bswByte, bswBit := s.bswBit, bsrByte := s.bsrByte, bsrBit := s.bsrBit,
    bsrBase := s.bsrBase, bsrLen := s.bsrLen, bsrValid := s.bsrValid, bsrSrc := s.bsrSrc }

theorem Effect.keepsHostStreams {i : Instr} {s t : State} (h : Effect i s t) (hi : usesHostStreams i = false) :
    KeepsHostStreams s t := by
  cases h with
  | reset h | bswInit h | bswWrite b h | bsrInit src h | bsrRead h => subst h; cases hi
  | frm => rw [transformFrame_eq]; rfl
  | pipeDec => rw [loadFrame_fields]; rfl
  | pipeEnc | pipeEncFault => rw [pipeTransformed_fields]; rfl
  | fault | blk | blkSt | get | set | build | enc | encFault | decFault | pipeDecFault => rfl

/-- Settles O20: over the effects of the commands, of which only those of the unit itself and `RESET` touch it. -/
theorem huffmanCommandsUsePrivateStreams : Obligations.HuffmanCommandsUsePrivateStreams := by
  intro i s t hi h
  have hunused : ∀ j ∈ [.hufBuild, .hufEnc, .hufDec, .pipeEnc, .pipeDec], usesHostStreams j = false := by decide
  have hkeeps := (exec_effect h).keepsHostStreams (hunused i hi)
  refine ⟨?_, ?_, ?_, ?_, ?_, ?_, ?_, ?_, ?_⟩ <;> rw [hkeeps]

end Sys2Proof.Machine
end

section
/-! PROOFS. Rounding to the nearest integer, an exact half away from zero (41_block_transform.md R153). -/

namespace Sys2Proof.Machine

section
variable {K : Type} [Field K] [LinearOrder K] [FloorRing K]

/-- Mathlib's `round` is the floor, or one more when the fraction is at least a half. -/
theorem round_cases [IsStrictOrderedRing K] (x : K) :
    x - ⌊x⌋ < 1 / 2 ∧ round x = ⌊x⌋ ∨ 1 / 2 ≤ x - ⌊x⌋ ∧ round x = ⌊x⌋ + 1 := by
  have hlo := Int.floor_le x
  have hhi := Int.lt_floor_add_one x
  rw [round_eq]
  rcases lt_or_ge (x - ⌊x⌋) (1 / 2) with h | h
  · exact .inl ⟨h, Int.floor_eq_iff.2 ⟨by linarith, by linarith⟩⟩
  · exact .inr ⟨h, Int.floor_eq_iff.2 ⟨by push_cast; linarith, by push_cast; linarith⟩⟩

/-- `round` of the magnitude with the sign of the number: the rounding of `rnd`. -/
def roundAway (x : K) : ℤ := if x < 0 then -round |x| else round |x|

theorem roundAway_cases (x : K) : x < 0 ∧ roundAway x = -round |x| ∨ 0 ≤ x ∧ roundAway x = round |x| := by
  rcases lt_or_ge x 0 with h | h
  · exact .inl ⟨h, if_pos h⟩
  · exact .inr ⟨h, if_neg h.not_gt⟩

@[simp] theorem roundAway_zero [IsStrictOrderedRing K] : roundAway (0 : K) = 0 := by simp [roundAway]

end

theorem roundsRational_roundAway (x : ℚ) : RoundsRational x (roundAway x) :=
  ⟨round |x|, round_cases |x|, roundAway_cases x⟩

theorem roundsReal_roundAway (x : ℝ) : RoundsReal x (roundAway x) :=
  ⟨round |x|, round_cases |x|, roundAway_cases x⟩

theorem F64.abs_value (x : F64) : |x.value| = x.mant * 2 ^ x.exp := by
  cases h : x.neg <;> simp [F64.value, h, abs_mul, abs_of_nonneg]

/-- The rounding of a magnitude is the rounding of the quotient it stands for. -/
theorem round_natCast_div (n : ℕ) {d : ℕ} (hd : 0 < d) : round ((n : ℚ) / d) = F64.roundMagnitude n d := by
  have hdq : (0 : ℚ) < d := by exact_mod_cast hd
  have hfloor : ⌊(n : ℚ) / d⌋ = ((n / d : ℕ) : ℤ) := by
    rw [← Int.natCast_floor_eq_floor (by positivity), Nat.floor_div_eq_div]
  have hfract : Int.fract ((n : ℚ) / d) = ((n % d : ℕ) : ℚ) / d := Int.fract_div_natCast_eq_div_natCast_mod
  have hhalf : ((n % d : ℕ) : ℚ) / d < 1 / 2 ↔ 2 * (n % d) < d := by
    rw [div_lt_div_iff₀ hdq two_pos]
    norm_cast
    omega
  have hcases := round_cases ((n : ℚ) / d)
  rw [Int.self_sub_floor, hfract, hfloor] at hcases
  rcases hcases with ⟨h, hr⟩ | ⟨h, hr⟩
  · rw [hr, F64.roundMagnitude, if_pos (hhalf.1 h)]
  · rw [hr, F64.roundMagnitude, if_neg fun h' => h.not_gt (hhalf.2 h')]
    rfl

/-- The magnitude of `rnd x` is the rounding of the magnitude of `x`. -/
theorem rnd_eq_round (x : F64) : x.rnd = if x.neg then -round |x.value| else round |x.value| := by
  rw [F64.abs_value]
  obtain ⟨neg, mant, k | k⟩ := x
  · have hround : round ((mant : ℚ) * 2 ^ (Int.ofNat k)) = ((mant * 2 ^ k : ℕ) : ℤ) := by
      rw [← round_natCast (α := ℚ)]; simp
    rw [hround]; rfl
  · have hround := round_natCast_div mant (d := 2 ^ (k + 1)) (by positivity)
    have hvalue : (mant : ℚ) * 2 ^ (Int.negSucc k) = mant / (2 ^ (k + 1) : ℕ) := by
      rw [zpow_negSucc]; push_cast; rfl
    rw [hvalue, hround]; rfl

theorem rnd_eq_roundAway (x : F64) : x.rnd = roundAway x.value := by
  have hpos : (0 : ℚ) ≤ x.mant * 2 ^ x.exp := by positivity
  rw [rnd_eq_round]
  cases hneg : x.neg
  · have hvalue : ¬x.value < 0 := by simp only [F64.value, hneg]; simpa using hpos
    rw [roundAway, if_neg hvalue]; rfl
  · rcases eq_or_lt_of_le hpos with h | h
    · have hvalue : x.value = 0 := by rw [← abs_eq_zero, F64.abs_value, h]
      simp [hvalue]
    · have hvalue : x.value < 0 := by simp only [F64.value, hneg, if_true]; linarith
      rw [roundAway, if_pos hvalue]; rfl

/-- Settles O28: `rnd` is the rounding of the number it is given. -/
theorem roundingLaw : Obligations.RoundingLaw := fun x => rnd_eq_roundAway x ▸ roundsRational_roundAway x.value

end Sys2Proof.Machine
end

section
/-! PROOFS. The tower of quadratic extensions computes with the real numbers it stands for (41_block_transform.md R147). -/

namespace Sys2Proof.Machine

/-! ### Cosines of the multiples of `π/16` -/

/-- `2cos(π/n)`: the generators of the tower are those of 4, 8 and 16. -/
noncomputable def twoCosPiDiv (n : ℕ) : ℝ := 2 * Real.cos (Real.pi / n)

/-- Each generator is a square root over the one of the double angle. -/
theorem twoCosPiDiv_sq (n : ℕ) : twoCosPiDiv (2 * n) * twoCosPiDiv (2 * n) = 2 + twoCosPiDiv n := by
  have hangle : Real.pi / n = 2 * (Real.pi / (2 * n : ℕ)) := by push_cast; ring
  rw [twoCosPiDiv, twoCosPiDiv, hangle, Real.cos_two_mul]
  ring

theorem twoCosPiDiv_pos {n : ℕ} (h : 2 < n) : 0 < twoCosPiDiv n := by
  have hn : (2 : ℝ) < n := by exact_mod_cast h
  refine mul_pos two_pos (Real.cos_pos_of_mem_Ioo ⟨?_, ?_⟩)
  · linarith [Real.pi_pos, div_pos Real.pi_pos (show (0 : ℝ) < n by linarith)]
  · exact div_lt_div_of_pos_left Real.pi_pos two_pos hn

theorem twoCosPiDiv_two : twoCosPiDiv 2 = 0 := by simp [twoCosPiDiv]

/-- `cos(m * π / 16)`, the number `CS[m]` stands for (41_block_transform.md R148). -/
noncomputable def cosSixteenth (m : ℕ) : ℝ := Real.cos (m * Real.pi / 16)

theorem cosSixteenth_zero : cosSixteenth 0 = 1 := by simp [cosSixteenth]

theorem two_mul_cosSixteenth_one : 2 * cosSixteenth 1 = twoCosPiDiv 16 := by simp [cosSixteenth, twoCosPiDiv]

/-- The recurrence of the cosines of the multiples of an angle. -/
theorem cosSixteenth_add_two (m : ℕ) :
    cosSixteenth (m + 2) = 2 * cosSixteenth 1 * cosSixteenth (m + 1) - cosSixteenth m := by
  have hup : ((m + 2 : ℕ) : ℝ) * Real.pi / 16 = (m + 1 : ℕ) * Real.pi / 16 + (1 : ℕ) * Real.pi / 16 := by push_cast; ring
  have hdown : (m : ℝ) * Real.pi / 16 = (m + 1 : ℕ) * Real.pi / 16 - (1 : ℕ) * Real.pi / 16 := by push_cast; ring
  simp only [cosSixteenth]
  rw [hup, hdown, Real.cos_add, Real.cos_sub]
  ring

theorem cosSixteenth_mod (n : ℕ) : cosSixteenth (n % 32) = cosSixteenth n := by
  have hn : (n : ℝ) = (n % 32 : ℕ) + 32 * (n / 32 : ℕ) := by exact_mod_cast (Nat.mod_add_div n 32).symm
  have hangle : (n : ℝ) * Real.pi / 16 = (n % 32 : ℕ) * Real.pi / 16 + (n / 32 : ℕ) * (2 * Real.pi) := by
    rw [hn]; ring
  rw [cosSixteenth, cosSixteenth, hangle, Real.cos_add_nat_mul_two_pi]

theorem cosSixteenth_sub {m : ℕ} (h : m ≤ 16) : cosSixteenth (16 - m) = -cosSixteenth m := by
  rw [cosSixteenth, cosSixteenth, ← Real.cos_pi_sub, Nat.cast_sub h]
  congr 1
  push_cast
  ring

theorem cosSixteenth_add_sixteen (m : ℕ) : cosSixteenth (m + 16) = -cosSixteenth m := by
  rw [cosSixteenth, cosSixteenth, ← Real.cos_add_pi]
  congr 1
  push_cast
  ring

/-- `C0` is half of `CS[4]` (41_block_transform.md R148). -/
theorem sqrt_one_eighth_eq_cosSixteenth : √(1 / 8) = cosSixteenth 4 / 2 := by
  have hcos : cosSixteenth 4 = √2 / 2 := by
    rw [cosSixteenth, ← Real.cos_pi_div_four]; congr 1; push_cast; ring
  have hsq : (1 / 8 : ℝ) = (√2 / 4) ^ 2 := by rw [div_pow, Real.sq_sqrt two_pos.le]; norm_num
  rw [hcos, hsq, Real.sqrt_sq (by positivity)]
  ring

theorem cos_eq_cosSixteenth (k u : ℕ) :
    Real.cos ((k + 1 / 2) * Real.pi * u / 8) = cosSixteenth ((2 * k + 1) * u) := by
  rw [cosSixteenth]
  congr 1
  push_cast
  ring

/-- An entry of a table of cosines for the angles up to a right angle, or its negative, by the reduction of
41_block_transform.md R149. -/
def reduceAngle {α : Type} (negate : α → α) (table : ℕ → α) (n : ℕ) : α :=
  if n % 32 ≤ 7 then table (n % 32)
  else if n % 32 ≤ 16 then negate (table (16 - n % 32))
  else if n % 32 ≤ 23 then negate (table (n % 32 - 16))
  else table (32 - n % 32)

/-- The reduction of the angle is right: what a table entry has to do with its cosine, and its negative with the negative
cosine, the reduced entry has to do with the cosine of the whole angle. -/
theorem reduceAngle_spec {α : Type} {negate : α → α} {table : ℕ → α} (P : α → ℝ → Prop)
    (htable : ∀ m, m ≤ 8 → P (table m) (cosSixteenth m)) (hneg : ∀ x r, P x r → P (negate x) (-r)) (n : ℕ) :
    P (reduceAngle negate table n) (cosSixteenth n) := by
  rw [← cosSixteenth_mod, reduceAngle]
  have hlt : n % 32 < 32 := Nat.mod_lt _ (by decide)
  generalize n % 32 = m at *
  split_ifs with h7 h16 h23
  · exact htable m (by omega)
  · have h := hneg _ _ (htable (16 - m) (by omega))
    rwa [cosSixteenth_sub h16, neg_neg] at h
  · obtain ⟨j, rfl⟩ : ∃ j, m = j + 16 := ⟨m - 16, by omega⟩
    rw [cosSixteenth_add_sixteen, Nat.add_sub_cancel]
    exact hneg _ _ (htable j (by omega))
  · obtain ⟨j, rfl⟩ : ∃ j, m = j + 16 := ⟨m - 16, by omega⟩
    have h := htable (16 - j) (by omega)
    rw [cosSixteenth_sub (by omega)] at h
    rwa [cosSixteenth_add_sixteen, show 32 - (j + 16) = 16 - j by omega]

/-! ### Signs -/

/-- The sign of `a + b*r` from those of `a`, of `b` and of the product with the conjugate, when `a` and `b` differ in
sign. -/
theorem signOfSum_sign (a b : ℝ) {r : ℝ} (hr : 0 < r) :
    signOfSum (SignType.sign a) (SignType.sign b) (SignType.sign (a * a - r * r * (b * b)))
      = SignType.sign (a + b * r) := by
  have hfactor : a * a - r * r * (b * b) = (a - b * r) * (a + b * r) := by ring
  rw [hfactor, sign_mul]
  rcases lt_trichotomy b 0 with hb | rfl | hb
  · have hbr : b * r < 0 := mul_neg_of_neg_of_pos hb hr
    rcases lt_trichotomy a 0 with ha | rfl | ha
    · rw [sign_neg (show a + b * r < 0 by linarith), sign_neg ha, sign_neg hb]; rfl
    · rw [zero_add, sign_neg hbr, sign_neg hb, sign_zero]; rfl
    · rw [sign_pos (show 0 < a - b * r by linarith), sign_pos ha, sign_neg hb]
      simp [signOfSum]
  · simp [signOfSum]
  · have hbr : 0 < b * r := mul_pos hb hr
    rcases lt_trichotomy a 0 with ha | rfl | ha
    · rw [sign_neg (show a - b * r < 0 by linarith), sign_neg ha, sign_pos hb]
      simp [signOfSum]
    · rw [zero_add, sign_pos hbr, sign_pos hb, sign_zero]; rfl
    · rw [sign_pos (show 0 < a + b * r by linarith), sign_pos ha, sign_pos hb]; rfl

/-! ### The three levels: sums, products and signs are those of the real numbers -/

namespace Cos4

/-- The real number an element stands for. -/
noncomputable def toReal (x : Cos4) : ℝ := x.a + x.b * twoCosPiDiv 4

@[simp] theorem toReal_ofInt (n : ℤ) : (ofInt n).toReal = n := by simp [toReal, ofInt]

@[simp] theorem toReal_add (x y : Cos4) : (x.add y).toReal = x.toReal + y.toReal := by
  simp only [toReal, add]; push_cast; ring

@[simp] theorem toReal_negate (x : Cos4) : x.negate.toReal = -x.toReal := by
  simp only [toReal, negate]; push_cast; ring

@[simp] theorem toReal_square8 : square8.toReal = twoCosPiDiv 8 * twoCosPiDiv 8 := by
  rw [twoCosPiDiv_sq 4]; simp [toReal, square8]

theorem twoCosPiDiv_four_sq : twoCosPiDiv 4 * twoCosPiDiv 4 = 2 := by
  rw [twoCosPiDiv_sq 2, twoCosPiDiv_two, add_zero]

@[simp] theorem toReal_mul (x y : Cos4) : (x.mul y).toReal = x.toReal * y.toReal := by
  simp only [toReal, mul]
  push_cast
  linear_combination (-(x.b : ℝ) * y.b) * twoCosPiDiv_four_sq

theorem sign_eq (x : Cos4) : x.sign = SignType.sign x.toReal := by
  have hnorm : ((x.a * x.a - 2 * (x.b * x.b) : ℤ) : ℝ) = x.a * x.a - twoCosPiDiv 4 * twoCosPiDiv 4 * (x.b * x.b) := by
    rw [twoCosPiDiv_four_sq]; push_cast; rfl
  have hsign := signOfSum_sign x.a x.b (twoCosPiDiv_pos (show 2 < 4 by decide))
  rw [← hnorm, sign_intCast, sign_intCast, sign_intCast] at hsign
  rw [sign, Int.sign_eq_sign, Int.sign_eq_sign, Int.sign_eq_sign]
  exact hsign

end Cos4

namespace Cos8

/-- The real number an element stands for. -/
noncomputable def toReal (x : Cos8) : ℝ := x.a.toReal + x.b.toReal * twoCosPiDiv 8

@[simp] theorem toReal_ofInt (n : ℤ) : (ofInt n).toReal = n := by simp [toReal, ofInt]

@[simp] theorem toReal_add (x y : Cos8) : (x.add y).toReal = x.toReal + y.toReal := by
  simp only [toReal, add, Cos4.toReal_add]; ring

@[simp] theorem toReal_negate (x : Cos8) : x.negate.toReal = -x.toReal := by
  simp only [toReal, negate, Cos4.toReal_negate]; ring

@[simp] theorem toReal_square16 : square16.toReal = twoCosPiDiv 16 * twoCosPiDiv 16 := by
  rw [twoCosPiDiv_sq 8]; simp [toReal, square16]

@[simp] theorem toReal_mul (x y : Cos8) : (x.mul y).toReal = x.toReal * y.toReal := by
  simp only [toReal, mul, Cos4.toReal_add, Cos4.toReal_mul, Cos4.toReal_square8]; ring

theorem sign_eq (x : Cos8) : x.sign = SignType.sign x.toReal := by
  rw [sign, Cos4.sign_eq, Cos4.sign_eq, Cos4.sign_eq]
  simpa [← sub_eq_add_neg, toReal] using
    signOfSum_sign x.a.toReal x.b.toReal (twoCosPiDiv_pos (show 2 < 8 by decide))

end Cos8

namespace Cos16

/-- The real number an element stands for. -/
noncomputable def toReal (x : Cos16) : ℝ := x.a.toReal + x.b.toReal * twoCosPiDiv 16

@[simp] theorem toReal_ofInt (n : ℤ) : (ofInt n).toReal = n := by simp [toReal, ofInt]

@[simp] theorem toReal_add (x y : Cos16) : (x.add y).toReal = x.toReal + y.toReal := by
  simp only [toReal, add, Cos8.toReal_add]; ring

@[simp] theorem toReal_negate (x : Cos16) : x.negate.toReal = -x.toReal := by
  simp only [toReal, negate, Cos8.toReal_negate]; ring

@[simp] theorem toReal_mul (x y : Cos16) : (x.mul y).toReal = x.toReal * y.toReal := by
  simp only [toReal, mul, Cos8.toReal_add, Cos8.toReal_mul, Cos8.toReal_square16]; ring

theorem sign_eq (x : Cos16) : x.sign = SignType.sign x.toReal := by
  rw [sign, Cos8.sign_eq, Cos8.sign_eq, Cos8.sign_eq]
  simpa [← sub_eq_add_neg, toReal] using
    signOfSum_sign x.a.toReal x.b.toReal (twoCosPiDiv_pos (show 2 < 16 by decide))

theorem sign_neg_iff (x : Cos16) : x.sign < 0 ↔ x.toReal < 0 := by
  rw [sign_eq]
  rcases lt_trichotomy x.toReal 0 with h | h | h <;> simp [h, h.not_gt]

theorem sign_nonneg_iff (x : Cos16) : 0 ≤ x.sign ↔ 0 ≤ x.toReal := by
  rw [← not_lt, sign_neg_iff, not_lt]

@[simp] theorem toReal_magnitude (x : Cos16) : x.magnitude.toReal = |x.toReal| := by
  rw [magnitude]
  split_ifs with h
  · rw [toReal_negate, abs_of_neg ((sign_neg_iff x).1 h)]
  · rw [abs_of_nonneg (not_lt.1 fun h' => h ((sign_neg_iff x).2 h'))]

/-! ### The cosines -/

/-- The table of the tower follows the recurrence of the cosines. -/
theorem twoCos_add_two : ∀ m, m < 7 →
    twoCos (m + 2) = ((twoCos 1).mul (twoCos (m + 1))).add (twoCos m).negate := by decide

theorem toReal_twoCos {m : ℕ} (h : m ≤ 8) : (twoCos m).toReal = 2 * cosSixteenth m := by
  have hone : (twoCos 1).toReal = 2 * cosSixteenth 1 := by
    rw [two_mul_cosSixteenth_one]; simp [toReal, twoCos]
  induction m using Nat.twoStepInduction with
  | zero => simp [twoCos, cosSixteenth_zero]
  | one => exact hone
  | more m ih ih' =>
    rw [twoCos_add_two m (by omega), toReal_add, toReal_mul, toReal_negate, ih (by omega), ih' (by omega), hone,
      cosSixteenth_add_two]
    ring

@[simp] theorem toReal_cosine (k u : ℕ) :
    (cosine k u).toReal = 2 * Real.cos ((k + 1 / 2) * Real.pi * u / 8) := by
  rw [cos_eq_cosSixteenth]
  exact reduceAngle_spec (fun (x : Cos16) r => x.toReal = 2 * r) (fun _ => toReal_twoCos)
    (fun x r h => by rw [toReal_negate, h, mul_neg]) _

@[simp] theorem toReal_scale (k : ℕ) : (scale k).toReal = 4 * (if k = 0 then √(1 / 8) else 1 / 2) := by
  rw [scale]
  split_ifs
  · rw [toReal_twoCos (by decide), sqrt_one_eighth_eq_cosSixteenth]; ring
  · rw [toReal_ofInt]; norm_num

end Cos16

end Sys2Proof.Machine
end

section
/-! PROOFS. The transform under `NUM = REAL` is the transform in exact real arithmetic (41_block_transform.md R143 to R147,
R153 to R155). -/

namespace Sys2Proof.Machine

/-! ### Rounding a quotient in the tower -/

namespace Cos16

theorem atMostHalfAbove_iff (x : Cos16) {d : ℕ} (hd : 0 < d) (m : ℕ) :
    atMostHalfAbove x d m = true ↔ (m : ℝ) ≤ x.toReal / d + 1 / 2 := by
  have hdr : (0 : ℝ) < d := by exact_mod_cast hd
  have hdiv : x.toReal / d + 1 / 2 = (2 * x.toReal + d) / (2 * d) := by field_simp
  rw [atMostHalfAbove, decide_eq_true_iff, sign_nonneg_iff, toReal_add, toReal_add, toReal_ofInt, hdiv,
    le_div_iff₀ (by positivity)]
  push_cast
  constructor <;> intro h <;> linarith

/-- The search finds the largest number that passes, which is `n`, when it starts at most `2^k` below. -/
theorem searchRound_eq {x : Cos16} {d n : ℕ} (hpass : ∀ m, atMostHalfAbove x d m = true ↔ m ≤ n) {k m : ℕ} (hm : m ≤ n)
    (hn : n < m + 2 ^ k) : searchRound x d k m = n := by
  induction k generalizing m with
  | zero => rw [searchRound]; omega
  | succ k ih =>
    rw [pow_succ] at hn
    rw [searchRound]
    split_ifs with h
    · exact ih ((hpass _).1 h) (by omega)
    · exact ih hm (not_le.1 fun h' => h ((hpass _).2 h'))

/-- `rndQuotient x d` is the rounding of the real quotient, below the bound of the search (41_block_transform.md R152). -/
theorem rndQuotient_eq_roundAway {x : Cos16} {d : ℕ} (hd : 0 < d) (hx : |x.toReal / d| < 2 ^ 23) :
    rndQuotient x d = roundAway (x.toReal / d) := by
  have hdr : (0 : ℝ) < d := by exact_mod_cast hd
  have habs : |x.toReal / d| = x.magnitude.toReal / d := by rw [abs_div, Nat.abs_cast, toReal_magnitude]
  have hneg : x.toReal / d < 0 ↔ x.sign < 0 := by rw [sign_neg_iff, div_neg_iff]; simp [hdr, hdr.not_gt]
  have hpos : 0 ≤ x.magnitude.toReal / d + 1 / 2 := by rw [← habs]; positivity
  have hsearch : searchRound x.magnitude d 24 0 = ⌊x.magnitude.toReal / d + 1 / 2⌋₊ := by
    refine searchRound_eq (fun m => ?_) (Nat.zero_le _) ?_
    · rw [atMostHalfAbove_iff _ hd, Nat.le_floor_iff hpos]
    · rw [zero_add, Nat.floor_lt hpos]
      rw [habs] at hx
      push_cast
      linarith
  have hround : round (x.magnitude.toReal / d) = (searchRound x.magnitude d 24 0 : ℕ) := by
    rw [hsearch, round_eq, Int.natCast_floor_eq_floor hpos]
  rw [roundAway, habs, hround, rndQuotient, if_congr hneg rfl rfl]

/-! ### The sums of 64 terms -/

/-- A fold whose steps each add a real number adds their sum. -/
theorem toReal_foldl_range {step : Cos16 → ℕ → Cos16} {f : ℕ → ℝ} (hstep : ∀ x i, (step x i).toReal = x.toReal + f i)
    (n : ℕ) (x : Cos16) : ((List.range n).foldl step x).toReal = x.toReal + ∑ i ∈ Finset.range n, f i := by
  induction n with
  | zero => simp
  | succ n ih =>
    rw [List.range_succ, List.foldl_append, List.foldl_cons, List.foldl_nil, hstep, ih, Finset.sum_range_succ, add_assoc]

@[simp] theorem toReal_sum64 (term : ℕ → ℕ → Cos16) :
    (sum64 term).toReal = ∑ i ∈ Finset.range 8, ∑ j ∈ Finset.range 8, (term i j).toReal := by
  have hinner (x : Cos16) (i : ℕ) := toReal_foldl_range (fun y j => toReal_add y (term i j)) 8 x
  rw [sum64, toReal_foldl_range hinner, toReal_ofInt, Int.cast_zero, zero_add]

end Cos16

/-! ### The transform -/

/-- `C(k)` (41_block_transform.md R144). -/
noncomputable def dctScale (k : ℕ) : ℝ := if k = 0 then √(1 / 8) else 1 / 2

/-- `F(u,v)` in exact real arithmetic. -/
noncomputable def realForward (f : ℕ → ℕ → ℤ) (u v : ℕ) : ℝ :=
  dctScale u * dctScale v * ∑ i ∈ Finset.range 8, ∑ j ∈ Finset.range 8,
    (f i j : ℝ) * Real.cos ((i + 1 / 2) * Real.pi * u / 8) * Real.cos ((j + 1 / 2) * Real.pi * v / 8)

/-- `g(x,y)` in exact real arithmetic. -/
noncomputable def realInverse (fd : ℕ → ℕ → ℤ) (x y : ℕ) : ℝ :=
  ∑ u ∈ Finset.range 8, ∑ v ∈ Finset.range 8, dctScale u * dctScale v * (fd u v : ℝ)
    * Real.cos ((x + 1 / 2) * Real.pi * u / 8) * Real.cos ((y + 1 / 2) * Real.pi * v / 8)

theorem isForwardDct_realForward (f : ℕ → ℕ → ℤ) (u v : ℕ) : IsForwardDct f u v (realForward f u v) := rfl

theorem isInverseDct_realInverse (fd : ℕ → ℕ → ℤ) (x y : ℕ) : IsInverseDct fd x y (realInverse fd x y) := rfl

theorem Cos16.toReal_forward (f : ℕ → ℕ → ℤ) (u v : ℕ) : (Cos16.forward f u v).toReal = 64 * realForward f u v := by
  simp only [Cos16.forward, realForward, dctScale, Cos16.toReal_mul, Cos16.toReal_scale, Cos16.toReal_sum64,
    Cos16.toReal_cosine, Cos16.toReal_ofInt, Finset.mul_sum]
  refine Finset.sum_congr rfl fun i _ => Finset.sum_congr rfl fun j _ => ?_
  ring

theorem Cos16.toReal_inverse (fd : ℕ → ℕ → ℤ) (x y : ℕ) : (Cos16.inverse fd x y).toReal = 64 * realInverse fd x y := by
  simp only [Cos16.inverse, realInverse, dctScale, Cos16.toReal_mul, Cos16.toReal_scale, Cos16.toReal_sum64,
    Cos16.toReal_cosine, Cos16.toReal_ofInt, Finset.mul_sum]
  refine Finset.sum_congr rfl fun i _ => Finset.sum_congr rfl fun j _ => ?_
  ring

/-! ### Bounds (41_block_transform.md R152) -/

theorem abs_dctScale_le (k : ℕ) : |dctScale k| ≤ 1 / 2 := by
  have hsqrt : √(1 / 8) ≤ 1 / 2 := by rw [Real.sqrt_le_left (by norm_num)]; norm_num
  rw [dctScale]
  split_ifs
  · rwa [abs_of_nonneg (Real.sqrt_nonneg _)]
  · exact (abs_of_pos one_half_pos).le

/-- A double sum of 64 terms of magnitude at most `B`. -/
theorem abs_sum64_le {t : ℕ → ℕ → ℝ} {B : ℝ} (h : ∀ i, i < 8 → ∀ j, j < 8 → |t i j| ≤ B) :
    |∑ i ∈ Finset.range 8, ∑ j ∈ Finset.range 8, t i j| ≤ 64 * B := by
  have hrow (i : ℕ) (hi : i ∈ Finset.range 8) : |∑ j ∈ Finset.range 8, t i j| ≤ 8 * B := by
    refine (Finset.abs_sum_le_sum_abs ..).trans ((Finset.sum_le_card_nsmul _ _ B fun j hj => ?_).trans_eq ?_)
    · exact h i (Finset.mem_range.1 hi) j (Finset.mem_range.1 hj)
    · simp
  refine (Finset.abs_sum_le_sum_abs ..).trans ((Finset.sum_le_card_nsmul _ _ (8 * B) hrow).trans_eq ?_)
  simp
  ring

theorem abs_mul_cos_mul_cos_le (a θ φ : ℝ) : |a * Real.cos θ * Real.cos φ| ≤ |a| := by
  rw [abs_mul, abs_mul, mul_assoc]
  exact mul_le_of_le_one_right (abs_nonneg a) (mul_le_one₀ (Real.abs_cos_le_one θ) (abs_nonneg _) (Real.abs_cos_le_one φ))

theorem abs_dctScale_mul_le (u v : ℕ) (a : ℝ) : |dctScale u * dctScale v * a| ≤ |a| / 4 := by
  rw [abs_mul, abs_mul]
  calc |dctScale u| * |dctScale v| * |a| ≤ 1 / 2 * (1 / 2) * |a| := by
        gcongr
        · exact abs_dctScale_le u
        · exact abs_dctScale_le v
    _ = |a| / 4 := by ring

theorem abs_realForward_le {f : ℕ → ℕ → ℤ} {B : ℝ} (hf : ∀ i, i < 8 → ∀ j, j < 8 → |(f i j : ℝ)| ≤ B) (u v : ℕ) :
    |realForward f u v| ≤ 16 * B := by
  have hsum := abs_sum64_le fun i hi j hj => (abs_mul_cos_mul_cos_le (f i j)
    ((i + 1 / 2) * Real.pi * u / 8) ((j + 1 / 2) * Real.pi * v / 8)).trans (hf i hi j hj)
  have hscale := abs_dctScale_mul_le u v (∑ i ∈ Finset.range 8, ∑ j ∈ Finset.range 8,
    (f i j : ℝ) * Real.cos ((i + 1 / 2) * Real.pi * u / 8) * Real.cos ((j + 1 / 2) * Real.pi * v / 8))
  rw [realForward]
  linarith

theorem abs_realInverse_le {fd : ℕ → ℕ → ℤ} {B : ℝ} (hfd : ∀ u, u < 8 → ∀ v, v < 8 → |(fd u v : ℝ)| ≤ B) (x y : ℕ) :
    |realInverse fd x y| ≤ 16 * B := by
  have hsum := abs_sum64_le fun u hu v hv => (abs_mul_cos_mul_cos_le (dctScale u * dctScale v * fd u v)
    ((x + 1 / 2) * Real.pi * u / 8) ((y + 1 / 2) * Real.pi * v / 8)).trans
      ((abs_dctScale_mul_le u v _).trans (div_le_div_of_nonneg_right (hfd u hu v hv) four_pos.le))
  rw [realInverse]
  linarith

theorem abs_centred_le (b : Block) (k : ℕ) : |(centred b k : ℝ)| ≤ 128 := by
  have hlt : (tableGet b k).toNat < 256 := (tableGet b k).isLt
  have hle : |centred b k| ≤ 128 := by rw [centred, abs_le]; omega
  exact_mod_cast hle

/-- Every entry of a legal table is between 1 and 255 (00_scope.md R7). -/
theorem quantAt_bounds {c : Config} (h : c.wf = true) {u v : ℕ} (hu : u < 8) (hv : v < 8) :
    1 ≤ quantAt c u v ∧ quantAt c u v ≤ 255 := by
  have hk : v * 8 + u < c.qtab.toList.length := by rw [Vector.length_toList]; omega
  simp only [Config.wf, Bool.and_eq_true, List.all_eq_true, decide_eq_true_eq] at h
  obtain ⟨-, htable⟩ := h
  rw [quantAt, tableGet, List.getD_eq_getElem _ _ hk]
  exact htable _ (List.getElem_mem hk)

theorem abs_dequantised_le {c : Config} (h : c.wf = true) (b : Block) {u v : ℕ} (hu : u < 8) (hv : v < 8) :
    |(dequantised c b u v : ℝ)| ≤ 128 * 255 := by
  obtain ⟨-, hq⟩ := quantAt_bounds h hu hv
  have hqr : (quantAt c u v : ℝ) ≤ 255 := by exact_mod_cast hq
  rw [dequantised]
  push_cast
  rw [abs_mul, Nat.abs_cast]
  exact mul_le_mul (abs_centred_le _ _) hqr (Nat.cast_nonneg _) (by norm_num)

/-! ### The rounded coefficients and samples -/

theorem forwardRounded_ref64 {c : Config} (hnum : c.num = .ref64) (b : Block) (u v : ℕ) : forwardRounded c b u v =
    F64.rnd (F64.div (F64.forward (sampleAt b) u v) (F64.ofInt (quantAt c u v : ℕ))) := by
  rw [forwardRounded, hnum]

theorem inverseRounded_ref64 {c : Config} (hnum : c.num = .ref64) (b : Block) (x y : ℕ) :
    inverseRounded c b x y = F64.rnd (F64.inverse (dequantised c b) x y) := by
  rw [inverseRounded, hnum]

theorem forwardRounded_real {c : Config} (h : c.wf = true) (hnum : c.num = .real) (b : Block) {u v : ℕ} (hu : u < 8)
    (hv : v < 8) : forwardRounded c b u v = roundAway (realForward (sampleAt b) u v / quantAt c u v) := by
  obtain ⟨hq, -⟩ := quantAt_bounds h hu hv
  have hqr : (1 : ℝ) ≤ quantAt c u v := by exact_mod_cast hq
  have hquot : (Cos16.forward (sampleAt b) u v).toReal / (64 * quantAt c u v : ℕ)
      = realForward (sampleAt b) u v / quantAt c u v := by
    rw [Cos16.toReal_forward]; push_cast; rw [mul_div_mul_left _ _ (by norm_num)]
  have hF := abs_realForward_le (f := sampleAt b) (fun i _ j _ => abs_centred_le b (j * 8 + i)) u v
  have hbound : |realForward (sampleAt b) u v / quantAt c u v| < 2 ^ 23 := by
    rw [abs_div, Nat.abs_cast]
    have := div_le_self (abs_nonneg (realForward (sampleAt b) u v)) hqr
    linarith
  rw [forwardRounded, hnum]
  exact (Cos16.rndQuotient_eq_roundAway (by omega) (hquot ▸ hbound)).trans (congrArg roundAway hquot)

theorem inverseRounded_real {c : Config} (h : c.wf = true) (hnum : c.num = .real) (b : Block) (x y : ℕ) :
    inverseRounded c b x y = roundAway (realInverse (dequantised c b) x y) := by
  have hquot : (Cos16.inverse (dequantised c b) x y).toReal / (64 : ℕ) = realInverse (dequantised c b) x y := by
    rw [Cos16.toReal_inverse]; push_cast; ring
  have hbound := abs_realInverse_le (fd := dequantised c b) (fun u hu v hv => abs_dequantised_le h b hu hv) x y
  rw [inverseRounded, hnum]
  exact (Cos16.rndQuotient_eq_roundAway (by decide) (by rw [hquot]; linarith)).trans (congrArg roundAway hquot)

/-! ### The commands -/

theorem toNat_rebias (r : ℤ) : ((rebias r).toNat : ℤ) = (r + 128) % 256 := by
  rw [rebias, BitVec.toNat_ofNat]
  omega

/-- Element `v*8 + u` of a block is the element of column `u` and row `v`. -/
theorem tableGet_columnRow (f : ℕ → ℕ → Byte) {u v : ℕ} (hu : u < 8) (hv : v < 8) :
    tableGet (tableOf 64 fun k => f (k % 8) (k / 8)) (v * 8 + u) = f u v := by
  rw [tableGet_tableOf _ (by omega), show (v * 8 + u) % 8 = u by omega, show (v * 8 + u) / 8 = v by omega]

theorem tableGet_dctForward (c : Config) (b : Block) {u v : ℕ} (hu : u < 8) (hv : v < 8) :
    tableGet (dctForward c b) (v * 8 + u) = rebias (forwardRounded c b u v) :=
  tableGet_columnRow (fun u v => rebias (forwardRounded c b u v)) hu hv

theorem tableGet_dctInverse (c : Config) (b : Block) {x y : ℕ} (hx : x < 8) (hy : y < 8) :
    tableGet (dctInverse c b) (y * 8 + x) = rebias (inverseRounded c b x y) :=
  tableGet_columnRow (fun x y => rebias (inverseRounded c b x y)) hx hy

theorem exec_dctFwd (s : State) : exec .dctFwd s = .next { s with blk := dctForward s.cfg s.blk } := rfl

theorem exec_dctInv (s : State) : exec .dctInv s = .next { s with blk := dctInverse s.cfg s.blk } := rfl

/-- Settles O25: the tower computes `64 * F(u,v)`, and its rounded quotient is that of the real number. -/
theorem dctForwardReal : Obligations.DctForwardReal := by
  intro s hwf hnum
  refine ⟨_, exec_dctFwd s, rfl, fun u v hu hv => ⟨_, _, isForwardDct_realForward _ u v, roundsReal_roundAway _, ?_⟩⟩
  rw [tableGet_dctForward s.cfg s.blk hu hv, toNat_rebias, forwardRounded_real hwf hnum s.blk hu hv]
  rfl

/-- Settles O26: the tower computes `64 * g(x,y)`, and its rounding is that of the real number. -/
theorem dctInverseReal : Obligations.DctInverseReal := by
  intro s hwf hnum
  refine ⟨_, exec_dctInv s, rfl, fun x y hx hy => ⟨_, _, isInverseDct_realInverse _ x y, roundsReal_roundAway _, ?_⟩⟩
  rw [tableGet_dctInverse s.cfg s.blk hx hy, toNat_rebias, inverseRounded_real hwf hnum s.blk x y]
  rfl

end Sys2Proof.Machine
end

section
/-! PROOFS. The transform under `NUM = REF64`, and the block that either transform keeps (41_block_transform.md R150, R151,
R156). -/

namespace Sys2Proof.Machine

/-! ### The order of the sums (41_block_transform.md R150, R151) -/

/-- The nested sum is one sum over the pairs of indices, outer index first. -/
theorem F64.sum64_eq_foldl (term : ℕ → ℕ → F64) :
    F64.sum64 term = ((List.range 8).flatMap fun i => (List.range 8).map fun j => (i, j)).foldl
      (fun sum p => F64.add sum (term p.1 p.2)) F64.zero := by
  simp only [F64.sum64, List.foldl_flatMap, List.foldl_map]

/-- Settles O23: the model's nested sum is the sum of the rule. -/
theorem dctForwardRef64 : Obligations.DctForwardRef64 := by
  refine ⟨rfl, fun s => ⟨_, exec_dctFwd s, rfl, fun hnum u v hu hv => ?_⟩⟩
  rw [tableGet_dctForward s.cfg s.blk hu hv, forwardRounded_ref64 hnum, F64.forward, F64.sum64_eq_foldl]
  rfl

/-- Settles O24: the model's nested sum is the sum of the rule. -/
theorem dctInverseRef64 : Obligations.DctInverseRef64 := by
  refine ⟨rfl, fun s => ⟨_, exec_dctInv s, rfl, fun hnum x y hx hy => ?_⟩⟩
  rw [tableGet_dctInverse s.cfg s.blk hx hy, inverseRounded_ref64 hnum, F64.inverse, F64.sum64_eq_foldl]
  rfl

/-! ### Zeros in binary64 -/

namespace F64

/-- The number nearest to 0 is 0. -/
theorem IsNearest.value_eq_zero {r : F64} (h : r.IsNearest 0) : r.value = 0 := by
  obtain ⟨-, hnear, -⟩ := h
  simpa [value, zero] using hnear zero (by decide)

@[simp] theorem value_zero : zero.value = 0 := by simp [value, zero]

theorem value_mul_eq_zero {a b : F64} (h : a.value * b.value = 0) : (mul a b).value = 0 :=
  IsNearest.value_eq_zero (h ▸ mul_isNearest a b)

theorem value_add_eq_zero {a b : F64} (h : a.value + b.value = 0) : (add a b).value = 0 :=
  IsNearest.value_eq_zero (h ▸ add_isNearest a b)

theorem value_div_eq_zero {a b : F64} (h : a.value = 0) (hb : 0 < b.mant) (hb' : b.mant ≤ 2 ^ 53) :
    (div a b).value = 0 := by
  refine IsNearest.value_eq_zero ?_
  have hdiv := div_isNearest a hb hb'
  rwa [h, zero_div] at hdiv

theorem value_sum64_eq_zero {term : ℕ → ℕ → F64} (h : ∀ i, i < 8 → ∀ j, j < 8 → (term i j).value = 0) :
    (sum64 term).value = 0 := by
  refine List.foldlRecOn (motive := fun s : F64 => s.value = 0) _ _ value_zero fun s hs i hi => ?_
  refine List.foldlRecOn (motive := fun s : F64 => s.value = 0) _ _ hs fun s hs j hj => ?_
  exact value_add_eq_zero (by rw [hs, h i (List.mem_range.1 hi) j (List.mem_range.1 hj), add_zero])

theorem value_forward_eq_zero {f : ℕ → ℕ → ℤ} (h : ∀ i, i < 8 → ∀ j, j < 8 → f i j = 0) (u v : ℕ) :
    (forward f u v).value = 0 := by
  have hterm (i : ℕ) (hi : i < 8) (j : ℕ) (hj : j < 8) :
      (mul (mul (ofInt (f i j)) (cosine i u)) (cosine j v)).value = 0 := by
    have hf : (ofInt (f i j)).value = 0 := by rw [ofInt_value, h i hi j hj, Int.cast_zero]
    have hcos : (mul (ofInt (f i j)) (cosine i u)).value = 0 := value_mul_eq_zero (by rw [hf, zero_mul])
    exact value_mul_eq_zero (by rw [hcos, zero_mul])
  exact value_mul_eq_zero (by rw [value_sum64_eq_zero hterm, mul_zero])

theorem value_inverse_eq_zero {fd : ℕ → ℕ → ℤ} (h : ∀ u, u < 8 → ∀ v, v < 8 → fd u v = 0) (x y : ℕ) :
    (inverse fd x y).value = 0 := by
  refine value_sum64_eq_zero fun u hu v hv => ?_
  have hfd : (ofInt (fd u v)).value = 0 := by rw [ofInt_value, h u hu v hv, Int.cast_zero]
  have hscaled : (mul (mul (scale u) (scale v)) (ofInt (fd u v))).value = 0 := value_mul_eq_zero (by rw [hfd, mul_zero])
  have hcos : (mul (mul (mul (scale u) (scale v)) (ofInt (fd u v))) (cosine x u)).value = 0 :=
    value_mul_eq_zero (by rw [hscaled, zero_mul])
  exact value_mul_eq_zero (by rw [hcos, zero_mul])

end F64

/-! ### A grey block (41_block_transform.md R156) -/

theorem forwardRounded_eq_zero {c : Config} {b : Block} (h : c.wf = true) (hb : ∀ k, k < 64 → centred b k = 0) {u v : ℕ}
    (hu : u < 8) (hv : v < 8) : forwardRounded c b u v = 0 := by
  have hf (i : ℕ) (hi : i < 8) (j : ℕ) (hj : j < 8) : sampleAt b i j = 0 := hb _ (by omega)
  cases hnum : c.num with
  | ref64 =>
    obtain ⟨hq, hq'⟩ := quantAt_bounds h hu hv
    have hmant : (F64.ofInt (quantAt c u v : ℕ)).mant = quantAt c u v := rfl
    have hzero := F64.value_div_eq_zero (b := F64.ofInt (quantAt c u v : ℕ)) (F64.value_forward_eq_zero hf u v)
      (by omega) (by omega)
    rw [forwardRounded_ref64 hnum, rnd_eq_roundAway, hzero, roundAway_zero]
  | real =>
    have hF := abs_realForward_le (f := sampleAt b) (B := 0) (fun i hi j hj => by rw [hf i hi j hj]; simp) u v
    rw [mul_zero, abs_nonpos_iff] at hF
    rw [forwardRounded_real h hnum b hu hv, hF, zero_div, roundAway_zero]

theorem inverseRounded_eq_zero {c : Config} {b : Block} (h : c.wf = true) (hb : ∀ k, k < 64 → centred b k = 0) (x y : ℕ) :
    inverseRounded c b x y = 0 := by
  have hfd (u : ℕ) (hu : u < 8) (v : ℕ) (hv : v < 8) : dequantised c b u v = 0 := by
    rw [dequantised, hb _ (by omega), zero_mul]
  cases hnum : c.num with
  | ref64 =>
    rw [inverseRounded_ref64 hnum, rnd_eq_roundAway, F64.value_inverse_eq_zero hfd, roundAway_zero]
  | real =>
    have hg := abs_realInverse_le (fd := dequantised c b) (B := 0) (fun u hu v hv => by rw [hfd u hu v hv]; simp) x y
    rw [mul_zero, abs_nonpos_iff] at hg
    rw [inverseRounded_real h hnum b x y, hg, roundAway_zero]

section
variable {c : Config} {b : Block} (h : c.wf = true) (hb : ∀ k, k < 64 → tableGet b k = 128#8)
include h hb

theorem dctForward_grey : dctForward c b = b := by
  refine table_ext fun k hk => ?_
  have hr := forwardRounded_eq_zero h (fun k hk => by rw [centred, hb k hk]; rfl) (u := k % 8) (v := k / 8)
    (by omega) (by omega)
  rw [dctForward, tableGet_tableOf _ hk, hr, hb k hk]
  rfl

theorem dctInverse_grey : dctInverse c b = b := by
  refine table_ext fun k hk => ?_
  have hr := inverseRounded_eq_zero h (fun k hk => by rw [centred, hb k hk]; rfl) (k % 8) (k / 8)
  rw [dctInverse, tableGet_tableOf _ hk, hr, hb k hk]
  rfl

end

/-- Settles O27: every centred byte is 0, so every coefficient and every sample is 0, which is stored as 128. -/
theorem greyBlockIsFixedPoint : Obligations.GreyBlockIsFixedPoint := by
  intro s hwf hgrey
  rw [exec_dctFwd, exec_dctInv, dctForward_grey hwf hgrey, dctInverse_grey hwf hgrey]
  exact ⟨rfl, rfl⟩

end Sys2Proof.Machine
end

section
/-! PROOFS. The cosine and scale constants are the nearest binary64 numbers (41_block_transform.md R148, R149). -/

namespace Sys2Proof.Machine
namespace F64

/-- `x` lies within half a unit in the last place of `r`. -/
def WithinHalfUlp (x : F64) (r : ℝ) : Prop := |(x.value : ℝ) - r| ≤ 2 ^ (x.exp - 1)

theorem WithinHalfUlp.negate {x : F64} {r : ℝ} (h : x.WithinHalfUlp r) : x.negate.WithinHalfUlp (-r) := by
  rw [WithinHalfUlp, value_negate, Rat.cast_neg, neg_sub_neg, abs_sub_comm]
  exact h

/-- `q * 2^(-p)` is within half a unit of half of `x`, decided by exact signs: `2q - 1 ≤ x * 2^p ≤ 2q + 1`. -/
def nearHalf (q p : ℕ) (x : Cos16) : Bool :=
  0 ≤ ((x.mul (.ofInt (2 ^ p))).add (.ofInt (1 - 2 * q))).sign
    && 0 ≤ ((x.mul (.ofInt (2 ^ p))).negate.add (.ofInt (2 * q + 1))).sign

theorem withinHalfUlp_of_nearHalf {q p : ℕ} {x : Cos16} (h : nearHalf q p x = true) :
    WithinHalfUlp ⟨false, q, -p⟩ (x.toReal / 2) := by
  rw [nearHalf, Bool.and_eq_true, decide_eq_true_iff, decide_eq_true_iff, Cos16.sign_nonneg_iff, Cos16.sign_nonneg_iff] at h
  simp only [Cos16.toReal_add, Cos16.toReal_negate, Cos16.toReal_mul, Cos16.toReal_ofInt] at h
  push_cast at h
  obtain ⟨hlo, hhi⟩ := h
  have hpow : (0 : ℝ) < 2 ^ p := by positivity
  have hulp : (2 : ℝ) ^ (-(p : ℤ) - 1) = 1 / (2 * 2 ^ p) := by
    rw [zpow_sub_one₀ two_ne_zero, zpow_neg, zpow_natCast]; field_simp
  have hdiff : ((value ⟨false, q, -p⟩ : ℚ) : ℝ) - x.toReal / 2 = (2 * q - x.toReal * 2 ^ p) / (2 * 2 ^ p) := by
    rw [value_of_not_neg]; push_cast; rw [zpow_neg, zpow_natCast]; field_simp
  rw [WithinHalfUlp, hulp, hdiff, abs_div, abs_of_pos (show (0 : ℝ) < 2 * 2 ^ p by positivity)]
  gcongr
  rw [abs_le]
  constructor <;> linarith

theorem cs_withinHalfUlp {m : ℕ} (hm : m ≤ 8) : (cs m).WithinHalfUlp (cosSixteenth m) := by
  have hcs : ∀ m, m ≤ 8 → cs m = ⟨false, (cs m).mant, -((-(cs m).exp).toNat : ℕ)⟩
      ∧ nearHalf (cs m).mant (-(cs m).exp).toNat (Cos16.twoCos m) = true := by decide
  obtain ⟨hform, hnear⟩ := hcs m hm
  have h := withinHalfUlp_of_nearHalf hnear
  rwa [← hform, Cos16.toReal_twoCos hm, mul_div_cancel_left₀ _ two_ne_zero] at h

theorem cosine_withinHalfUlp (k u : ℕ) :
    (cosine k u).WithinHalfUlp (Real.cos ((k + 1 / 2) * Real.pi * u / 8)) := by
  rw [cos_eq_cosSixteenth]
  exact reduceAngle_spec WithinHalfUlp (fun _ => cs_withinHalfUlp) (fun _ _ => WithinHalfUlp.negate) _

/-- `C0` is half of `CS[4]`, as `√(1/8)` is half of `cos(π/4)`. -/
theorem scale_zero_withinHalfUlp : (scale 0).WithinHalfUlp √(1 / 8) := by
  have hvalue : (scale 0).value = (cs 4).value / 2 := by norm_num [scale, cs, value]
  have hexp : (scale 0).exp = (cs 4).exp - 1 := rfl
  have h : |((cs 4).value : ℝ) - cosSixteenth 4| ≤ _ := cs_withinHalfUlp (show 4 ≤ 8 by decide)
  rw [WithinHalfUlp, hvalue, hexp, sqrt_one_eighth_eq_cosSixteenth, Rat.cast_div, Rat.cast_ofNat, ← sub_div, abs_div,
    abs_two, zpow_sub_one₀ two_ne_zero, ← div_eq_mul_inv]
  gcongr

theorem scale_value_of_pos {k : ℕ} (hk : 0 < k) : (scale k).value = 1 / 2 := by
  rw [scale, if_neg hk.ne']
  norm_num [value]

end F64

/-- Settles O30: the exact signs of the tower decide that each constant is within half a unit of its cosine. -/
theorem cosineConstantsAreNearest : Obligations.CosineConstantsAreNearest := by
  have hnormal : ∀ m, m < 8 → 2 ^ 52 ≤ (F64.cs m).mant ∧ (F64.cs m).mant < 2 ^ 53 := by decide
  refine ⟨fun m hm => ?_, ⟨by decide, by decide, F64.scale_zero_withinHalfUlp⟩, fun k => F64.scale_value_of_pos,
    fun k u _ _ => F64.cosine_withinHalfUlp k u⟩
  obtain ⟨hlo, hhi⟩ := hnormal m hm
  exact ⟨hlo, hhi, F64.cs_withinHalfUlp hm.le⟩

end Sys2Proof.Machine
end

section
/-! PROOFS. The block commands that move a luma tile (41_block_transform.md R158, R159). -/

namespace Sys2Proof.Machine

/-! ### The elements of a tile -/

theorem tileAddr_columnRow (w tx ty : ℕ) {i : ℕ} (hi : i < 8) (j : ℕ) :
    tileAddr w tx ty (j * 8 + i) = yaddr w (8 * tx + i) (8 * ty + j) := by
  rw [tileAddr, show (j * 8 + i) % 8 = i by omega, show (j * 8 + i) / 8 = j by omega]

/-- An element of the tile holds its byte of the block after a scatter (41_block_transform.md R159). -/
theorem holdsAt_scatterTile (s : State) {tx : ℕ} (ty : ℕ) (b : Block) (hw : s.width.toNat % 2 = 0)
    (hx : tx < s.width.toNat / 8) {k : ℕ} (hk : k < 64) :
    HoldsAt (s.scatterTile tx ty b).frame (tileAddr s.width.toNat tx ty k) (tableGet b k) :=
  holdsAt_scatterElements s.frame b hw hx (fun _ => List.mem_range.1) List.nodup_range (List.mem_range.2 hk)

theorem sameAt_scatterTile (s : State) (tx ty : ℕ) (b : Block) {a : ℕ}
    (h : ∀ k, k < 64 → a ≠ tileAddr s.width.toNat tx ty k) : SameAt (s.scatterTile tx ty b).frame s.frame a :=
  sameAt_scatterElements s.frame _ tx ty b _ fun k hk => h k (List.mem_range.1 hk)

/-- Scattering the gathered tile changes no byte. -/
theorem read_scatterTile_gatherTile (s : State) {tx : ℕ} (ty : ℕ) (hw : s.width.toNat % 2 = 0)
    (hx : tx < s.width.toNat / 8) (a : ℕ) :
    (s.scatterTile tx ty (s.gatherTile tx ty)).frame.read a = s.frame.read a := by
  by_cases h : ∃ k, k < 64 ∧ a = tileAddr s.width.toNat tx ty k
  · obtain ⟨k, hk, rfl⟩ := h
    rw [(holdsAt_scatterTile s ty _ hw hx hk).1]
    exact tableGet_gatherTile s tx ty hk
  · exact (sameAt_scatterTile s tx ty _ fun k hk ha => h ⟨k, hk, ha⟩).1

/-! ### The commands -/

theorem exec_blkLd (s : State) : exec .blkLd s = withGeometry (encode .blkLd) s (withTile (encode .blkLd) s
    (.next { s with blk := s.gatherTile s.tileCol s.tileRow })) := rfl

theorem exec_blkSt (s : State) : exec .blkSt s = withGeometry (encode .blkSt) s (withTile (encode .blkSt) s
    (.next (s.scatterTile s.tileCol s.tileRow s.blk))) := rfl

section
variable {i : Instr} {s : State} {rest : Result}
  (h : exec i s = withGeometry (encode i) s (withTile (encode i) s rest))
include h

theorem raisesGeometry_of_tileChecks : RaisesGeometry i s :=
  fun hg => h.trans (withGeometry_bad hg _ _)

theorem raisesTile_of_tileChecks : RaisesTile i s := by
  intro hg
  rw [withGeometry_ok hg] at h
  exact ⟨fun hx => h.trans (withTile_badX hx _ _), fun hx hy => h.trans (withTile_badY hx hy _ _)⟩

theorem exec_of_tileChecks (hg : GeometryOk s) (ht : TileOk s) : exec i s = rest := by
  rw [h, withGeometry_ok hg, withTile_ok ht]

end

/-- Settles O21: the element `j*8 + i` of the gathered tile is that of column `i` and row `j`. -/
theorem blkLdGathersTile : Obligations.BlkLdGathersTile := by
  refine ⟨rfl, fun s => ⟨raisesGeometry_of_tileChecks (exec_blkLd s), raisesTile_of_tileChecks (exec_blkLd s), fun hg ht =>
    ⟨_, exec_of_tileChecks (exec_blkLd s) hg ht, rfl, fun i j hi hj => ?_⟩⟩⟩
  rw [tableGet_gatherTile s _ _ (by omega), tileAddr_columnRow _ _ _ hi]
  rfl

/-- Settles O22: the 64 elements of a tile lie at 64 addresses, and a gathered tile holds what it is scattered to. -/
theorem blkStScattersTile : Obligations.BlkStScattersTile := by
  refine ⟨rfl, fun s => ⟨raisesGeometry_of_tileChecks (exec_blkSt s), raisesTile_of_tileChecks (exec_blkSt s),
    fun hg ht => ?_⟩⟩
  have ⟨hw, _⟩ := hg
  have ⟨hx, _⟩ := ht
  refine ⟨_, exec_of_tileChecks (exec_blkSt s) hg ht, rfl, fun i j hi hj => ?_, fun a ha => ?_, fun u v hu hv a => ?_⟩
  · rw [← tileAddr_columnRow _ _ _ hi]
    exact holdsAt_scatterTile s _ s.blk hw hx (by omega)
  · exact sameAt_scatterTile s _ _ s.blk fun k hk => ha (k % 8) (k / 8) (by omega) (by omega)
  · obtain rfl := next_inj ((exec_of_tileChecks (exec_blkLd s) hg ht).symm.trans hu)
    have hst := exec_of_tileChecks (exec_blkSt { s with blk := s.gatherTile s.tileCol s.tileRow }) hg ht
    obtain rfl := next_inj (hst.symm.trans hv)
    exact read_scatterTile_gatherTile s _ hw hx a

end Sys2Proof.Machine
end

section
/-! PROOFS. The six pixel accessors (42_frame.md R183 to R189). -/

namespace Sys2Proof.Machine

/-! ### The checks -/

/-- Every command that begins with the geometry check raises its fault (42_frame.md R180). -/
theorem raisesGeometry_of_check {i : Instr} {s : State} {rest : Result} (h : exec i s = withGeometry (encode i) s rest) :
    RaisesGeometry i s := fun hg => h.trans (withGeometry_bad hg _ _)

section
variable {i : Instr} {s : State} {rest : Result}
  (h : exec i s = withGeometry (encode i) s (withPixel (encode i) s rest))
include h

theorem raisesPixel_of_pixelChecks : RaisesPixel i s := by
  intro hg
  rw [withGeometry_ok hg] at h
  exact ⟨fun hx => h.trans (withPixel_badX hx _ _), fun hx hy => h.trans (withPixel_badY hx hy _ _)⟩

theorem exec_of_pixelChecks (hg : GeometryOk s) (hp : PixelOk s) : exec i s = rest := by
  rw [h, withGeometry_ok hg, withPixel_ok hp]

end

/-! ### Reading a sample -/

/-- In `s` the command `i` answers the byte of `FRAME` at `addr`. -/
def GetsSample (i : Instr) (s : State) (addr : ℕ) : Prop :=
  exec i s = withGeometry (encode i) s (withPixel (encode i) s (.next (s.setRes (s.frame.read addr))))

theorem getsSample_getY (s : State) : GetsSample .getY s s.yIndex := rfl

theorem getsSample_getU (s : State) : GetsSample .getU s s.uIndex := rfl

theorem getsSample_getV (s : State) : GetsSample .getV s s.vIndex := rfl

theorem GetsSample.exec_eq {i : Instr} {s : State} {addr : ℕ} (h : GetsSample i s addr) :
    RaisesGeometry i s ∧ RaisesPixel i s
      ∧ (GeometryOk s → PixelOk s → exec i s = .next { s with res := (s.frame.read addr).setWidth 32 }) :=
  ⟨raisesGeometry_of_check h, raisesPixel_of_pixelChecks h, exec_of_pixelChecks h⟩

/-- The four pixels of a group have its one index (20_memory.md R67). -/
theorem groupIndex_xor_one (w x y : ℕ) :
    groupIndex w (x ^^^ 1) y = groupIndex w x y ∧ groupIndex w x (y ^^^ 1) = groupIndex w x y := by
  have hhalf (n : ℕ) : (n ^^^ 1) / 2 = n / 2 := by rw [Nat.xor_div_two, Nat.div_eq_of_lt Nat.one_lt_two, Nat.xor_zero]
  rw [groupIndex, groupIndex, groupIndex, hhalf, hhalf]
  exact ⟨rfl, rfl⟩

/-- Settles O31: the checks in order, the sample in `RES`, and the one index of a group. -/
theorem getReturnsSample : Obligations.GetReturnsSample := by
  refine ⟨⟨rfl, rfl, rfl⟩, fun s => (getsSample_getY s).exec_eq, fun s => (getsSample_getU s).exec_eq,
    fun s => (getsSample_getV s).exec_eq, fun w h x y => ?_⟩
  obtain ⟨hx, hy⟩ := groupIndex_xor_one w x y
  rw [uaddr, uaddr, uaddr, vaddr, vaddr, vaddr, hx, hy]
  exact ⟨rfl, rfl, rfl, rfl⟩

/-! ### Writing a sample -/

/-- In `s` the command `i` writes the sample value to the byte of `FRAME` at `addr`. -/
def SetsSample (i : Instr) (s : State) (addr : ℕ) : Prop :=
  exec i s = withGeometry (encode i) s (withPixel (encode i) s (withSample (encode i) s
    (.next (s.setFrameByte addr s.sampleByte))))

theorem setsSample_setY (s : State) : SetsSample .setY s s.yIndex := rfl

theorem setsSample_setU (s : State) : SetsSample .setU s s.uIndex := rfl

theorem setsSample_setV (s : State) : SetsSample .setV s s.vIndex := rfl

theorem setsSample_of_mem {i : Instr} {s : State} {addr : ℕ}
    (h : (i, addr) ∈ [(.setY, s.yIndex), (.setU, s.uIndex), (.setV, s.vIndex)]) : SetsSample i s addr := by
  simp only [List.mem_cons, List.not_mem_nil, or_false, Prod.mk.injEq] at h
  obtain ⟨rfl, rfl⟩ | ⟨rfl, rfl⟩ | ⟨rfl, rfl⟩ := h
  · exact setsSample_setY s
  · exact setsSample_setU s
  · exact setsSample_setV s

theorem SetsSample.exec_eq {i : Instr} {s : State} {addr : ℕ} (h : SetsSample i s addr) (hg : GeometryOk s)
    (hp : PixelOk s) (hv : s.a2.toNat ≤ 255) : exec i s = .next (s.setFrameByte addr s.sampleByte) := by
  rw [exec_of_pixelChecks h hg hp, withSample_ok hv]

/-- Settles O32: the three checks in order, then one byte of `FRAME` written. -/
theorem setStoresSample : Obligations.SetStoresSample := by
  refine ⟨⟨rfl, rfl, rfl⟩, fun i s addr hi => ?_⟩
  have h : SetsSample i s addr := setsSample_of_mem hi
  exact ⟨raisesGeometry_of_check h, raisesPixel_of_pixelChecks h,
    fun hg hp hv => (exec_of_pixelChecks h hg hp).trans (withSample_bad hv _ _),
    fun hg hp hv => ⟨_, h.exec_eq hg hp hv, rfl, holdsAt_write s.frame addr _, fun a ha => sameAt_write s.frame _ ha⟩⟩

/-! ### The accessor laws -/

/-- A sample value of at most 255 is its byte zero-extended. -/
theorem setWidth_sampleByte {s : State} (hv : s.a2.toNat ≤ 255) : s.sampleByte.setWidth 32 = s.a2 := by
  refine BitVec.eq_of_toNat_eq ?_
  rw [State.sampleByte, State.sampleValue, BitVec.toNat_setWidth, BitVec.toNat_ofNat]
  omega

/-- A sample that is set reads back by the accessor of the same plane, and every other byte of `FRAME` is as before. -/
theorem SetsSample.read_back {i j : Instr} {s t : State} {addr : ℕ} (hset : SetsSample i s addr) (hg : GeometryOk s)
    (hp : PixelOk s) (hv : s.a2.toNat ≤ 255) (hget : GetsSample j (s.setFrameByte addr s.sampleByte) addr)
    (ht : exec i s = .next t) :
    (∃ u, exec j t = .next u ∧ u.res = s.a2) ∧ ∀ a, a ≠ addr → t.frame.read a = s.frame.read a := by
  obtain rfl := next_inj ((hset.exec_eq hg hp hv).symm.trans ht)
  refine ⟨⟨_, exec_of_pixelChecks hget hg hp, ?_⟩, fun a ha => Mem.read_write_other s.frame _ ha⟩
  rw [State.setRes_res, State.setFrameByte_frame, Mem.read_write_same, setWidth_sampleByte hv]

/-- Samples of two planes are different bytes (20_memory.md R69). -/
theorem planes_disjoint {w h x y x' y' : ℕ} (hw : w % 2 = 0) (hh : h % 2 = 0) (hx : x < w) (hy : y < h) (hx' : x' < w)
    (hy' : y' < h) : yaddr w x y ≠ uaddr w h x' y' ∧ yaddr w x y ≠ vaddr w h x' y' ∧ uaddr w h x y ≠ vaddr w h x' y' := by
  obtain ⟨hluma, -, hcb, -⟩ := (frameAddressesPartition w h hw hh).1 x y hx hy
  obtain ⟨-, hcb', -, hcr', -⟩ := (frameAddressesPartition w h hw hh).1 x' y' hx' hy'
  omega

/-- Settles O34: two samples that are not the same one lie at different bytes. -/
theorem setThenGet : Obligations.SetThenGet := by
  intro s t hg hp hv
  have ⟨hw, hh, _⟩ := hg
  have ⟨ha0, ha1⟩ := hp
  refine ⟨fun ht => ?_, fun ht => ?_, fun ht => ?_⟩
  · obtain ⟨hback, hother⟩ := (setsSample_setY s).read_back hg hp hv (getsSample_getY _) ht
    refine ⟨hback, fun x y hx hy => ⟨fun hne => hother _ fun h => hne ?_, hother _ ?_, hother _ ?_⟩⟩
    · obtain ⟨rfl, rfl⟩ := yaddr_inj hw hx ha0 h
      rfl
    · exact (planes_disjoint hw hh ha0 ha1 hx hy).1.symm
    · exact (planes_disjoint hw hh ha0 ha1 hx hy).2.1.symm
  · obtain ⟨hback, hother⟩ := (setsSample_setU s).read_back hg hp hv (getsSample_getU _) ht
    refine ⟨hback, fun x y hx hy => ⟨hother _ ?_, fun hne => hother _ fun h => hne ?_, hother _ ?_⟩⟩
    · exact (planes_disjoint hw hh hx hy ha0 ha1).1
    · have heq := groupIndex_inj hw hx ha0 (Nat.add_left_cancel h)
      exact Prod.ext heq.1 heq.2
    · exact (planes_disjoint hw hh ha0 ha1 hx hy).2.2.symm
  · obtain ⟨hback, hother⟩ := (setsSample_setV s).read_back hg hp hv (getsSample_getV _) ht
    refine ⟨hback, fun x y hx hy => ⟨hother _ ?_, hother _ ?_, fun hne => hother _ fun h => hne ?_⟩⟩
    · exact (planes_disjoint hw hh hx hy ha0 ha1).2.1
    · exact (planes_disjoint hw hh hx hy ha0 ha1).2.2
    · have heq := groupIndex_inj hw hx ha0 (Nat.add_left_cancel h)
      exact Prod.ext heq.1 heq.2

end Sys2Proof.Machine
end

section
/-! PROOFS. The frame-level transform commands, and the script of block commands they abbreviate (42_frame.md R190 to
R193). -/

namespace Sys2Proof.Machine

/-! ### The commands -/

theorem exec_frmFwd (s : State) :
    exec .frmFwd s = withGeometry (encode .frmFwd) s (.next (s.transformFrame (dctForward s.cfg))) := rfl

theorem exec_frmInv (s : State) :
    exec .frmInv s = withGeometry (encode .frmInv) s (.next (s.transformFrame (dctInverse s.cfg))) := rfl

/-- The command `i` puts every tile of the frame through the block transform `f` (42_frame.md R190, R191). -/
def TransformsFrameBy (i : Instr) (f : Config → Block → Block) : Prop :=
  ∀ s, exec i s = withGeometry (encode i) s (.next (s.transformFrame (f s.cfg)))

theorem transformsFrameBy_of_mem {i : Instr} {f : Config → Block → Block}
    (h : (i, f) ∈ [(.frmFwd, dctForward), (.frmInv, dctInverse)]) : TransformsFrameBy i f := by
  rw [List.mem_pair, Prod.mk.injEq, Prod.mk.injEq] at h
  obtain ⟨rfl, rfl⟩ | ⟨rfl, rfl⟩ := h
  · exact exec_frmFwd
  · exact exec_frmInv

/-! ### The order of the tiles -/

/-- A frame with no whole tile has none to go through (42_frame.md R190). -/
theorem tileOrder_eq_nil {tw th : ℕ} (h : tw = 0 ∨ th = 0) : tileOrder tw th = [] := by
  refine List.eq_nil_iff_forall_not_mem.2 fun p hp => ?_
  have := mem_tileOrder.1 hp
  omega

/-- The last tile is the last of the last row (42_frame.md R182). -/
theorem exists_tileOrder_eq_append_last (m n : ℕ) : ∃ ts, tileOrder (m + 1) (n + 1) = ts ++ [(m, n)] := by
  refine ⟨tileOrder (m + 1) n ++ (List.range m).map (·, n), ?_⟩
  simp [tileOrder, List.range_succ]

/-! ### Every tile -/

section
variable {s : State} (hw : s.width.toNat % 2 = 0) (f : Block → Block)
include hw

theorem holdsAt_transformFrame {tx ty k : ℕ} (hx : tx < s.width.toNat / 8) (hy : ty < s.height.toNat / 8) (hk : k < 64) :
    HoldsAt (s.transformFrame f).frame (tileAddr s.width.toNat tx ty k) (tableGet (f (s.gatherTile tx ty)) k) :=
  holdsAt_foldTiles f _ s hw (fun _ ht => (mem_tileOrder.1 ht).1) (nodup_tileOrder _ _)
    (mem_tileOrder.2 (show (tx, ty).1 < _ ∧ (tx, ty).2 < _ from ⟨hx, hy⟩)) hk

theorem blk_transformFrame (hx : 0 < s.width.toNat / 8) (hy : 0 < s.height.toNat / 8) :
    (s.transformFrame f).blk = f (s.gatherTile (s.width.toNat / 8 - 1) (s.height.toNat / 8 - 1)) := by
  obtain ⟨ts, hts⟩ := exists_tileOrder_eq_append_last (s.width.toNat / 8 - 1) (s.height.toNat / 8 - 1)
  rw [Nat.sub_add_cancel hx, Nat.sub_add_cancel hy] at hts
  have hmem : ∀ t ∈ ts ++ [_], t.1 < s.width.toNat / 8 := fun t ht => (mem_tileOrder.1 (hts ▸ ht)).1
  have hlast := blk_foldTiles f ts s hw _ hmem (hts ▸ nodup_tileOrder _ _)
  rwa [← hts] at hlast

end

/-- A byte that is no pixel of a whole tile is as before (42_frame.md R193). -/
theorem sameAt_transformFrame {s : State} (f : Block → Block) {a : ℕ}
    (h : ∀ x y, x < 8 * (s.width.toNat / 8) → y < 8 * (s.height.toNat / 8) → a ≠ yaddr s.width.toNat x y) :
    SameAt (s.transformFrame f).frame s.frame a :=
  sameAt_foldTiles f _ s fun t ht k hk => by
    obtain ⟨hx, hy⟩ := mem_tileOrder.1 ht
    rw [State.tilesWide, State.frameW] at hx
    rw [State.tilesHigh, State.frameH] at hy
    exact h _ _ (by omega) (by omega)

theorem transformFrame_of_no_tile {s : State} (f : Block → Block) (h : s.width.toNat / 8 = 0 ∨ s.height.toNat / 8 = 0) :
    s.transformFrame f = s := by
  have hnil : tileOrder s.tilesWide s.tilesHigh = [] := tileOrder_eq_nil h
  rw [State.transformFrame, hnil, List.foldl_nil]

/-- Settles O35: the loop over the tiles in order, no two of which share a byte. -/
theorem frameCommandsTransformEveryTile : Obligations.FrameCommandsTransformEveryTile := by
  refine ⟨⟨rfl, rfl⟩, fun i f s hi => ?_⟩
  have hexec := transformsFrameBy_of_mem hi s
  refine ⟨raisesGeometry_of_check hexec, fun hg => ?_⟩
  rw [withGeometry_ok hg] at hexec
  exact ⟨_, hexec, transformFrame_eq _ s, fun tx ty k => holdsAt_transformFrame hg.1 _,
    fun a => sameAt_transformFrame _, transformFrame_of_no_tile _, blk_transformFrame hg.1 _⟩

/-! ### What may change -/

/-- The indices of the pixels of whole tiles, as the image of a grid of pixels. -/
theorem tilePixels_eq_image (w m n : ℕ) : {a | ∃ x y, x < m ∧ y < n ∧ a = yaddr w x y} =
    (fun p : ℕ × ℕ => yaddr w p.1 p.2) '' (Finset.range m ×ˢ Finset.range n : Finset (ℕ × ℕ)) := by
  ext a
  constructor
  · rintro ⟨x, y, hx, hy, rfl⟩
    exact ⟨(x, y), by simp [hx, hy], rfl⟩
  · rintro ⟨p, hp, rfl⟩
    have hp' : p.1 < m ∧ p.2 < n := by simpa using hp
    exact ⟨p.1, p.2, hp'.1, hp'.2, rfl⟩

/-- A grid of pixels within an even width has one byte for each pixel (20_memory.md R69). -/
theorem ncard_tilePixels {w m : ℕ} (n : ℕ) (hw : w % 2 = 0) (hm : m ≤ w) :
    Set.ncard {a | ∃ x y, x < m ∧ y < n ∧ a = yaddr w x y} = m * n := by
  have hinj : Set.InjOn (fun p : ℕ × ℕ => yaddr w p.1 p.2) (Finset.range m ×ˢ Finset.range n : Finset (ℕ × ℕ)) := by
    intro p hp q hq h
    have hp' : p.1 < m ∧ p.2 < n := by simpa using hp
    have hq' : q.1 < m ∧ q.2 < n := by simpa using hq
    have heq := yaddr_inj hw (by omega) (by omega) h
    exact Prod.ext heq.1 heq.2
  rw [tilePixels_eq_image, hinj.ncard_image, Set.ncard_coe_finset, Finset.card_product, Finset.card_range,
    Finset.card_range]

/-- In a frame of whole tiles a pixel is in the tile of its column and row divided by 8, and in no other. -/
theorem existsUnique_tile {w h x y : ℕ} (hw : w % 8 = 0) (hh : h % 8 = 0) (hx : x < w) (hy : y < h) :
    ∃! p : ℕ × ℕ, p ∈ tileOrder (w / 8) (h / 8) ∧ 8 * p.1 ≤ x ∧ x < 8 * p.1 + 8 ∧ 8 * p.2 ≤ y ∧ y < 8 * p.2 + 8 := by
  refine ⟨(x / 8, y / 8), ⟨mem_tileOrder.2 ?_, ?_⟩, ?_⟩
  · dsimp only
    omega
  · dsimp only
    omega
  · rintro ⟨tx, ty⟩ ⟨-, hp⟩
    rw [Prod.mk.injEq]
    dsimp only at hp
    omega

theorem exists_transformsFrameBy {i : Instr} (h : i ∈ [.frmFwd, .frmInv]) : ∃ f, TransformsFrameBy i f := by
  obtain rfl | rfl := List.mem_pair.1 h
  · exact ⟨_, exec_frmFwd⟩
  · exact ⟨_, exec_frmInv⟩

/-- Settles O36: a byte that is no pixel of a whole tile is the same after the loop and after a fault. -/
theorem frameCommandsChangeOnlyTiles : Obligations.FrameCommandsChangeOnlyTiles := by
  intro i s t hi hexec
  refine ⟨fun a hne => ?_, fun ⟨hw, _⟩ => ?_, fun hw hh x y => existsUnique_tile hw hh⟩
  · by_contra hout
    obtain ⟨f, hf⟩ := exists_transformsFrameBy hi
    rw [hf s] at hexec
    obtain ⟨_, rfl⟩ | ⟨_, hnext⟩ := withGeometry_next hexec
    · exact hne rfl
    · obtain rfl := next_inj hnext
      exact hne (sameAt_transformFrame _ fun x y hx hy ha => hout ⟨x, y, hx, hy, ha⟩).1
  · rw [ncard_tilePixels _ hw (by omega)]
    ring

/-! ### The script of block commands (42_frame.md R192) -/

/-- `s` with other values in `A0` and `A1`. -/
def State.withOperands (s : State) (x y : Word) : State := { s with a0 := x, a1 := y }

theorem tileScript_cons (j : Instr) (t : ℕ × ℕ) (ts : List (ℕ × ℕ)) :
    tileScript j (t :: ts) = tileScript j [t] ++ tileScript j ts := by simp [tileScript]

/-- The two register lines of the script of a tile. -/
theorem runScript_writeOperands {s : State} (hb : s.busy = false) (x y x' y' : Word) (rest : List HostAction) :
    runScript (.writeReg 4 x' :: .writeReg 5 y' :: rest) (s.withOperands x y) = runScript rest (s.withOperands x' y') := by
  have hwrite (n : ℕ) (v u w : Word) :
      hostStep (.writeReg n v) (s.withOperands u w) = .next ((s.withOperands u w).writeReg n v) :=
    hostStep_not_busy (s := s.withOperands u w) hb _
  rw [runScript_cons (hwrite 4 x' x y)]
  exact runScript_cons (hwrite 5 y' x' y)

/-- The command `j` puts `BLK` through the block transform `f` (41_block_transform.md R160, R163). -/
def TransformsBlockBy (j : Instr) (f : Config → Block → Block) : Prop :=
  ∀ s, exec j s = .next { s with blk := f s.cfg s.blk }

/-- The frame command and the block command of R192 share their transform. -/
theorem exists_transform_of_mem {i j : Instr} (h : (i, j) ∈ [(.frmFwd, .dctFwd), (.frmInv, .dctInv)]) :
    ∃ f, TransformsFrameBy i f ∧ TransformsBlockBy j f := by
  rw [List.mem_pair, Prod.mk.injEq, Prod.mk.injEq] at h
  obtain ⟨rfl, rfl⟩ | ⟨rfl, rfl⟩ := h
  · exact ⟨_, exec_frmFwd, exec_dctFwd⟩
  · exact ⟨_, exec_frmInv, exec_dctInv⟩

section
variable {j : Instr} {f : Config → Block → Block} (hj : TransformsBlockBy j f)
include hj

/-- `BLK_LD`, the block command and `BLK_ST` do to the tile of the operands what the loop does to it. -/
theorem runScript_blockCommands {s : State} (hg : GeometryOk s) (ht : TileOk s) (hf : s.fault = false)
    (hb : s.busy = false) : runScript [cmdLine .blkLd, cmdLine j, cmdLine .blkSt] s =
      .next (State.transformTile (f s.cfg) s (s.tileCol, s.tileRow)) := by
  have hstep (k : Instr) (b : Block) : hostStep (cmdLine k) { s with blk := b } = exec k { s with blk := b } :=
    hostStep_cmdLine (s := { s with blk := b }) hb hf k
  have hld := exec_of_tileChecks (exec_blkLd s) hg ht
  have hst (b : Block) := exec_of_tileChecks (exec_blkSt { s with blk := b }) hg ht
  rw [runScript_cons ((hstep .blkLd s.blk).trans hld), runScript_cons ((hstep j _).trans (hj _)),
    runScript_cons ((hstep .blkSt _).trans (hst _))]
  rfl

/-- The script of one tile does what the loop does to it. -/
theorem runScript_tile {s : State} (hg : GeometryOk s) (hf : s.fault = false) (hb : s.busy = false) (x y : Word)
    {t : ℕ × ℕ} (hx : t.1 < s.width.toNat / 8) (hy : t.2 < s.height.toNat / 8) :
    runScript (tileScript j [t]) (s.withOperands x y) = .next
      ((State.transformTile (f s.cfg) s t).withOperands (BitVec.ofNat 32 t.1) (BitVec.ofNat 32 t.2)) := by
  have hx' : (BitVec.ofNat 32 t.1).toNat = t.1 := Nat.mod_eq_of_lt (by omega)
  have hy' : (BitVec.ofNat 32 t.2).toNat = t.2 := Nat.mod_eq_of_lt (by omega)
  set u := s.withOperands (BitVec.ofNat 32 t.1) (BitVec.ofNat 32 t.2)
  have htile : (u.tileCol, u.tileRow) = t := Prod.ext hx' hy'
  have ht : TileOk u := ⟨hx'.symm ▸ hx, hy'.symm ▸ hy⟩
  have hcommands := runScript_blockCommands hj (s := u) hg ht hf hb
  rw [htile] at hcommands
  exact (runScript_writeOperands hb x y _ _ _).trans hcommands

/-- The script over a list of tiles is the loop over it, but for `A0` and `A1`. -/
theorem runScript_tileScript (ts : List (ℕ × ℕ)) {s : State} (hg : GeometryOk s) (hf : s.fault = false)
    (hb : s.busy = false) (hts : ∀ t ∈ ts, t.1 < s.width.toNat / 8 ∧ t.2 < s.height.toNat / 8) (x y : Word) :
    ∃ x' y', runScript (tileScript j ts) (s.withOperands x y) =
      .next ((ts.foldl (State.transformTile (f s.cfg)) s).withOperands x' y') := by
  induction ts generalizing s x y with
  | nil => exact ⟨x, y, rfl⟩
  | cons t ts ih =>
    obtain ⟨hx, hy⟩ := hts t List.mem_cons_self
    rw [tileScript_cons, runScript_append (runScript_tile hj hg hf hb x y hx hy)]
    exact ih (s := State.transformTile (f s.cfg) s t) hg hf hb (fun q hq => hts q (List.mem_cons_of_mem _ hq)) _ _

end

/-- Settles O37: a simulation over the list of tiles, tile by tile. -/
theorem frameCommandEqualsBlockScript : Obligations.FrameCommandEqualsBlockScript := by
  intro i j s hij hg hf hb
  obtain ⟨f, hi, hj⟩ := exists_transform_of_mem hij
  obtain ⟨x, y, hrun⟩ := runScript_tileScript hj (tileOrder s.tilesWide s.tilesHigh) hg hf hb
    (fun t => mem_tileOrder.1) s.a0 s.a1
  have hfields := transformFrame_eq (f s.cfg) s
  exact ⟨s.transformFrame (f s.cfg), _, (hi s).trans (withGeometry_ok hg _ _), hrun, rfl, by rw [hfields], by rw [hfields]⟩

end Sys2Proof.Machine
end

section
/-! PROOFS. The build: what one extraction takes, the finished tree, and the bound of eight data bits a byte
(43_huffman.md R205 to R209, R214). -/

namespace Sys2Proof.Machine

/-! ### Minimum extraction -/

/-- Settles O38: the elements before the minimum and after it (`extractMin_split`) give its index. -/
theorem extractMinTakesFirstMinimum : Obligations.ExtractMinTakesFirstMinimum := by
  intro x xs m rest h
  obtain ⟨l, r, hlist, hrest, hbefore, -⟩ := extractMin_split x xs
  have hmin := fun y => extractMin_le x xs (y := y)
  rw [h] at hlist hrest hbefore hmin
  dsimp only at hlist hrest hbefore hmin
  refine ⟨l.length, by simp [hlist], ?_, fun j y hy => hmin y (List.mem_of_getElem? hy), fun j y hj hy => ?_⟩
  · rw [hlist, hrest, List.eraseIdx_append_of_length_le le_rfl, Nat.sub_self, List.eraseIdx_cons_zero]
  · rw [hlist, List.getElem?_append_left hj] at hy
    exact hbefore y (List.mem_of_getElem? hy)

/-! ### The finished tree -/

/-- What stands before the last merge: two nodes, the lighter of which becomes the left child of the root, number 510. -/
theorem exists_last_merge (d : List Byte) :
    ∃ a b, (mergeFrom 254 0 ⟨initialWork d, []⟩).work.Perm [a, b] ∧ a.weight ≤ b.weight
      ∧ (finishedBuild d).work = [⟨510, a.weight + b.weight, .node a.tree b.tree⟩] := by
  have hinv := buildInv_mergeFrom (initial_buildInv d) (n := 254) (by decide)
  rw [Nat.zero_add] at hinv
  have hlen : (mergeFrom 254 0 ⟨initialWork d, []⟩).work.length = 2 := by
    have := hinv.length
    omega
  obtain ⟨a, b, rest, hperm, hmin, -, hmerge⟩ := mergeOnce_spec (0 + 254) hlen.ge
  obtain rfl : rest = [] := by
    have := hperm.length_eq
    rw [hlen, List.length_cons, List.length_cons] at this
    exact List.length_eq_zero_iff.1 (by omega)
  refine ⟨a, b, hperm, hmin b List.mem_cons_self, ?_⟩
  rw [finishedBuild, mergeFrom_add 254 1, mergeFrom_succ, mergeFrom_zero, hmerge]
  rfl

/-- Settles O39: the invariant of the build after 255 merges, and the number that the last merge gives. -/
theorem buildMakesOneTreeOf256Leaves : Obligations.BuildMakesOneTreeOf256Leaves := by
  intro d
  have hinv := finished_buildInv d
  obtain ⟨a, b, -, -, hwork⟩ := exists_last_merge d
  set root : Item := ⟨510, a.weight + b.weight, .node a.tree b.tree⟩
  have hroot : buildTree d = root.tree := by rw [buildTree, hwork]; rfl
  refine ⟨root, hwork, rfl, ?_, hroot, hroot ▸ leaves_buildTree d, hinv.merges_length, hinv.merge, hinv.sorted⟩
  rw [hinv.weight_tree root (by rw [hwork]; exact List.mem_cons_self), ← hroot,
    treeWeight_eq_length d (nodup_leaves_buildTree d) fun b _ => mem_leaves_buildTree d b]

/-! ### Eight bits a byte -/

/-- `r` halvings of a list of `2 ^ r` nodes cost at most `r` times the list's weight. -/
theorem mergeCost_halvings (r k : ℕ) (s : Build) (h : s.work.length = 2 ^ r) :
    mergeCost (mergeFrom (2 ^ r - 1) k s).merges ≤ mergeCost s.merges + r * (s.work.map (·.weight)).sum := by
  induction r generalizing k s with
  | zero => simp
  | succ r ih =>
    have hpos : 0 < 2 ^ r := Nat.two_pow_pos r
    obtain ⟨hcost, hlen, hsum⟩ := fullRound (2 ^ r) k s hpos (by rw [h, pow_succ, mul_comm])
    have hrest := ih (k + 2 ^ r) _ hlen
    rw [hsum] at hrest
    rw [show 2 ^ (r + 1) - 1 = 2 ^ r + (2 ^ r - 1) by rw [pow_succ]; omega, mergeFrom_add, Nat.succ_mul]
    omega

theorem sum_weight_initialWork (d : List Byte) : ((initialWork d).map (·.weight)).sum = d.length := by
  rw [← treeWeight_eq_length d (nodup_leaves_buildTree d) fun b _ => mem_leaves_buildTree d b, treeWeight,
    ((leaves_buildTree d).map _).sum_eq, initialWork, List.map_map, List.map_map]
  rfl

/-- Settles O40: eight halvings of the 256 leaves, each of which costs at most the input's length. -/
theorem dataBitsAtMostEightPerByte : Obligations.DataBitsAtMostEightPerByte := by
  intro d
  have hcost := mergeCost_halvings 8 0 ⟨initialWork d, []⟩ (by simp [initialWork])
  rw [sum_weight_initialWork] at hcost
  rw [dataBitCount_eq_merges, finishedBuild]
  simpa [mergeCost] using hcost

end Sys2Proof.Machine
end

section
/-! PROOFS. The code table of a built tree (43_huffman.md R210, R211). -/

namespace Sys2Proof.Machine

/-! ### Codes of any tree -/

/-- A path leads to one leaf. -/
theorem byte_eq_of_mem_codes {t : Tree} {b c : Byte} {p : List Bool} (hb : (b, p) ∈ codes t [])
    (hc : (c, p) ∈ codes t []) : b = c := by
  induction t generalizing p with
  | leaf v =>
    simp only [codes, List.mem_singleton, Prod.mk.injEq] at hb hc
    rw [hb.1, hc.1]
  | node l r ihl ihr =>
    rw [codes_node] at hb hc
    cases p with
    | nil => simp at hb
    | cons bit q =>
      cases bit
      · exact ihl (by simpa using hb) (by simpa using hc)
      · exact ihr (by simpa using hb) (by simpa using hc)

/-- The lengths of a tree's codes meet Kraft's equality: each subtree of a node has half the node's share. -/
theorem kraft_codes (t : Tree) : ((codes t []).map fun p => (1 / 2 : ℚ) ^ p.2.length).sum = 1 := by
  induction t with
  | leaf b => simp [codes]
  | node l r ihl ihr =>
    rw [codes_node]
    simp only [List.map_append, List.map_map, Function.comp_def, List.length_cons, pow_succ, List.sum_append,
      List.sum_map_mul_right, ihl, ihr]
    norm_num

theorem kraft_codeOf {t : Tree} (hnd : (leaves t).Nodup) :
    ((leaves t).map fun b => (1 / 2 : ℚ) ^ (codeOf t b).length).sum = 1 := by
  rw [← map_fst_codes, List.map_map]
  refine (congrArg List.sum (List.map_congr_left fun p hp => ?_)).trans (kraft_codes t)
  exact congrArg (fun q : List Bool => (1 / 2 : ℚ) ^ q.length) (codeOf_eq hnd hp)

/-! ### Codes of the built tree -/

theorem codeOf_buildTree_eq {d : List Byte} {b : Byte} {p : List Bool} (h : (b, p) ∈ codes (buildTree d) []) :
    codeOf (buildTree d) b = p := codeOf_eq (nodup_leaves_buildTree d) h

theorem one_le_length_codeOf (d : List Byte) (b : Byte) : 1 ≤ (codeOf (buildTree d) b).length := by
  obtain ⟨l, r, ht⟩ := node_of_leaves (t := buildTree d) (by rw [length_leaves_buildTree]; decide)
  have hmem := codeOf_buildTree_mem d b
  rw [ht] at hmem ⊢
  exact List.length_pos_of_ne_nil (code_ne_nil hmem)

theorem length_codeOf_le (d : List Byte) (b : Byte) : (codeOf (buildTree d) b).length ≤ 255 := by
  have := length_lt_of_mem_codes (codeOf_buildTree_mem d b)
  rw [length_leaves_buildTree] at this
  omega

theorem not_prefix_codeOf (d : List Byte) {b c : Byte} (h : b ≠ c) :
    ¬codeOf (buildTree d) b <+: codeOf (buildTree d) c := by
  intro hprefix
  have hb := codeOf_buildTree_mem d b
  have hc := codeOf_buildTree_mem d c
  rw [← eq_of_prefix hb hc hprefix] at hc
  exact h (byte_eq_of_mem_codes hb hc)

theorem kraft_buildTree (d : List Byte) :
    ((List.range 256).map fun v => (1 / 2 : ℚ) ^ (codeOf (buildTree d) (BitVec.ofNat 8 v)).length).sum = 1 := by
  have hperm := (leaves_buildTree d).map fun b => (1 / 2 : ℚ) ^ (codeOf (buildTree d) b).length
  rw [List.map_map] at hperm
  exact hperm.sum_eq.symm.trans (kraft_codeOf (nodup_leaves_buildTree d))

/-! ### The empty input: the working list is a queue -/

/-- The balanced tree of depth `n` over the `2 ^ n` byte values from `2 ^ n * i` on. -/
def numeralTree : ℕ → ℕ → Tree
  | 0, i => .leaf (BitVec.ofNat 8 i)
  | n + 1, i => .node (numeralTree n (2 * i)) (numeralTree n (2 * i + 1))

/-- The code of a value in its balanced tree is its `n`-bit numeral. -/
theorem mem_codes_numeralTree (n i : ℕ) {v : ℕ} (hv : v < 2 ^ n) :
    (BitVec.ofNat 8 (2 ^ n * i + v), (List.range n).map fun k => v.testBit (n - 1 - k)) ∈ codes (numeralTree n i) [] := by
  induction n generalizing i v with
  | zero =>
    obtain rfl : v = 0 := by omega
    simp [numeralTree, codes]
  | succ n ih =>
    rw [numeralTree, codes_node, List.range_succ_eq_map, List.map_cons, List.map_map, List.mem_append]
    by_cases hlow : v < 2 ^ n
    · refine .inl (List.mem_map.2 ⟨_, ih (2 * i) hlow, Prod.ext ?_ ?_⟩)
      · rw [pow_succ, mul_assoc]
      · simp [Nat.testBit_lt_two_pow hlow, Function.comp_def, Nat.sub_sub, Nat.add_comm]
    · obtain ⟨u, rfl⟩ := Nat.exists_eq_add_of_le (Nat.le_of_not_lt hlow)
      have hu : u < 2 ^ n := by rw [pow_succ] at hv; omega
      refine .inr (List.mem_map.2 ⟨_, ih (2 * i + 1) hu, Prod.ext ?_ ?_⟩)
      · dsimp only; congr 1; ring
      · have hbits : ∀ k ∈ List.range n, (2 ^ n + u).testBit (n + 1 - 1 - (k + 1)) = u.testBit (n - 1 - k) := by
          intro k hk
          have := List.mem_range.1 hk
          rw [Nat.testBit_two_pow_add_gt (by omega), show n + 1 - 1 - (k + 1) = n - 1 - k by omega]
        rw [List.cons.injEq]
        refine ⟨?_, (List.map_congr_left hbits).symm⟩
        simp [Nat.testBit_two_pow_add_eq, Nat.testBit_lt_two_pow hu]

/-- Among equal weights the first of the list is taken (43_huffman.md R205). -/
theorem extractMin_of_le {x : Item} {xs : List Item} (h : ∀ y ∈ xs, x.weight ≤ y.weight) : extractMin x xs = (x, xs) := by
  cases xs with
  | nil => rfl
  | cons y rest =>
    have hmin := h _ ((extractMin_perm y rest).mem_iff.1 List.mem_cons_self)
    exact if_neg (Nat.not_lt.2 hmin)

/-- The working list holds the trees `ts`, all of weight 0. -/
def Weightless (s : Build) (ts : List Tree) : Prop := s.work.map (·.tree) = ts ∧ ∀ y ∈ s.work, y.weight = 0

/-- Without weights the first two trees are joined and their parent goes to the end. -/
theorem Weightless.mergeOnce {s : Build} {l r : Tree} {ts : List Tree} (h : Weightless s (l :: r :: ts)) (k : ℕ) :
    Weightless (mergeOnce k s) (ts ++ [.node l r]) := by
  obtain ⟨work, merges⟩ := s
  obtain ⟨htrees, hzero⟩ := h
  match work, htrees with
  | a :: b :: rest, htrees =>
    obtain ⟨rfl, rfl, rfl⟩ : a.tree = l ∧ b.tree = r ∧ rest.map (·.tree) = ts := by simpa using htrees
    have ha : a.weight = 0 := hzero a (by simp)
    have hb : b.weight = 0 := hzero b (by simp)
    have hrest : ∀ y ∈ rest, y.weight = 0 := fun y hy => hzero y (by simp [hy])
    have hmina : ∀ y ∈ b :: rest, a.weight ≤ y.weight := fun y _ => ha ▸ Nat.zero_le y.weight
    have hminb : ∀ y ∈ rest, b.weight ≤ y.weight := fun y _ => hb ▸ Nat.zero_le y.weight
    simp only [Machine.mergeOnce, extractMin_of_le hmina, extractMin_of_le hminb]
    refine ⟨by simp, fun y hy => ?_⟩
    rcases List.mem_append.1 hy with hy | hy
    · exact hrest y hy
    · rw [List.mem_singleton.1 hy, ha, hb]

/-- `m` merges of a queue that begins with `2 * m` numbered trees join them in pairs. -/
theorem Weightless.mergePairs {s : Build} {f : ℕ → Tree} {i m : ℕ} {acc : List Tree}
    (h : Weightless s ((List.range' (2 * i) (2 * m)).map f ++ acc)) (k : ℕ) :
    Weightless (mergeFrom m k s) (acc ++ (List.range' i m).map fun j => .node (f (2 * j)) (f (2 * j + 1))) := by
  induction m generalizing s i acc k with
  | zero => simpa using h
  | succ m ih =>
    rw [Nat.mul_succ, List.range'_succ, List.range'_succ] at h
    have hnext := ih (i := i + 1) (by simpa [Nat.mul_succ] using h.mergeOnce k) (k + 1)
    rw [mergeFrom_succ, List.range'_succ]
    simpa using hnext

/-- `r` rounds of merges of a queue of `2 ^ r` balanced trees leave one. -/
theorem Weightless.halvings {s : Build} (n r : ℕ) (h : Weightless s ((List.range (2 ^ r)).map (numeralTree n))) (k : ℕ) :
    Weightless (mergeFrom (2 ^ r - 1) k s) [numeralTree (n + r) 0] := by
  induction r generalizing s n k with
  | zero => simpa using h
  | succ r ih =>
    have hpos : 0 < 2 ^ r := Nat.two_pow_pos r
    have hround := Weightless.mergePairs (i := 0) (m := 2 ^ r) (acc := [])
      (by simpa [pow_succ, mul_comm, List.range_eq_range'] using h) k
    rw [show 2 ^ (r + 1) - 1 = 2 ^ r + (2 ^ r - 1) by rw [pow_succ]; omega, mergeFrom_add,
      show n + (r + 1) = n + 1 + r by omega]
    exact ih (n + 1) (by simpa [List.range_eq_range', numeralTree] using hround) _

theorem buildTree_nil : buildTree [] = numeralTree 8 0 := by
  have hinit : Weightless ⟨initialWork [], []⟩ ((List.range (2 ^ 8)).map (numeralTree 0)) := by
    refine ⟨by rw [initialWork, List.map_map]; rfl, fun y hy => ?_⟩
    obtain ⟨n, -, rfl⟩ := List.mem_map.1 hy
    rfl
  have hfinal : (finishedBuild []).work.map (·.tree) = [numeralTree 8 0] := (hinit.halvings 0 8 0).1
  obtain ⟨root, hwork, hroot⟩ := finished_work []
  rw [hwork] at hfinal
  rw [hroot]
  exact List.head_eq_of_cons_eq hfinal

theorem codeOf_buildTree_nil (b : Byte) :
    codeOf (buildTree []) b = (List.range 8).map fun k => b.getLsbD (7 - k) := by
  have hmem := mem_codes_numeralTree 8 0 b.isLt
  rw [← buildTree_nil, Nat.mul_zero, Nat.zero_add, BitVec.ofNat_toNat, BitVec.setWidth_eq] at hmem
  exact codeOf_buildTree_eq hmem

/-! ### One repeated byte: its leaf stays until the last merge -/

/-- The leaf of `c` is the one node of the list that has a weight. -/
def OnlyLeafWeighs (c : Byte) (items : List Item) : Prop := (items.filter (0 < ·.weight)).map (·.tree) = [.leaf c]

theorem onlyLeafWeighs_initialWork (c : Byte) (n : ℕ) : OnlyLeafWeighs c (initialWork (List.replicate (n + 1) c)) := by
  have hweight : ∀ m ∈ List.range 256, decide (0 < frequency (List.replicate (n + 1) c) (BitVec.ofNat 8 m)) =
      decide (m = c.toNat) := by
    intro m hm
    have hlt := List.mem_range.1 hm
    rw [frequency, List.count_replicate, decide_eq_decide]
    by_cases hc : c = BitVec.ofNat 8 m
    · subst hc
      simpa using (Nat.mod_eq_of_lt hlt).symm
    · have hne : m ≠ c.toNat := by
        rintro rfl
        simp at hc
      simp [hc, hne]
  have hfilter : (List.range 256).filter (fun m => decide (m = c.toNat)) = [c.toNat] := by
    rw [List.filter_eq, List.count_eq_one_of_mem List.nodup_range (List.mem_range.2 c.isLt), List.replicate_one]
  rw [OnlyLeafWeighs, initialWork, List.filter_map, Function.comp_def]
  dsimp only
  rw [List.filter_congr hweight, hfilter]
  simp

section
variable {c : Byte} {items : List Item} (h : OnlyLeafWeighs c items)
include h

theorem OnlyLeafWeighs.perm {items' : List Item} (hp : items.Perm items') : OnlyLeafWeighs c items' := by
  have hmap := (hp.filter (0 < ·.weight)).map (·.tree)
  exact List.perm_singleton.1 (hmap.symm.trans (.of_eq h))

/-- Of the two lightest nodes the first has no weight, and the second has one only when no other node is left. -/
theorem OnlyLeafWeighs.lightest {a b : Item} {rest : List Item} (hp : items.Perm (a :: b :: rest))
    (ha : a.weight ≤ b.weight) (hb : ∀ y ∈ rest, b.weight ≤ y.weight) :
    a.weight = 0 ∧ (b.weight = 0 ∧ OnlyLeafWeighs c rest ∨ rest = [] ∧ b.tree = .leaf c) := by
  have hlist : OnlyLeafWeighs c (a :: b :: rest) := h.perm hp
  unfold OnlyLeafWeighs at hlist ⊢
  by_cases hbpos : 0 < b.weight
  · have hrest : rest.filter (0 < ·.weight) = rest :=
      List.filter_eq_self.2 fun y hy => decide_eq_true (lt_of_lt_of_le hbpos (hb y hy))
    rw [List.filter_cons, List.filter_cons_of_pos (a := b) (decide_eq_true hbpos), hrest] at hlist
    split at hlist
    · simp at hlist
    · rename_i hazero
      obtain ⟨htree, hnil⟩ : b.tree = .leaf c ∧ rest = [] := by simpa using hlist
      exact ⟨by simpa using hazero, .inr ⟨hnil, htree⟩⟩
  · have hbzero : b.weight = 0 := by omega
    have hazero : a.weight = 0 := by omega
    rw [List.filter_cons_of_neg (by simp [hazero]), List.filter_cons_of_neg (by simp [hbzero])] at hlist
    exact ⟨hazero, .inl ⟨hbzero, hlist⟩⟩

end

theorem OnlyLeafWeighs.mergeOnce {c : Byte} {s : Build} (h : OnlyLeafWeighs c s.work) (hlen : 3 ≤ s.work.length) (k : ℕ) :
    OnlyLeafWeighs c (mergeOnce k s).work := by
  obtain ⟨a, b, rest, hperm, ha, hb, hmerge⟩ := mergeOnce_spec k (s := s) (by omega)
  obtain ⟨hazero, ⟨hbzero, hrest⟩ | ⟨rfl, -⟩⟩ := h.lightest hperm (ha b List.mem_cons_self) hb
  · rw [hmerge, OnlyLeafWeighs, List.filter_append, List.filter_cons_of_neg (by simp [hazero, hbzero]), List.filter_nil,
      List.append_nil]
    exact hrest
  · have := hperm.length_eq
    simp at this
    omega

theorem length_work_mergeOnce {s : Build} (h : 2 ≤ s.work.length) (k : ℕ) :
    (mergeOnce k s).work.length + 1 = s.work.length := by
  obtain ⟨a, b, rest, hperm, -, -, hmerge⟩ := mergeOnce_spec k h
  rw [hmerge, hperm.length_eq]
  simp

theorem OnlyLeafWeighs.mergeFrom {c : Byte} {s : Build} {n : ℕ} (h : OnlyLeafWeighs c s.work)
    (hlen : n + 2 ≤ s.work.length) (k : ℕ) : OnlyLeafWeighs c (mergeFrom n k s).work := by
  induction n generalizing s k with
  | zero => rwa [mergeFrom_zero]
  | succ n ih =>
    rw [mergeFrom_succ]
    have hnext := length_work_mergeOnce (s := s) (by omega) k
    exact ih (h.mergeOnce (by omega) k) (by omega) (k + 1)

/-- The byte of a one-byte input is the right child of the root. -/
theorem codeOf_buildTree_replicate (c : Byte) (n : ℕ) : codeOf (buildTree (List.replicate (n + 1) c)) c = [true] := by
  obtain ⟨a, b, hperm, hle, hwork⟩ := exists_last_merge (List.replicate (n + 1) c)
  have hleaf := (onlyLeafWeighs_initialWork c n).mergeFrom (s := ⟨_, []⟩) (n := 254) (initial_buildInv _).length.ge 0
  obtain ⟨-, ⟨-, hnil⟩ | ⟨-, htree⟩⟩ := hleaf.lightest hperm hle (by simp)
  · simp [OnlyLeafWeighs] at hnil
  · refine codeOf_buildTree_eq ?_
    rw [buildTree, hwork, rootOf, htree, codes_node]
    simp [codes]

/-- Settles O41: the codes are the paths to the 256 leaves; for the empty input the build is a queue, and for one repeated
byte every merge but the last joins nodes without weight. -/
theorem codeTableProperties : Obligations.CodeTableProperties :=
  ⟨fun d b => ⟨codeOf_buildTree_mem d b, one_le_length_codeOf d b, length_codeOf_le d b, fun _ => not_prefix_codeOf d⟩,
    kraft_buildTree, codeOf_buildTree_nil, codeOf_buildTree_replicate⟩

end Sys2Proof.Machine
end

section
/-! PROOFS. The shape check, the decoder's checks, and the round trip of the coder (43_huffman.md R219 to R222, R224). -/

namespace Sys2Proof.Machine

/-! ### The tree of a payload -/

theorem shapeCloses_one_iff (bits : List Bool) : shapeCloses 1 bits = true ↔ ∃ t, shape t = bits := by
  constructor
  · intro h
    obtain ⟨ts, hlen, rfl⟩ := shapes_of_shapeCloses h
    obtain ⟨t, rfl⟩ := List.length_eq_one_iff.1 hlen
    exact ⟨t, by simp⟩
  · rintro ⟨t, rfl⟩
    simpa [shapeCloses] using shapeCloses_shape t 0 []

/-- A payload describes one tree at most. -/
theorem eq_of_describes {p : List Byte} {t u : Tree} (ht : Describes p t) (hu : Describes p u) : t = u :=
  tree_ext (ht.1.trans hu.1.symm) (ht.2.trans hu.2.symm)

/-- The leaf values of a payload (30_encoding.md R102). -/
def leafValues (p : List Byte) : List Byte := (p.drop 4).take 256

section
variable {p : List Byte} (hp : 324 ≤ p.length)
include hp

theorem length_leafValues : (leafValues p).length = 256 := by
  rw [leafValues, List.length_take, List.length_drop]
  omega

theorem length_shapeBits : (shapeBits p).length = 511 := by
  rw [shapeBits, List.length_take, length_unpack, List.length_take, List.length_drop]
  omega

/-- A tree with the shape bits of the payload has as many leaves as the payload has leaf values. -/
theorem length_leaves_of_shape {t : Tree} (h : shape t = shapeBits p) : (leaves t).length = 256 := by
  have hlen := length_shape t
  rw [h, length_shapeBits hp] at hlen
  omega

/-- From the shape bits of a tree the decoder rebuilds a tree, which the payload describes. -/
theorem exists_payloadTree_of_shape {t : Tree} (h : shape t = shapeBits p) :
    ∃ u, payloadTree p = some u ∧ Describes p u := by
  have hleaves := length_leaves_of_shape hp h
  have hvalues := length_leafValues hp
  obtain ⟨u, hu, hshape, hvals⟩ :=
    unshape_complete t (fuel := 512) (by omega) [] (vals := leafValues p) (hleaves.trans hvalues.symm).le
  rw [List.append_nil, h] at hu
  rw [hleaves, ← hvalues, List.take_length] at hvals
  exact ⟨u, Option.map_eq_some_iff.2 ⟨_, hu, rfl⟩, hshape.trans h, hvals⟩

theorem shapeCloses_iff_exists_describes : shapeCloses 1 (shapeBits p) = true ↔ ∃ t, Describes p t := by
  rw [shapeCloses_one_iff]
  constructor
  · rintro ⟨t, ht⟩
    obtain ⟨u, -, hu⟩ := exists_payloadTree_of_shape hp ht
    exact ⟨u, hu⟩
  · rintro ⟨t, ht⟩
    exact ⟨t, ht.1⟩

theorem payloadTree_of_describes {t : Tree} (h : Describes p t) : payloadTree p = some t := by
  obtain ⟨u, hu, hdesc⟩ := exists_payloadTree_of_shape hp h.1
  rw [hu, eq_of_describes hdesc h]

end

/-- Settles O42: every shape of 511 bits has a tree with the 256 leaf values, and a tree is its shape and its leaves. -/
theorem shapeCheckFindsTheTree : Obligations.ShapeCheckFindsTheTree := by
  refine ⟨shapeCloses_one_iff, length_shape, fun p hp => ⟨shapeCloses_iff_exists_describes hp, fun hcloses t => ?_⟩⟩
  obtain ⟨u, hu⟩ := (shapeCloses_iff_exists_describes hp).1 hcloses
  rw [payloadTree_of_describes hp hu, Option.some.injEq]
  exact ⟨fun h => h ▸ hu, eq_of_describes hu⟩

/-! ### The decoder's checks -/

section
variable {p : List Byte} (hp : 324 ≤ p.length)
include hp

theorem decodeHead_of_describes {t : Tree} (h : Describes p t) :
    decodeHead p = if p.length < payloadLength (declaredBits p) then .error 3 else .ok t := by
  have hcloses : shapeCloses 1 (shapeBits p) = true := (shapeCloses_iff_exists_describes hp).2 ⟨t, h⟩
  rw [decodeHead, payloadHead, if_neg (Nat.not_lt.2 hp), hcloses, payloadTree_of_describes hp h]
  rfl

theorem decodeHead_of_not_describes (h : ∀ t, ¬Describes p t) : decodeHead p = .error 2 := by
  have hopen : shapeCloses 1 (shapeBits p) = false := by
    rw [Bool.eq_false_iff, Ne, shapeCloses_iff_exists_describes hp]
    exact not_exists.2 h
  rw [decodeHead, payloadHead, if_neg (Nat.not_lt.2 hp), hopen]
  rfl

theorem decodeData_eq_some_iff {t : Tree} (h : Describes p t) (out : List Byte) :
    decodeData t p = some out ↔ DecodesTo t (payloadBits p) out :=
  walk_eq_some_iff (by rw [length_leaves_of_describes hp h]; decide) _ out

end

theorem decodeHead_of_short {p : List Byte} (h : p.length < 324) : decodeHead p = .error 1 := if_pos h

/-! ### The round trip -/

/-- The data bits are the codes of the input's bytes. -/
theorem decodesTo_dataBits (d e : List Byte) : DecodesTo (buildTree d) (dataBits (buildTree d) e) e := by
  refine ⟨e.map fun b => (b, codeOf (buildTree d) b), fun p hp => ?_, ?_, ?_⟩
  · obtain ⟨b, -, rfl⟩ := List.mem_map.1 hp
    exact codeOf_buildTree_mem d b
  · rw [List.flatMap_map]
    rfl
  · simp [Function.comp_def]

theorem payloadHead_le_length_huffEncode (d : List Byte) : 324 ≤ (huffEncode d).length := by
  rw [length_huffEncode]
  exact Nat.le_add_right _ _

section
variable {d : List Byte} (h : dataBitCount (buildTree d) d < 2 ^ 32)
include h

theorem decodeHead_huffEncode : decodeHead (huffEncode d) = .ok (buildTree d) := by
  have hcount : declaredBits (huffEncode d) = dataBitCount (buildTree d) d := declaredCount_huffEncode h
  rw [decodeHead_of_describes (payloadHead_le_length_huffEncode d) (describes_huffEncode d), hcount, length_huffEncode,
    if_neg (Nat.lt_irrefl _)]

theorem decodeData_huffEncode : decodeData (buildTree d) (huffEncode d) = some d := by
  rw [decodeData_eq_some_iff (payloadHead_le_length_huffEncode d) (describes_huffEncode d), payloadBits_huffEncode h]
  exact decodesTo_dataBits d d

end

/-- Settles O44: the payload passes the decoder's checks and its data bits are the codes of the input. -/
theorem huffmanRoundTrip : Obligations.HuffmanRoundTrip := by
  intro d h
  rw [huffDecode, decodeHead_huffEncode h]
  dsimp only
  rw [decodeData_huffEncode h]

end Sys2Proof.Machine
end

section
/-! PROOFS. The commands of the Huffman unit, and the script that encodes and decodes (43_huffman.md R215 to R224). -/

namespace Sys2Proof.Machine

/-! ### The input -/

@[simp] theorem length_input (s : State) : s.input.length = s.ilen.toNat := Mem.length_slice _ _ _

/-- The fault of a command that begins with the check of the input (43_huffman.md R201). -/
theorem raisesInput_of_check {i : Instr} {s : State} {rest : Result} (h : exec i s = withInput (encode i) s rest) :
    RaisesInput i s := fun hbad => h.trans (withInput_bad hbad _ _)

section
variable {s : State} (hcfg : s.cfg.wf = true) (hin : InputOk s)
include hcfg hin

theorem ilen_lt_of_inputOk : s.ilen.toNat < 2 ^ 29 := lt_of_le_of_lt hin (Config.caps_of_wf hcfg).1.2

/-- `ERR_OVERFLOW` does not occur: eight bits a byte of the longest input fit 32 bits (43_huffman.md R214). -/
theorem dataBitCount_input_lt : dataBitCount (buildTree s.input) s.input < 2 ^ 32 := by
  have hbits := dataBitsAtMostEightPerByte s.input
  have hlen := ilen_lt_of_inputOk hcfg hin
  rw [length_input] at hbits
  omega

end

/-! ### The links of the build -/

/-- The merges lead from node `m` to the tree `t`: a leaf's number is its byte, and the merge that made a node leads to its
children (43_huffman.md R208). -/
def Linked (ms : List Merge) : ℕ → Tree → Prop
  | m, .leaf b => m = b.toNat
  | m, .node l r => ∃ k e, m = 256 + k ∧ ms[k]? = some e ∧ Linked ms e.left l ∧ Linked ms e.right r

theorem Linked.append {ms : List Merge} {m : ℕ} {t : Tree} (h : Linked ms m t) (e : Merge) : Linked (ms ++ [e]) m t := by
  induction t generalizing m with
  | leaf b => exact h
  | node l r ihl ihr =>
    obtain ⟨k, e', hm, he', hl, hr⟩ := h
    have hk : k < ms.length := (List.getElem?_eq_some_iff.1 he').1
    exact ⟨k, e', hm, by rwa [List.getElem?_append_left hk], ihl hl, ihr hr⟩

/-- The merges lead from every node of the working list to its tree. -/
def WorkLinked (s : Build) : Prop := ∀ y ∈ s.work, Linked s.merges y.num y.tree

theorem workLinked_initial (d : List Byte) : WorkLinked ⟨initialWork d, []⟩ := by
  intro y hy
  obtain ⟨n, hn, rfl⟩ := List.mem_map.1 hy
  exact (Nat.mod_eq_of_lt (List.mem_range.1 hn)).symm

theorem WorkLinked.mergeOnce {d : List Byte} {k : ℕ} {s : Build} (h : WorkLinked s) (hinv : BuildInv d k s) (hk : k < 255) :
    WorkLinked (mergeOnce k s) := by
  have hlen := hinv.length
  obtain ⟨a, b, rest, hperm, -, -, hmerge⟩ := mergeOnce_spec k (s := s) (by omega)
  have hold : ∀ y ∈ a :: b :: rest, ∀ e, Linked (s.merges ++ [e]) y.num y.tree := fun y hy =>
    (h y (hperm.mem_iff.2 hy)).append
  rw [hmerge]
  intro y hy
  rcases List.mem_append.1 hy with hy | hy
  · exact hold y (by simp [hy]) _
  · obtain rfl := List.mem_singleton.1 hy
    exact ⟨k, ⟨a.weight + b.weight, a.num, b.num⟩, rfl, by simp [← hinv.merges_length], hold a (by simp) _,
      hold b (by simp) _⟩

theorem WorkLinked.mergeFrom {d : List Byte} {n k : ℕ} {s : Build} (h : WorkLinked s) (hinv : BuildInv d k s)
    (hn : k + n ≤ 255) : WorkLinked (mergeFrom n k s) := by
  induction n generalizing k s with
  | zero => rwa [mergeFrom_zero]
  | succ n ih =>
    rw [mergeFrom_succ]
    exact ih (h.mergeOnce hinv (by omega)) (buildInv_mergeOnce hinv (by omega)) (by omega)

/-- The merges of the finished build lead from node 510 to the tree. -/
theorem linked_buildTree (d : List Byte) : Linked (finishedBuild d).merges 510 (buildTree d) := by
  have hlinked : WorkLinked (finishedBuild d) := (workLinked_initial d).mergeFrom (initial_buildInv d) (by decide)
  obtain ⟨a, b, -, -, hwork⟩ := exists_last_merge d
  rw [buildTree, hwork]
  exact hlinked ⟨510, a.weight + b.weight, .node a.tree b.tree⟩ (by rw [hwork]; exact List.mem_cons_self)

/-- Link words that hold the children of the merges lead along a code to the byte of its leaf. -/
theorem followLinks_of_linked {ms : List Merge} {links : ℕ → Word}
    (hlinks : ∀ k e, ms[k]? = some e → ((links (256 + k)).extractLsb' 0 9).toNat = e.left
      ∧ ((links (256 + k)).extractLsb' 16 9).toNat = e.right)
    {t : Tree} {m : ℕ} (h : Linked ms m t) {b : Byte} {p : List Bool} (hp : (b, p) ∈ codes t []) :
    followLinks links m p = b.toNat := by
  induction t generalizing m p with
  | leaf c =>
    obtain ⟨rfl, rfl⟩ : b = c ∧ p = [] := by simpa [codes] using hp
    exact h
  | node l r ihl ihr =>
    obtain ⟨k, e, rfl, he, hl, hr⟩ := h
    obtain ⟨hleft, hright⟩ := hlinks k e he
    rw [codes_node] at hp
    simp only [List.mem_append, List.mem_map, Prod.mk.injEq, Prod.exists, existsAndEq, true_and] at hp
    obtain ⟨q, hq, rfl⟩ | ⟨q, hq, rfl⟩ := hp
    · rw [followLinks, hleft]
      exact ihl hl hq
    · rw [followLinks, hright]
      exact ihr hr hq

/-! ### The tables of the build -/

theorem nodeWeight_byte (d : List Byte) (m : Build) (b : Byte) : nodeWeight d m b.toNat = d.count b := by
  rw [nodeWeight, if_pos b.isLt, BitVec.ofNat_toNat, BitVec.setWidth_eq, frequency]

theorem nodeLink_byte (m : Build) (b : Byte) : nodeLink m b.toNat = 0 := if_pos b.isLt

theorem nodeWeight_root (d : List Byte) : nodeWeight d (finishedBuild d) 510 = d.length := by
  obtain ⟨root, hwork, hnum, hweight, -⟩ := buildMakesOneTreeOf256Leaves d
  rw [← hnum, ← (finished_buildInv d).weight_node root (by rw [hwork]; exact List.mem_cons_self), hweight]

section
variable {d : List Byte} {k : ℕ} {e : Merge} (h : (finishedBuild d).merges[k]? = some e)
include h

theorem lt_of_getElem?_merges : k < 255 := by
  have hk := (List.getElem?_eq_some_iff.1 h).1
  rwa [(finished_buildInv d).merges_length] at hk

theorem nodeWeight_merge : nodeWeight d (finishedBuild d) (256 + k) = e.weight := by
  simp [nodeWeight, h]

theorem nodeLink_merge : nodeLink (finishedBuild d) (256 + k) = e.left + 65536 * e.right := by
  simp [nodeLink, h]

theorem weight_merge_le : e.weight ≤ dataBitCount (buildTree d) d := by
  rw [dataBitCount_eq_merges]
  exact List.le_sum_of_mem (List.mem_map.2 ⟨e, List.mem_of_getElem? h, rfl⟩)

theorem children_merge_lt : e.left < 512 ∧ e.right < 512 := by
  have hk := lt_of_getElem?_merges h
  obtain ⟨hl, hr, -⟩ := (finished_buildInv d).merge k e h
  omega

end

/-- The fields of a link word (10_state.md R34). -/
theorem toNat_linkWord {l r : ℕ} (hl : l < 512) (hr : r < 512) :
    (BitVec.ofNat 32 (l + 65536 * r)).toNat = l + 65536 * r
      ∧ ((BitVec.ofNat 32 (l + 65536 * r)).extractLsb' 0 9).toNat = l
      ∧ ((BitVec.ofNat 32 (l + 65536 * r)).extractLsb' 16 9).toNat = r := by
  simp only [BitVec.extractLsb'_toNat, BitVec.toNat_ofNat, Nat.shiftRight_eq_div_pow]
  omega

section
variable {s : State} {d : List Byte}

theorem tableGet_hweight_exposeTables {m : ℕ} (hm : m < 511) :
    tableGet (s.exposeTables d).hweight m = BitVec.ofNat 32 (nodeWeight d (finishedBuild d) m) := tableGet_tableOf _ hm

theorem tableGet_hlink_exposeTables {m : ℕ} (hm : m < 511) :
    tableGet (s.exposeTables d).hlink m = BitVec.ofNat 32 (nodeLink (finishedBuild d) m) := tableGet_tableOf _ hm

theorem tableGet_hlen_exposeTables (b : Byte) :
    (tableGet (s.exposeTables d).hlen b.toNat).toNat = (codeOf (buildTree d) b).length := by
  have hget : tableGet (s.exposeTables d).hlen b.toNat = BitVec.ofNat 8 _ := tableGet_tableOf _ b.isLt
  have hle := length_codeOf_le d b
  rw [hget, BitVec.ofNat_toNat, BitVec.setWidth_eq, ← buildTree, BitVec.toNat_ofNat, Nat.mod_eq_of_lt (by omega)]

theorem followLinks_exposeTables (b : Byte) :
    followLinks (tableGet (s.exposeTables d).hlink) 510 (codeOf (buildTree d) b) = b.toNat := by
  refine followLinks_of_linked (fun k e he => ?_) (linked_buildTree d) (codeOf_buildTree_mem d b)
  have hk := lt_of_getElem?_merges he
  obtain ⟨hl, hr⟩ := children_merge_lt he
  rw [tableGet_hlink_exposeTables (by omega), nodeLink_merge he]
  exact (toNat_linkWord hl hr).2

end

/-! ### `HUF_BUILD` -/

theorem exec_hufBuild_ok {s : State} (hcfg : s.cfg.wf = true) (hin : InputOk s) :
    exec .hufBuild s = .next (s.exposeTables s.input) := by
  change withInput _ s _ = _
  rw [withInput_ok hin, if_neg (Nat.not_le.2 (dataBitCount_input_lt hcfg hin))]

/-- Settles O45: element by element of the tables; the merges lead along a code from node 510 to its leaf. -/
theorem hufBuildExposesTables : Obligations.HufBuildExposesTables := by
  refine ⟨rfl, fun s hcfg => ⟨raisesInput_of_check rfl, fun hin =>
    ⟨_, exec_hufBuild_ok hcfg hin, rfl, ?_, fun b => ⟨?_, ?_, tableGet_hlen_exposeTables b, followLinks_exposeTables b⟩, ?_,
      fun k e he => ⟨?_, ?_⟩⟩⟩⟩
  all_goals have hbits := dataBitCount_input_lt hcfg hin
  · exact Nat.mod_eq_of_lt hbits
  · have hcount : s.input.count b < 2 ^ 32 :=
      lt_of_le_of_lt List.count_le_length (by rw [length_input]; exact s.ilen.isLt)
    rw [tableGet_hweight_exposeTables (by omega), nodeWeight_byte, BitVec.toNat_ofNat, Nat.mod_eq_of_lt hcount]
  · rw [tableGet_hlink_exposeTables (by omega), nodeLink_byte]
  · rw [tableGet_hweight_exposeTables (by decide), nodeWeight_root, length_input, BitVec.ofNat_toNat, BitVec.setWidth_eq]
  all_goals have hk := lt_of_getElem?_merges he
  · rw [tableGet_hweight_exposeTables (by omega), nodeWeight_merge he, BitVec.toNat_ofNat,
      Nat.mod_eq_of_lt (lt_of_le_of_lt (weight_merge_le he) hbits)]
  · obtain ⟨hl, hr⟩ := children_merge_lt he
    rw [tableGet_hlink_exposeTables (by omega), nodeLink_merge he, (toNat_linkWord hl hr).1]

/-! ### `HUF_ENC` -/

/-- What a coder command that succeeds leaves: `HVALID` cleared, its bytes in `OBUF` and their number in `OLEN`
(43_huffman.md R217, R223, 20_memory.md R62). -/
theorem produce_invalidateTables {s : State} (hcfg : s.cfg.wf = true) {bytes : List Byte}
    (hfit : bytes.length ≤ s.cfg.obufCap) {t : State} (ht : t = s.invalidateTables.produce bytes) :
    t = { s with hvalid := false, obuf := t.obuf, olen := t.olen, draws := s.draws + 1 }
      ∧ t.olen.toNat = bytes.length ∧ HoldsFrom t.obuf 0 bytes
      ∧ ∀ a, bytes.length ≤ a → a < s.cfg.obufCap → UnspecifiedAt t.obuf a := by
  subst ht
  have hlt : bytes.length < 2 ^ 32 := by
    have := (Config.caps_of_wf hcfg).2.1.2
    omega
  exact ⟨rfl, Nat.mod_eq_of_lt hlt, holdsFrom_loaded _ _ _, fun a => unspecifiedAt_loaded _ _⟩

section
variable {s : State} (hcfg : s.cfg.wf = true) (hin : InputOk s)
include hcfg hin

theorem exec_hufEnc_eq : exec .hufEnc s =
    if s.cfg.obufCap < (huffEncode s.input).length then
      raise (encode .hufEnc) .capacity (huffEncode s.input).length s.invalidateTables
    else .next (s.invalidateTables.produce (huffEncode s.input)) := by
  change withInput _ s (encodeTo _ s.input s.invalidateTables) = _
  rw [withInput_ok hin, encodeTo, length_huffEncode]
  exact if_neg (Nat.not_le.2 (dataBitCount_input_lt hcfg hin))

end

/-- Settles O46: the encoder's one check that can fail is of the capacity. -/
theorem hufEncWritesPayload : Obligations.HufEncWritesPayload := by
  refine ⟨rfl, fun s hcfg => ⟨raisesInput_of_check rfl, fun hin n total hn htotal => ?_⟩⟩
  have hexec := exec_hufEnc_eq hcfg hin
  have hlen : (huffEncode s.input).length = total := by rw [length_huffEncode, htotal, hn]; rfl
  rw [hlen] at hexec
  refine ⟨fun hbig => hexec.trans (if_pos hbig), fun hfit => ⟨_, hexec.trans (if_neg (Nat.not_lt.2 hfit)), ?_⟩⟩
  obtain ⟨hframe, holen, hbytes, hrest⟩ := produce_invalidateTables hcfg (hlen ▸ hfit) rfl
  exact ⟨hframe, holen.trans hlen, hbytes, hlen, hlen ▸ hrest⟩

/-! ### `HUF_DEC` -/

section
variable {s : State} (hin : InputOk s)
include hin

/-- A payload that fails one of the decoder's first checks (43_huffman.md R223). -/
theorem raisesAfter_hufDec {c : ℕ} (h : decodeHead s.input = .error c) :
    RaisesAfter .hufDec s { s with hvalid := false } 4#4 c := by
  change execHufDec s = _
  rw [execHufDec, withInput_ok hin, h]
  rfl

theorem exec_hufDec_of_ok {T : Tree} (h : decodeHead s.input = .ok T) :
    exec .hufDec s = decodeToObuf (decodeData T s.input) s.invalidateTables := by
  change execHufDec s = _
  rw [execHufDec, withInput_ok hin, h]

end

/-- A fault after the data decode leaves `OBUF` unspecified (43_huffman.md R223). -/
theorem fault_obufUnspecified (s : State) (cmd : Word) (code : BitVec 4) (info : ℕ) {t : State}
    (ht : t = s.invalidateTables.obufUnspecified.afterFault cmd code info) :
    (∀ a, a < s.cfg.obufCap → UnspecifiedAt t.obuf a)
      ∧ t = State.afterFault { s with hvalid := false, obuf := t.obuf, draws := s.draws + 1 } cmd code info := by
  subst ht
  exact ⟨fun a ha => unspecifiedAt_havoc _ _ (Nat.zero_le a) ha, rfl⟩

/-- Settles O47: the checks on the head of the payload, then the walk over its data bits, then the capacity. -/
theorem hufDecDecodesPayload : Obligations.HufDecDecodesPayload := by
  refine ⟨rfl, fun s hcfg => ⟨raisesInput_of_check rfl, fun hin => ⟨fun hshort => ?_, fun hlen hnone => ?_,
    fun T n hlen hT hn => ?_⟩⟩⟩
  · rw [← length_input] at hshort
    exact raisesAfter_hufDec hin (decodeHead_of_short hshort)
  · rw [← length_input] at hlen
    exact raisesAfter_hufDec hin (decodeHead_of_not_describes hlen hnone)
  · rw [← length_input] at hlen ⊢
    have hhead := decodeHead_of_describes hlen hT
    rw [declaredBits, ← hn] at hhead
    have hdata := decodeData_eq_some_iff hlen hT
    refine ⟨fun hmissing => raisesAfter_hufDec hin (hhead.trans (if_pos hmissing)), fun hfull hcut => ?_,
      fun hfull out hout => ⟨fun hbig => ?_, fun hfit => ?_⟩⟩
    all_goals have hexec := exec_hufDec_of_ok hin (hhead.trans (if_neg (Nat.not_lt.2 hfull)))
    · have hnone : decodeData T s.input = none :=
        Option.eq_none_iff_forall_ne_some.2 fun out h => hcut out ((hdata out).1 h)
      rw [hnone] at hexec
      exact ⟨_, hexec, fault_obufUnspecified s _ _ _ rfl⟩
    all_goals rw [(hdata out).2 hout] at hexec
    · exact ⟨_, hexec.trans (if_pos hbig), fault_obufUnspecified s _ _ _ rfl⟩
    · exact ⟨_, hexec.trans (if_neg (Nat.not_lt.2 hfit)), produce_invalidateTables hcfg hfit rfl⟩

/-! ### The script -/

/-- `s` with a byte list copied to `IBUF` and its length in `ILEN`. -/
def State.holdingInput (s : State) (bytes : List Byte) : State :=
  { s with ibuf := s.ibuf.writeList 0 bytes, ilen := BitVec.ofNat 32 bytes.length }

section
variable {s : State} {bytes : List Byte}

theorem toNat_ilen_holdingInput (h : bytes.length < 2 ^ 32) : (s.holdingInput bytes).ilen.toNat = bytes.length :=
  Nat.mod_eq_of_lt h

theorem input_holdingInput (h : bytes.length < 2 ^ 32) : (s.holdingInput bytes).input = bytes := by
  rw [State.input, toNat_ilen_holdingInput h]
  exact Mem.slice_writeList _ _ _

/-- A payload that the decoder accepts, copied to `IBUF` and decoded, leaves its bytes in `OBUF`. -/
theorem runScript_decodeCopy (hcfg : s.cfg.wf = true) (hb : s.busy = false) (hf : s.fault = false)
    (hlen : bytes.length ≤ s.cfg.ibufCap) {T : Tree} (hT : decodeHead bytes = .ok T) {out : List Byte}
    (hout : decodeData T bytes = some out) (hfit : out.length ≤ s.cfg.obufCap) :
    runScript (copyToInput bytes ++ [cmdLine .hufDec]) s =
      .next ((s.holdingInput bytes).invalidateTables.produce out) := by
  have hlt : bytes.length < 2 ^ 32 := by
    have := (Config.caps_of_wf hcfg).1.2
    omega
  have hinput := input_holdingInput (s := s) hlt
  have hin : InputOk (s.holdingInput bytes) := (toNat_ilen_holdingInput hlt).trans_le hlen
  have hexec := exec_hufDec_of_ok hin (T := T) (by rw [hinput, hT])
  rw [hinput, hout] at hexec
  have hdec := (hostStep_cmdLine (s := s.holdingInput bytes) hb hf .hufDec).trans
    (hexec.trans (if_neg (Nat.not_lt.2 hfit)))
  rw [runScript_append (runScript_copyToInput hb bytes hlen)]
  exact runScript_cons hdec

end

/-- Settles O48: the payload is copied to `IBUF` unchanged, and decodes to the input. -/
theorem huffmanScriptRoundTrip : Obligations.HuffmanScriptRoundTrip := by
  intro s hs hf hin hfit hroom
  have hbits := dataBitCount_input_lt hs.cfg_wf hin
  obtain ⟨hobuf, hibuf⟩ : (huffEncode s.input).length ≤ s.cfg.obufCap ∧ (huffEncode s.input).length ≤ s.cfg.ibufCap := by
    rw [length_huffEncode]
    exact le_min_iff.1 hroom
  have henc := (hostStep_cmdLine hs.not_busy hf .hufEnc).trans
    ((exec_hufEnc_eq hs.cfg_wf hin).trans (if_neg (Nat.not_lt.2 hobuf)))
  set e := s.invalidateTables.produce (huffEncode s.input) with he
  obtain ⟨-, holen, -⟩ := produce_invalidateTables hs.cfg_wf hobuf he
  have hslice : e.obuf.slice 0 e.olen.toNat = huffEncode s.input := by
    rw [holen]
    exact Mem.slice_loaded _ _ _
  have hdec := runScript_decodeCopy (s := e) hs.cfg_wf hs.not_busy hf hibuf (decodeHead_huffEncode hbits)
    (decodeData_huffEncode hbits) (by rw [length_input]; exact hfit)
  rw [← hslice] at hdec
  refine ⟨e, _, henc, hf, hdec, hf, ?_, holdsFrom_loaded _ _ _⟩
  rw [State.produce_olen, length_input, BitVec.ofNat_toNat, BitVec.setWidth_eq]

end Sys2Proof.Machine
end

section
/-! PROOFS. `RESET`, the two pipeline commands and the scripts they stand for (44_pipeline_system.md R241 to R246). -/

namespace Sys2Proof.Machine

/-! ### `RESET` -/

/-- Settles O12: the registers are those of `State.resetWith`, and one byte of `WBUF` is written. -/
theorem resetCommand : Obligations.ResetCommand :=
  ⟨rfl, fun s => ⟨s.commandReset, rfl, registersReset_resetWith s.cfg, holdsAt_write s.wbuf 0 _,
    fun _ ha => sameAt_write s.wbuf _ ha, rfl, rfl, rfl, fun _ _ => rfl, fun _ => rfl, rfl, rfl, rfl, rfl⟩⟩

/-! ### What the frame-level loop keeps -/

section
variable (f : Block → Block) (s : State)

@[simp] theorem transformFrame_cfg : (s.transformFrame f).cfg = s.cfg := by rw [transformFrame_eq]

@[simp] theorem transformFrame_fault : (s.transformFrame f).fault = s.fault := by rw [transformFrame_eq]

@[simp] theorem transformFrame_busy : (s.transformFrame f).busy = s.busy := by rw [transformFrame_eq]

@[simp] theorem transformFrame_width : (s.transformFrame f).width = s.width := by rw [transformFrame_eq]

@[simp] theorem transformFrame_height : (s.transformFrame f).height = s.height := by rw [transformFrame_eq]

@[simp] theorem transformFrame_ibuf : (s.transformFrame f).ibuf = s.ibuf := by rw [transformFrame_eq]

@[simp] theorem transformFrame_ilen : (s.transformFrame f).ilen = s.ilen := by rw [transformFrame_eq]

@[simp] theorem transformFrame_draws : (s.transformFrame f).draws = s.draws := by rw [transformFrame_eq]

theorem geometryOk_transformFrame : GeometryOk (s.transformFrame f) ↔ GeometryOk s := by simp [GeometryOk]

theorem flen_transformFrame : (s.transformFrame f).flen = frameLength s.width.toNat s.height.toNat := by
  simp [State.flen, State.frameW, State.frameH]

theorem transformFrame_invalidateTables :
    s.invalidateTables.transformFrame f = (s.transformFrame f).invalidateTables :=
  List.foldl_hom State.invalidateTables fun _ _ => rfl

end

/-! ### What the frame-level loop depends on -/

/-- The two states have frames of one geometry with the same samples, whatever is specified of them. -/
def SameSamples (s s' : State) : Prop :=
  s.width = s'.width ∧ s.height = s'.height ∧ ∀ a, s.frame.read a = s'.frame.read a

theorem read_scatterElements_congr {m m' : Mem} (h : ∀ a, m.read a = m'.read a) (w tx ty : ℕ) (b : Block) (ks : List ℕ)
    (a : ℕ) : (scatterElements m w tx ty b ks).read a = (scatterElements m' w tx ty b ks).read a := by
  induction ks generalizing m m' with
  | nil => exact h a
  | cons k ks ih => exact ih fun i => by rw [Mem.read_write, Mem.read_write, h]

theorem SameSamples.transformTile {s s' : State} (h : SameSamples s s') (f : Block → Block) (t : ℕ × ℕ) :
    SameSamples (State.transformTile f s t) (State.transformTile f s' t) := by
  obtain ⟨hw, hh, hread⟩ := h
  have hgather : s.gatherTile t.1 t.2 = s'.gatherTile t.1 t.2 := gatherTile_congr hw fun _ _ => hread _
  refine ⟨hw, hh, ?_⟩
  simp only [State.transformTile, State.scatterTile, State.frameW, hgather, hw]
  exact read_scatterElements_congr hread _ _ _ _ _

theorem SameSamples.transformFrame {s s' : State} (h : SameSamples s s') (f : Block → Block) :
    SameSamples (s.transformFrame f) (s'.transformFrame f) := by
  have hfold (ts : List (ℕ × ℕ)) :
      SameSamples (ts.foldl (State.transformTile f) s) (ts.foldl (State.transformTile f) s') := by
    induction ts generalizing s s' with
    | nil => exact h
    | cons t ts ih => exact ih (h.transformTile f t)
  have horder : tileOrder s'.tilesWide s'.tilesHigh = tileOrder s.tilesWide s.tilesHigh := by
    rw [State.tilesWide, State.tilesHigh, State.frameW, State.frameH, ← h.1, ← h.2.1]
    rfl
  rw [State.transformFrame, State.transformFrame, horder]
  exact hfold _

/-- A slice written back where it was read leaves every byte as it reads. -/
theorem Mem.read_writeList_slice (m : Mem) (i n j : ℕ) : (m.writeList i (m.slice i n)).read j = m.read j := by
  rw [Mem.read_writeList]
  split
  next hij =>
    cases hget : (m.slice i n)[j - i]? with
    | none => rfl
    | some b =>
      obtain ⟨hk, rfl⟩ := List.getElem?_eq_some_iff.1 hget
      rw [Mem.getElem_slice, Nat.add_sub_cancel' hij, Option.getD_some]
  next => rfl

/-! ### `PIPE_ENC` -/

@[simp] theorem length_dump (s : State) : s.dump.length = s.flen := Mem.length_slice _ _ _

theorem dump_transformFrame (f : Block → Block) (s : State) :
    (s.transformFrame f).dump = (s.transformFrame f).frame.slice 0 (frameLength s.width.toNat s.height.toNat) := by
  rw [State.dump, flen_transformFrame]

/-- The state after `FRM_FWD` of a legal geometry (42_frame.md R190). -/
def State.forwardFrame (s : State) : State := s.transformFrame (dctForward s.cfg)

theorem pipeTransformed_eq (s : State) : s.pipeTransformed = s.forwardFrame.invalidateTables :=
  transformFrame_invalidateTables _ s

section
variable {s : State} (hg : GeometryOk s)
include hg

theorem exec_frmFwd_ok : exec .frmFwd s = .next s.forwardFrame := withGeometry_ok hg _ _

theorem exec_frmInv_ok : exec .frmInv s = .next (s.transformFrame (dctInverse s.cfg)) := withGeometry_ok hg _ _

/-- `ERR_OVERFLOW` does not occur: eight bits a byte of the longest byte-dump fit 32 bits (43_huffman.md R214). -/
theorem dataBitCount_dump_lt (hcfg : s.cfg.wf = true) : dataBitCount (buildTree s.dump) s.dump < 2 ^ 32 := by
  have hbits := dataBitsAtMostEightPerByte s.dump
  have hlen : s.flen ≤ s.cfg.frameCap := hg.2.2
  have hcap := (Config.caps_of_wf hcfg).2.2.2
  rw [length_dump] at hbits
  omega

end

section
variable {s : State} (hcfg : s.cfg.wf = true) (hg : GeometryOk s)
include hcfg hg

theorem dataBitCount_forwardFrame_lt :
    dataBitCount (buildTree s.forwardFrame.dump) s.forwardFrame.dump < 2 ^ 32 :=
  dataBitCount_dump_lt ((geometryOk_transformFrame _ s).2 hg) ((congrArg Config.wf (transformFrame_cfg _ s)).trans hcfg)

theorem exec_pipeEnc_eq : exec .pipeEnc s =
    if s.cfg.obufCap < (huffEncode s.forwardFrame.dump).length then
      raise (encode .pipeEnc) .capacity (huffEncode s.forwardFrame.dump).length s.forwardFrame.invalidateTables
    else .next (s.forwardFrame.invalidateTables.produce (huffEncode s.forwardFrame.dump)) := by
  have hcap : s.forwardFrame.invalidateTables.cfg.obufCap = s.cfg.obufCap :=
    congrArg Config.obufCap (transformFrame_cfg _ s)
  change withGeometry _ s (encodeTo _ s.pipeTransformed.dump s.pipeTransformed) = _
  rw [withGeometry_ok hg, pipeTransformed_eq, encodeTo, length_huffEncode, hcap]
  exact if_neg (Nat.not_le.2 (dataBitCount_forwardFrame_lt hcfg hg))

end

/-- Settles O49: the encoder's one check that can fail is of the capacity, and it sees the transformed frame. -/
theorem pipeEncEncodesFrame : Obligations.PipeEncEncodesFrame := by
  refine ⟨rfl, fun s hcfg => ⟨raisesGeometry_of_check rfl, fun hg =>
    ⟨s.forwardFrame, exec_frmFwd_ok hg, fun D n total hD hn htotal => ?_⟩⟩⟩
  have hcfg' : s.forwardFrame.cfg = s.cfg := transformFrame_cfg _ s
  have hdraws : s.forwardFrame.draws = s.draws := transformFrame_draws _ s
  obtain rfl : D = s.forwardFrame.dump := hD.trans (dump_transformFrame _ s).symm
  have hlen : (huffEncode s.forwardFrame.dump).length = total := by rw [length_huffEncode, htotal, hn]; rfl
  have hexec := exec_pipeEnc_eq hcfg hg
  rw [hlen] at hexec
  refine ⟨fun hbig => hexec.trans (if_pos hbig), fun hfit => ⟨_, hexec.trans (if_neg (Nat.not_lt.2 hfit)), ?_⟩⟩
  obtain ⟨hframe, holen, hbytes, hrest⟩ := produce_invalidateTables (s := s.forwardFrame) (hcfg' ▸ hcfg)
    (hcfg' ▸ hlen ▸ hfit) rfl
  rw [hlen, hcfg'] at hrest
  exact ⟨hdraws ▸ hframe, holen.trans hlen, hbytes, hrest⟩

/-! ### The script of `PIPE_ENC` -/

/-- The copy of a byte list to `IBUF` followed by a command. -/
theorem runScript_copyThen {s t : State} (hb : s.busy = false) (hf : s.fault = false) {bytes : List Byte}
    (hlen : bytes.length ≤ s.cfg.ibufCap) {i : Instr} (h : exec i (s.holdingInput bytes) = .next t) :
    runScript (copyToInput bytes ++ [cmdLine i]) s = .next t := by
  rw [runScript_append (runScript_copyToInput hb bytes hlen)]
  exact runScript_cons ((hostStep_cmdLine (s := s.holdingInput bytes) hb hf i).trans h)

/-- What `HUF_ENC` does with a byte list that has been copied to `IBUF`. -/
theorem exec_hufEnc_holdingInput {s : State} (hcfg : s.cfg.wf = true) {bytes : List Byte}
    (hlen : bytes.length ≤ s.cfg.ibufCap) : exec .hufEnc (s.holdingInput bytes) =
      if s.cfg.obufCap < (huffEncode bytes).length then
        raise (encode .hufEnc) .capacity (huffEncode bytes).length (s.holdingInput bytes).invalidateTables
      else .next ((s.holdingInput bytes).invalidateTables.produce (huffEncode bytes)) := by
  have hlt : bytes.length < 2 ^ 32 := by
    have := (Config.caps_of_wf hcfg).1.2
    omega
  have hexec := exec_hufEnc_eq (s := s.holdingInput bytes) hcfg ((toNat_ilen_holdingInput hlt).trans_le hlen)
  rwa [input_holdingInput hlt] at hexec

/-- Settles O50: both runs encode the byte-dump of the same transformed frame, and fault at the same capacity. -/
theorem pipeEncEqualsScript : Obligations.PipeEncEqualsScript := by
  intro s hs hf hg hroom
  have hcfg' : s.forwardFrame.cfg = s.cfg := transformFrame_cfg _ s
  have hb' : s.forwardFrame.busy = false := (transformFrame_busy _ s).trans hs.not_busy
  have hf' : s.forwardFrame.fault = false := (transformFrame_fault _ s).trans hf
  have hlen : s.forwardFrame.dump.length ≤ s.forwardFrame.cfg.ibufCap := by
    rw [length_dump, hcfg']
    exact (flen_transformFrame _ s).trans_le hroom
  have hpipe := exec_pipeEnc_eq hs.cfg_wf hg
  have hfrm := (hostStep_cmdLine hs.not_busy hf .frmFwd).trans (exec_frmFwd_ok hg)
  have henc := exec_hufEnc_holdingInput (hcfg' ▸ hs.cfg_wf) hlen
  rw [hcfg'] at henc
  have hscript {u : State} (hu : exec .hufEnc (s.forwardFrame.holdingInput s.forwardFrame.dump) = .next u) :
      runScript (copyToInput (s.forwardFrame.frame.slice 0 (frameLength s.width.toNat s.height.toNat))
        ++ [cmdLine .hufEnc]) s.forwardFrame = .next u := by
    rw [show s.forwardFrame.frame.slice 0 _ = s.forwardFrame.dump from (dump_transformFrame _ s).symm]
    exact runScript_copyThen hb' hf' hlen hu
  have hibuf : s.forwardFrame.ibuf = s.ibuf := transformFrame_ibuf _ s
  have hilen : s.forwardFrame.ilen = s.ilen := transformFrame_ilen _ s
  by_cases hbig : s.cfg.obufCap < (huffEncode s.forwardFrame.dump).length
  · rw [if_pos hbig] at hpipe henc
    exact ⟨_, _, _, hpipe, hfrm, hscript henc, rfl, rfl, rfl, rfl, hibuf, hilen⟩
  · rw [if_neg hbig] at hpipe henc
    exact ⟨_, _, _, hpipe, hfrm, hscript henc, rfl, rfl, rfl, rfl, hibuf, hilen⟩

/-! ### `PIPE_DEC` -/

section
variable {s : State} (hin : InputOk s) (hg : GeometryOk s)
include hin hg

/-- A payload that fails one of the decoder's first checks (44_pipeline_system.md R244). -/
theorem raisesAfter_pipeDec {c : ℕ} (h : decodeHead s.input = .error c) :
    RaisesAfter .pipeDec s { s with hvalid := false } 4#4 c := by
  change execPipeDec s = _
  rw [execPipeDec, withInput_ok hin, withGeometry_ok hg, h]
  rfl

theorem exec_pipeDec_of_ok {T : Tree} (h : decodeHead s.input = .ok T) :
    exec .pipeDec s = decodeToFrame (decodeData T s.input) s.invalidateTables := by
  change execPipeDec s = _
  rw [execPipeDec, withInput_ok hin, withGeometry_ok hg, h]

end

/-- A fault after the data decode leaves `FRAME[0..FLEN)` unspecified and the rest as it was
(44_pipeline_system.md R244). -/
theorem fault_frameUnspecified (s : State) (cmd : Word) (code : BitVec 4) (info : ℕ) {t : State}
    (ht : t = s.invalidateTables.frameUnspecified.afterFault cmd code info) :
    (∀ a, a < frameLength s.width.toNat s.height.toNat → UnspecifiedAt t.frame a)
      ∧ (∀ a, frameLength s.width.toNat s.height.toNat ≤ a → SameAt t.frame s.frame a)
      ∧ t.draws = s.draws + 1
      ∧ t = State.afterFault { s with hvalid := false, frame := t.frame, draws := t.draws } cmd code info := by
  subst ht
  exact ⟨fun a ha => unspecifiedAt_havoc _ _ (Nat.zero_le a) ha,
    fun a ha => sameAt_havoc _ _ _ fun h => Nat.not_lt.2 ha h.2, rfl, rfl⟩

/-- `s` with `HVALID` cleared and a byte list at the start of `FRAME`: what `PIPE_DEC` transforms
(44_pipeline_system.md R244). -/
def State.frameLoaded (s : State) (bytes : List Byte) : State :=
  { s with hvalid := false, frame := s.frame.writeList 0 bytes }

theorem decodeToFrame_of_length {s : State} (hg : GeometryOk s) {bytes : List Byte} (hlen : bytes.length = s.flen) :
    decodeToFrame (some bytes) s.invalidateTables = exec .frmInv (s.frameLoaded bytes) :=
  (if_neg (not_not.2 hlen)).trans (exec_frmInv_ok (s := s.frameLoaded bytes) hg).symm

/-- Settles O51: the checks on the head of the payload, then the walk over its data bits, then the length, and `FRM_INV`
on the frame loaded. -/
theorem pipeDecDecodesFrame : Obligations.PipeDecDecodesFrame := by
  refine ⟨rfl, fun s hcfg => ⟨raisesInput_of_check rfl, fun hin => raisesGeometry_of_check (withInput_ok hin _ _),
    fun hin hg => ⟨fun hshort => ?_, fun hlen hnone => ?_, fun T n hlen hT hn => ?_⟩⟩⟩
  · rw [← length_input] at hshort
    exact raisesAfter_pipeDec hin hg (decodeHead_of_short hshort)
  · rw [← length_input] at hlen
    exact raisesAfter_pipeDec hin hg (decodeHead_of_not_describes hlen hnone)
  · rw [← length_input] at hlen ⊢
    have hhead := decodeHead_of_describes hlen hT
    rw [declaredBits, ← hn] at hhead
    have hdata := decodeData_eq_some_iff hlen hT
    refine ⟨fun hmissing => raisesAfter_pipeDec hin hg (hhead.trans (if_pos hmissing)), fun hfull => ⟨fun hcut => ?_,
      fun out hout => ⟨fun hbad => ?_, fun hfit => ?_⟩⟩⟩
    all_goals have hexec := exec_pipeDec_of_ok hin hg (hhead.trans (if_neg (Nat.not_lt.2 hfull)))
    · have hnone : decodeData T s.input = none :=
        Option.eq_none_iff_forall_ne_some.2 fun out h => hcut out ((hdata out).1 h)
      rw [hnone] at hexec
      exact ⟨_, hexec, fault_frameUnspecified s _ _ _ rfl⟩
    all_goals rw [(hdata out).2 hout] at hexec
    · exact ⟨_, hexec.trans (if_pos hbad), fault_frameUnspecified s _ _ _ rfl⟩
    · have hload := decodeToFrame_of_length hg hfit
      have hinv := exec_frmInv_ok (s := s.frameLoaded out) hg
      exact ⟨s.frameLoaded out, _, (hexec.trans hload).trans hinv, rfl, holdsFrom_writeList _ _ _,
        fun a ha => sameAt_writeList _ _ (by omega), hinv⟩

/-! ### The round trip -/

/-- What the script that copies the payload of a frame's byte-dump to `IBUF` and decodes it leaves. -/
theorem runScript_decodeFrame {s : State} (hcfg : s.cfg.wf = true) (hb : s.busy = false) (hf : s.fault = false)
    (hg : GeometryOk s) {d : List Byte} (hd : d.length = s.flen) (hbits : dataBitCount (buildTree d) d < 2 ^ 32)
    (hlen : (huffEncode d).length ≤ s.cfg.ibufCap) :
    runScript (copyToInput (huffEncode d) ++ [cmdLine .pipeDec]) s =
      .next (((s.holdingInput (huffEncode d)).frameLoaded d).transformFrame (dctInverse s.cfg)) := by
  set i := s.holdingInput (huffEncode d)
  have hlt : (huffEncode d).length < 2 ^ 32 := by
    have := (Config.caps_of_wf hcfg).1.2
    omega
  have hinput : i.input = huffEncode d := input_holdingInput hlt
  have hin : InputOk i := (toNat_ilen_holdingInput hlt).trans_le hlen
  have hexec := exec_pipeDec_of_ok hin hg (T := buildTree d) (by rw [hinput, decodeHead_huffEncode hbits])
  rw [hinput, decodeData_huffEncode hbits, decodeToFrame_of_length (s := i) hg hd,
    exec_frmInv_ok (s := i.frameLoaded d) hg] at hexec
  exact runScript_copyThen hb hf hlen hexec

/-- The state after a `PIPE_ENC` that succeeds, from the transformed frame (44_pipeline_system.md R241). -/
def State.dumpEncoded (s : State) : State := s.invalidateTables.produce (huffEncode s.dump)

/-- An encoded frame is decoded to the same samples, which `PIPE_DEC` puts through the inverse transform. -/
theorem pipeDec_dumpEncoded {s : State} (hcfg : s.cfg.wf = true) (hb : s.busy = false) (hf : s.fault = false)
    (hg : GeometryOk s) (hobuf : (huffEncode s.dump).length ≤ s.cfg.obufCap)
    (hibuf : (huffEncode s.dump).length ≤ s.cfg.ibufCap) :
    ∃ t, runScript (copyToInput (s.dumpEncoded.obuf.slice 0 s.dumpEncoded.olen.toNat) ++ [cmdLine .pipeDec])
        s.dumpEncoded = .next t
      ∧ t.fault = false ∧ SameSamples t (s.transformFrame (dctInverse s.cfg)) := by
  obtain ⟨-, holen, -⟩ := produce_invalidateTables hcfg hobuf (t := s.dumpEncoded) rfl
  have hslice : s.dumpEncoded.obuf.slice 0 s.dumpEncoded.olen.toNat = huffEncode s.dump := by
    rw [holen]
    exact Mem.slice_loaded _ _ _
  have hsame : SameSamples ((s.dumpEncoded.holdingInput (huffEncode s.dump)).frameLoaded s.dump) s :=
    ⟨rfl, rfl, s.frame.read_writeList_slice 0 s.flen⟩
  rw [hslice]
  exact ⟨_, runScript_decodeFrame (s := s.dumpEncoded) hcfg hb hf hg (length_dump s) (dataBitCount_dump_lt hg hcfg)
    hibuf, (transformFrame_fault _ _).trans hf, hsame.transformFrame _⟩

/-- Settles O52: the payload decodes to the byte-dump it was made of, so `PIPE_DEC` transforms the frame that `PIPE_ENC`
left. -/
theorem pipelineRoundTrip : Obligations.PipelineRoundTrip := by
  intro s f hs hf hg hfwd hroom
  obtain rfl := next_inj ((exec_frmFwd_ok hg).symm.trans hfwd)
  have hcfg' : s.forwardFrame.cfg = s.cfg := transformFrame_cfg _ s
  have hb' : s.forwardFrame.busy = false := (transformFrame_busy _ s).trans hs.not_busy
  have hf' : s.forwardFrame.fault = false := (transformFrame_fault _ s).trans hf
  have hg' : GeometryOk s.forwardFrame := (geometryOk_transformFrame _ s).2 hg
  have hfit : (huffEncode s.forwardFrame.dump).length ≤ min s.cfg.obufCap s.cfg.ibufCap := by
    rw [length_huffEncode]
    exact hroom
  obtain ⟨hobuf, hibuf⟩ := le_min_iff.1 hfit
  have henc := (hostStep_cmdLine hs.not_busy hf .pipeEnc).trans
    ((exec_pipeEnc_eq hs.cfg_wf hg).trans (if_neg (Nat.not_lt.2 hobuf)))
  rw [← hcfg'] at hobuf hibuf
  obtain ⟨t, hdec, htf, -, -, hread⟩ := pipeDec_dumpEncoded (hcfg' ▸ hs.cfg_wf) hb' hf' hg' hobuf hibuf
  refine ⟨s.forwardFrame.dumpEncoded, t, _, henc, hf', hdec, htf, exec_frmInv_ok hg',
    fun a _ => ⟨hread a, fun hout => ?_⟩⟩
  have hinv : SameAt (s.forwardFrame.transformFrame (dctInverse s.forwardFrame.cfg)).frame s.forwardFrame.frame a :=
    sameAt_transformFrame _ (by simpa [State.forwardFrame] using hout)
  exact (hread a).trans (hinv.1.trans (sameAt_transformFrame _ hout).1)

end Sys2Proof.Machine
end

section
/-! PROOFS. The fault record: which commands write it, and the faulted state, in which only `RESET` and power-on do
(60_exceptions.md R263 to R267). -/

namespace Sys2Proof.Machine

/-- `t` has the fault record of `s`: `FAULT`, `ERR`, `ERRINFO`, `ERRCMD`. -/
structure KeepsFaultRecord (s t : State) : Prop where
  fault : t.fault = s.fault
  err : t.err = s.err
  errinfo : t.errinfo = s.errinfo
  errcmd : t.errcmd = s.errcmd

theorem KeepsFaultRecord.refl (s : State) : KeepsFaultRecord s s := ⟨rfl, rfl, rfl, rfl⟩

/-! ### The faults of the commands (60_exceptions.md R263 to R265) -/

/-- Command `i` has raised a fault of its row, recorded with its own word, and unless it is a coder command it has changed
nothing else. -/
structure RaisesListed (i : Instr) (s t : State) : Prop where
  fault : t.fault = true
  err : t.err ∈ raisable i
  errcmd : t.errcmd = encode i
  precise : i ∉ coderCommands → t = { s with fault := true, err := t.err, errinfo := t.errinfo, errcmd := t.errcmd }

section
variable {i : Instr} {s t : State} {c : ErrCode} (hc : c.value ∈ raisable i)
include hc

theorem raisesListed_recordFault (info : Nat) : RaisesListed i s (s.recordFault (encode i) c info) :=
  ⟨rfl, hc, rfl, fun _ => rfl⟩

/-- A coder command may fault after it has changed the state. -/
theorem raisesListed_of_coder (hi : i ∈ coderCommands) (u : State) (info : Nat) :
    RaisesListed i s (u.recordFault (encode i) c info) :=
  ⟨rfl, hc, rfl, fun h => absurd hi h⟩

end

theorem Effect.keepsFaultRecord_or_raisesListed {i : Instr} {s t : State} (h : Effect i s t) (hi : i ≠ .reset) :
    KeepsFaultRecord s t ∨ RaisesListed i s t := by
  cases h with
  | reset h => exact absurd h hi
  | fault c info hc => exact .inr (raisesListed_recordFault hc info)
  | encFault h c info hc => exact .inr (raisesListed_of_coder hc (by rcases h with rfl | rfl | rfl <;> decide) _ info)
  | decFault h c info hc => exact .inr (raisesListed_of_coder hc (by simp [h]) _ info)
  | pipeEncFault h _ c info hc => exact .inr (raisesListed_of_coder hc (by simp [h]) _ info)
  | pipeDecFault h _ c info hc => exact .inr (raisesListed_of_coder hc (by simp [h]) _ info)
  | bswWrite => rw [appendBit_fields]; exact .inl ⟨rfl, rfl, rfl, rfl⟩
  | bsrRead => rw [advanceReader_fields]; exact .inl ⟨rfl, rfl, rfl, rfl⟩
  | frm => rw [transformFrame_eq]; exact .inl ⟨rfl, rfl, rfl, rfl⟩
  | pipeEnc => rw [pipeTransformed_fields]; exact .inl ⟨rfl, rfl, rfl, rfl⟩
  | pipeDec => rw [loadFrame_fields]; exact .inl ⟨rfl, rfl, rfl, rfl⟩
  | bswInit | bsrInit | blk | blkSt | get | set | build | enc => exact .inl ⟨rfl, rfl, rfl, rfl⟩

/-- Settles O55: `RESET` leaves no fault, and every other command keeps the fault record or raises a fault of its row. -/
theorem faultsAreThoseListed : Obligations.FaultsAreThoseListed := by
  intro i s t hs h
  by_cases hi : i = .reset
  · subst hi
    have ht : t.fault = false := by rw [← next_inj h]; rfl
    simp [ht]
  · obtain ⟨hfault, herr, hinfo, hcmd⟩ | ⟨hfault, herr, hcmd, hprecise⟩ :=
      (exec_effect h).keepsFaultRecord_or_raisesListed hi
    · simp [hfault, hs, herr, hinfo, hcmd]
    · exact ⟨fun _ => ⟨herr, hcmd⟩, fun hf => Bool.noConfusion (hfault.symm.trans hf), fun _ => hprecise⟩

/-! ### Host accesses do not see `FAULT` (60_exceptions.md R266) -/

/-- The state with `FAULT` at 0 and the rest as it is. -/
def State.unfaulted (s : State) : State := { s with fault := false }

/-- `STATUS` is the one register that shows `FAULT` (10_state.md R25). -/
theorem readReg_unfaulted (s : State) {n : Nat} (hn : n ≠ 0) : s.unfaulted.readReg n = s.readReg n := by
  unfold State.readReg
  split
  · exact absurd rfl hn
  all_goals rfl

theorem writeReg_unfaulted (s : State) (n : Nat) (v : Word) : s.unfaulted.writeReg n v = (s.writeReg n v).unfaulted := by
  rw [writeReg_eq, writeReg_eq]
  rfl

theorem deliver_unfaulted (s : State) (v : Option Word) : s.unfaulted.deliver v = (s.deliver v).unfaulted := by
  cases v <;> rfl

theorem deliverByte_unfaulted (s : State) (v : Option Byte) :
    s.unfaulted.deliverByte v = (s.deliverByte v).unfaulted := by cases v <;> rfl

theorem writeByteSpace_unfaulted (s : State) (sp : ByteSpace) (i : Nat) (v : Byte) :
    s.unfaulted.writeByteSpace sp i v = (s.writeByteSpace sp i v).unfaulted := by cases sp <;> rfl

theorem keepsFaultRecord_deliver (s : State) (v : Option Word) : KeepsFaultRecord s (s.deliver v) := by
  cases v <;> exact ⟨rfl, rfl, rfl, rfl⟩

/-- What an access with an index answers: refused outside its space (20_memory.md R65). -/
theorem next_of_index_check {p : Prop} [Decidable p] {u t : State} {r : Refusal}
    (h : (if p then .next u else .refused r : Result) = .next t) : p ∧ u = t := by
  by_cases hp : p
  · rw [if_pos hp] at h; exact ⟨hp, next_inj h⟩
  · rw [if_neg hp] at h; cases h

/-- A busy block refuses all but a read of `STATUS` and power-on (70_reset_and_hazards.md R301). -/
theorem hostStep_eq_next_iff {a : HostAction} {s t : State} :
    hostStep a s = .next t ↔ ¬(s.busy && !allowedWhileBusy a) = true ∧ performAction a s = .next t := by
  unfold hostStep
  split
  case isTrue hbusy => exact ⟨nofun, fun h => absurd hbusy h.1⟩
  case isFalse hfree => exact (and_iff_right hfree).symm

section
variable {a : HostAction} {s t : State} (hissue : ∀ w, a ≠ .issue w) (hpower : a ≠ .powerOn)
include hissue hpower

theorem performAction_keepsFaultRecord (h : performAction a s = .next t) : KeepsFaultRecord s t := by
  cases a with
  | issue w => exact absurd rfl (hissue w)
  | powerOn => exact absurd rfl hpower
  | readReg n =>
    rw [← next_inj h]
    exact keepsFaultRecord_deliver s _
  | writeReg n v =>
    rw [← next_inj h, writeReg_eq]
    exact ⟨rfl, rfl, rfl, rfl⟩
  | readByte sp i =>
    rw [← (next_of_index_check h).2, deliverByte_eq]
    exact ⟨rfl, rfl, rfl, rfl⟩
  | writeByte sp i v =>
    rw [← (next_of_index_check h).2]
    cases sp <;> exact ⟨rfl, rfl, rfl, rfl⟩
  | readWord sp i =>
    rw [← (next_of_index_check h).2]
    exact keepsFaultRecord_deliver s _
  | writeWord sp i v =>
    rw [← (next_of_index_check h).2]
    exact .refl s

/-- A host access does the same in the unfaulted state, a read of `STATUS` apart. -/
theorem performAction_unfaulted (hstatus : a ≠ .readReg 0) (h : performAction a s = .next t) :
    performAction a s.unfaulted = .next t.unfaulted := by
  cases a with
  | issue w => exact absurd rfl (hissue w)
  | powerOn => exact absurd rfl hpower
  | readReg n =>
    have hn : n ≠ 0 := fun h0 => hstatus (by rw [h0])
    rw [← next_inj h, ← deliver_unfaulted, ← readReg_unfaulted s hn]
    rfl
  | writeReg n v =>
    rw [← next_inj h, ← writeReg_unfaulted]
    rfl
  | readByte sp i =>
    obtain ⟨hi, rfl⟩ := next_of_index_check h
    exact (if_pos hi).trans (congrArg _ (deliverByte_unfaulted s _))
  | writeByte sp i v =>
    obtain ⟨hi, rfl⟩ := next_of_index_check h
    exact (if_pos hi).trans (congrArg _ (writeByteSpace_unfaulted s sp i v))
  | readWord sp i =>
    obtain ⟨hi, rfl⟩ := next_of_index_check h
    exact (if_pos hi).trans (congrArg _ (deliver_unfaulted s _))
  | writeWord sp i v =>
    obtain ⟨hi, rfl⟩ := next_of_index_check h
    exact if_pos hi

theorem hostStep_unfaulted (hstatus : a ≠ .readReg 0) (h : hostStep a s = .next t) :
    hostStep a s.unfaulted = .next t.unfaulted := by
  obtain ⟨hfree, haction⟩ := hostStep_eq_next_iff.1 h
  exact hostStep_eq_next_iff.2 ⟨hfree, performAction_unfaulted hissue hpower hstatus haction⟩

end

/-! ### The faulted state (60_exceptions.md R266, R267) -/

section
variable {s : State} (hf : s.fault = true)
include hf

theorem issue_of_fault {w : Word} (hw : w ≠ encode .reset) : issue w s = .next s := by
  rw [issue, if_pos hf, if_neg hw]

theorem issue_reset_of_fault : issue (encode .reset) s = exec .reset s := by
  rw [issue, if_pos hf, if_pos rfl]

/-- The fault record is sticky. -/
theorem hostStep_keepsFaultRecord {a : HostAction} {t : State} (hreset : a ≠ .issue (encode .reset))
    (hpower : a ≠ .powerOn) (h : hostStep a s = .next t) : KeepsFaultRecord s t := by
  obtain ⟨-, haction⟩ := hostStep_eq_next_iff.1 h
  by_cases hissue : ∃ w, a = .issue w
  · obtain ⟨w, rfl⟩ := hissue
    have hw : w ≠ encode .reset := fun hw => hreset (by rw [hw])
    rw [← next_inj ((issue_of_fault hf hw).symm.trans haction)]
    exact .refl s
  · exact performAction_keepsFaultRecord (not_exists.1 hissue) hpower haction

end

/-- Settles O7: `issue` answers for the words, and no host access sees `FAULT` or writes the fault record. -/
theorem faultedBlockExecutesOnlyReset : Obligations.FaultedBlockExecutesOnlyReset := by
  intro s hf
  refine ⟨fun w hw => issue_of_fault hf hw,
    ⟨s.commandReset, issue_reset_of_fault hf, rfl, registersReset_resetWith s.cfg⟩,
    fun a hissue hpower hstatus t h => ⟨?_, hostStep_unfaulted hissue hpower hstatus h⟩, fun a hreset hpower t h => ?_⟩
  · exact (hostStep_keepsFaultRecord hf (hissue _) hpower h).fault.trans hf
  · obtain ⟨hfault, herr, hinfo, hcmd⟩ := hostStep_keepsFaultRecord hf hreset hpower h
    exact ⟨hfault.trans hf, herr, hinfo, hcmd⟩

end Sys2Proof.Machine
end

section
/-! PROOFS. Every command ends in a next state, and none raises `ERR_OVERFLOW` (70_reset_and_hazards.md R300, 43_huffman.md
R214). -/

namespace Sys2Proof.Machine

/-! ### The error code of the invariant (10_state.md R26) -/

theorem Inv.errors {s : State} (hs : Inv s) : ErrorInv s := by
  obtain ⟨-, -, -, -, -, herrors, -⟩ := hs
  exact herrors

theorem Inv.err_ne_overflow {s : State} (hs : Inv s) (hf : s.fault = false) : s.err ≠ 8#4 := by
  rw [(hs.errors.1 hf).1]
  decide

/-! ### The commands with a count of data bits

Only these three have a check that raises `ERR_OVERFLOW` (60_exceptions.md R263), and its bound is never reached. -/

theorem overflow_mem_raisable {i : Instr} (h : 8#4 ∈ raisable i) : i = .hufBuild ∨ i = .hufEnc ∨ i = .pipeEnc := by
  cases i with
  | hufBuild => exact .inl rfl
  | hufEnc => exact .inr (.inl rfl)
  | pipeEnc => exact .inr (.inr rfl)
  | _ => simp [raisable] at h

/-- The encoder's end, whose one check left is of the capacity (43_huffman.md R217). -/
theorem err_ne_overflow_of_capacityCheck {p : Prop} [Decidable p] {cmd : Word} {info : ℕ} {bytes : List Byte} {u t : State}
    (hu : u.err ≠ 8#4)
    (h : (if p then raise cmd .capacity info u.invalidateTables else .next (u.invalidateTables.produce bytes)) = .next t) :
    t.err ≠ 8#4 := by
  split at h <;> rw [← next_inj h]
  · exact show 7#4 ≠ 8#4 by decide
  · exact hu

section
variable {s t : State} (hcfg : s.cfg.wf = true) (herr : s.err ≠ 8#4)
include hcfg herr

theorem hufBuild_err_ne_overflow (h : exec .hufBuild s = .next t) : t.err ≠ 8#4 := by
  by_cases hin : InputOk s
  · rw [← next_inj ((exec_hufBuild_ok hcfg hin).symm.trans h)]
    exact herr
  · rw [← next_inj ((raisesInput_of_check rfl hin).symm.trans h)]
    exact show 5#4 ≠ 8#4 by decide

theorem hufEnc_err_ne_overflow (h : exec .hufEnc s = .next t) : t.err ≠ 8#4 := by
  by_cases hin : InputOk s
  · exact err_ne_overflow_of_capacityCheck herr ((exec_hufEnc_eq hcfg hin).symm.trans h)
  · rw [← next_inj ((raisesInput_of_check rfl hin).symm.trans h)]
    exact show 5#4 ≠ 8#4 by decide

theorem pipeEnc_err_ne_overflow (h : exec .pipeEnc s = .next t) : t.err ≠ 8#4 := by
  by_cases hg : GeometryOk s
  · have hframe : s.forwardFrame.err = s.err := by rw [State.forwardFrame, transformFrame_eq]
    exact err_ne_overflow_of_capacityCheck (hframe.trans_ne herr) ((exec_pipeEnc_eq hcfg hg).symm.trans h)
  · rw [← next_inj ((raisesGeometry_of_check rfl hg).symm.trans h)]
    exact show 6#4 ≠ 8#4 by decide

end

/-! ### Every command -/

/-- A command that lists `ERR_OVERFLOW` never reaches it; every other one leaves no fault or raises one of its list. -/
theorem exec_err_ne_overflow {i : Instr} {s t : State} (hs : Inv s) (ht : Inv t) (hf : s.fault = false)
    (h : exec i s = .next t) : t.err ≠ 8#4 := by
  by_cases hi : 8#4 ∈ raisable i
  · have herr := hs.err_ne_overflow hf
    obtain rfl | rfl | rfl := overflow_mem_raisable hi
    · exact hufBuild_err_ne_overflow hs.cfg_wf herr h
    · exact hufEnc_err_ne_overflow hs.cfg_wf herr h
    · exact pipeEnc_err_ne_overflow hs.cfg_wf herr h
  · cases hft : t.fault with
    | false => exact ht.err_ne_overflow hft
    | true =>
      obtain ⟨hlisted, -⟩ := (faultsAreThoseListed i s t hf h).1 hft
      exact ne_of_mem_of_not_mem hlisted hi

/-- Settles O58: every command keeps the invariant, so that it ends; and eight data bits a byte of the longest input or
frame fit 32 bits. -/
theorem everyCommandEnds : Obligations.EveryCommandEnds := by
  intro i s hs
  obtain ⟨t, h, ht, -⟩ := exec_keepsInv hs i
  exact ⟨t, h, fun hf => exec_err_ne_overflow hs ht hf h⟩

end Sys2Proof.Machine
end
